-- ==== Sys2Proof/Word.lean ====
section
/-! DEFINITION. The word types of the block: 64-bit host registers and operands (10_state.md R100,
00_scope.md R11), payload bytes (10_state.md R110) and 32-bit command words (30_encoding.md R300). -/

namespace Sys2Proof

/-- A 64-bit register, operand, timestamp or value pattern (00_scope.md R20, a `u64` or the pattern of an `i64`). -/
abbrev Word := BitVec 64

/-- A payload or header byte. -/
abbrev Byte := BitVec 8

/-- A command word (30_encoding.md R300). -/
abbrev CmdWord := BitVec 32

end Sys2Proof
end

