-- ==== Sys2Proof/Config.lean ====
section
/-! DEFINITION. The implementation parameters (00_scope.md R10), the constants derived from them (R12),
which configurations are well formed (R13) and the identity string (R2). -/

namespace Sys2Proof

/-- Byte order of the chunk header, `HDR_ORDER` (00_scope.md R10, 20_memory.md R211). -/
inductive ByteOrder where
  | le
  | be
deriving DecidableEq, Repr

/-- How the first timestamp's bucket is chosen, `FIRST_TS_MODE` (00_scope.md R10, 44_appender.md R526). -/
inductive FirstTsMode where
  | select
  | escape
deriving DecidableEq, Repr

/-- The parameters of a built block (00_scope.md R10). `K` is the length of the bucket table. -/
structure Config where
  /-- `HDR_BYTES`. -/
  hdrBytes : Nat
  /-- `HDR_ORDER`. -/
  hdrOrder : ByteOrder
  /-- `MAX_SAMPLES`. -/
  maxSamples : Nat
  /-- `PAYLOAD_CAP_BYTES`; `none` is `UNBOUNDED`. -/
  payloadCap : Option Nat
  /-- `W[0..K-1]`. -/
  widths : List Nat
  /-- `LZ_BITS`. -/
  lzBits : Nat
  /-- `MB_BITS`. -/
  mbBits : Nat
  /-- `FIRST_TS_MODE`. -/
  firstTs : FirstTsMode
  /-- `N_DEC`. -/
  nDec : Nat
deriving DecidableEq, Repr

/-- The values this spec takes (00_scope.md R10). `PAYLOAD_CAP_BYTES` is OPEN in the spec; `UNBOUNDED`
here is a DESIGN CHOICE, unsafe (notes/assumptions/3.md). -/
def Config.standard : Config where
  hdrBytes := 2
  hdrOrder := .le
  maxSamples := 65535
  payloadCap := none
  widths := [0, 3, 6, 9, 12, 18, 25, 56, 64]
  lzBits := 5
  mbBits := 6
  firstTs := .select
  nDec := 2

/-- `K`, the number of varbit buckets. -/
def Config.k (c : Config) : Nat := c.widths.length

/-- `ESC = K-1`, the escape bucket (00_scope.md R12). -/
def Config.esc (c : Config) : Nat := c.k - 1

/-- `W[k]`; 64 beyond the table, where no rule reads it. -/
def Config.width (c : Config) (k : Nat) : Nat := c.widths.getD k 64

/-- `LZ_MAX = 2^LZ_BITS - 1` (00_scope.md R12). -/
def Config.lzMax (c : Config) : Nat := 2 ^ c.lzBits - 1

/-- `HDR_MAX = 2^(8·HDR_BYTES) - 1` (00_scope.md R12). -/
def Config.hdrMax (c : Config) : Nat := 2 ^ (8 * c.hdrBytes) - 1

/-- The legal values of each parameter (00_scope.md R10) and the checks of R13. -/
abbrev Config.wf (c : Config) : Prop :=
  (1 ≤ c.hdrBytes ∧ c.hdrBytes ≤ 8) ∧
  (1 ≤ c.maxSamples ∧ c.maxSamples ≤ c.hdrMax) ∧
  1 ≤ c.payloadCap.getD 1 ∧
  (2 ≤ c.k ∧ c.k ≤ 16) ∧
  c.widths.Pairwise (· < ·) ∧ c.widths.getLast? = some 64 ∧
  (1 ≤ c.lzBits ∧ c.lzBits ≤ 6) ∧
  (6 ≤ c.mbBits ∧ c.mbBits ≤ 7) ∧
  (1 ≤ c.nDec ∧ c.nDec ≤ 16)

/-- The identity string of an instance (00_scope.md R2). -/
def Config.identity (c : Config) : String :=
  "RCE-BSA/1 HB" ++ toString c.hdrBytes ++ (match c.hdrOrder with | .le => " LE" | .be => " BE") ++
  " K" ++ toString c.k ++ " LZ" ++ toString c.lzBits ++ " MB" ++ toString c.mbBits ++
  " ND" ++ toString c.nDec ++ " FT" ++ (match c.firstTs with | .select => "SELECT" | .escape => "ESCAPE")

end Sys2Proof
end

