-- ==== Sys2Proof/Syntax.lean ====
section
/-! DEFINITION. The thirty commands (30_encoding.md R307), one constructor per row of the opcode table.
A count command carries `N`, a context command carries `CTX` (R302); no command word carries data (R301). -/

namespace Sys2Proof

/-- A command. `n` is the count field `N`, `j` the context index `CTX`. -/
inductive Instr where
  | nop
  | clear
  | bsWbit
  | bsWbits (n : BitVec 7)
  | bsWbyte
  | bsWbytes (n : BitVec 7)
  | bsLen
  | bsRdbyte
  | rdOpen (j : BitVec 4)
  | rdPos (j : BitVec 4)
  | bsRbit (j : BitVec 4)
  | bsRbits (n : BitVec 7) (j : BitVec 4)
  | bsRbyte (j : BitVec 4)
  | uvEnc
  | uvDec (j : BitVec 4)
  | vbEncU
  | vbEncS
  | vbDecU (j : BitVec 4)
  | vbDecS (j : BitVec 4)
  | vbSelU
  | vbSelS
  | zzMap
  | zzUnmap
  | appInit
  | appAppend
  | iterInit (j : BitVec 4)
  | iterNext (j : BitVec 4)
  | chLoadb
  | chLen
  | chRdb
deriving DecidableEq, Repr

end Sys2Proof
end

