-- ==== Sys2Proof/WellFormed.lean ====
section
/-! DEFINITION. Which commands the decode verdict lets through: the ranges of `N` and `CTX`
(30_encoding.md R302, checks 3 and 4 of R303). -/

namespace Sys2Proof

/-- A count command's `N` with the largest value the command takes (30_encoding.md R302); `none` for a
command that does not use `N`. -/
def Instr.count? : Instr → Option (BitVec 7 × Nat)
  | .bsWbits n => some (n, 64)
  | .bsWbytes n => some (n, 8)
  | .bsRbits n _ => some (n, 64)
  | .nop | .clear | .bsWbit | .bsWbyte | .bsLen | .bsRdbyte | .rdOpen _ | .rdPos _ | .bsRbit _
  | .bsRbyte _ | .uvEnc | .uvDec _ | .vbEncU | .vbEncS | .vbDecU _ | .vbDecS _ | .vbSelU | .vbSelS
  | .zzMap | .zzUnmap | .appInit | .appAppend | .iterInit _ | .iterNext _ | .chLoadb | .chLen
  | .chRdb => none

/-- A context command's `CTX` (30_encoding.md R302); `none` for a command that does not use it. -/
def Instr.ctx? : Instr → Option (BitVec 4)
  | .rdOpen j | .rdPos j | .bsRbit j | .bsRbits _ j | .bsRbyte j | .uvDec j | .vbDecU j | .vbDecS j
  | .iterInit j | .iterNext j => some j
  | .nop | .clear | .bsWbit | .bsWbits _ | .bsWbyte | .bsWbytes _ | .bsLen | .bsRdbyte | .uvEnc
  | .vbEncU | .vbEncS | .vbSelU | .vbSelS | .zzMap | .zzUnmap | .appInit | .appAppend | .chLoadb
  | .chLen | .chRdb => none

/-- `N` is within the command's range. -/
def Instr.countOk (i : Instr) : Bool :=
  match i.count? with
  | some (n, most) => decide (n.toNat ≤ most)
  | none => true

/-- `CTX < N_DEC`. -/
def Instr.ctxOk (c : Config) (i : Instr) : Bool :=
  match i.ctx? with
  | some j => decide (j.toNat < c.nDec)
  | none => true

/-- A command an instance with configuration `c` may run. -/
def Instr.wf (c : Config) (i : Instr) : Bool := i.countOk && i.ctxOk c

end Sys2Proof
end

