-- ==== Sys2Proof/Decode.lean ====
section
/-! DEFINITION. The command word: its fields (30_encoding.md R300, R301), the decode verdict in the order
of R303 with a name for each check that fails, the opcode map (R307), and the encoder. -/

namespace Sys2Proof

/-- Which check of 30_encoding.md R303 an accepted word fails first. All four post `IllegalCommand`. -/
inductive DecodeError where
  /-- Check 1: `word[31:20]` or `word[15]` is not 0. -/
  | reservedBits
  /-- Check 2: `OP` is no opcode of R307 (the values of R308). -/
  | unknownOpcode
  /-- Check 3: `N` above its range, or not 0 on a command that does not use it. -/
  | countOutOfRange
  /-- Check 4: `CTX` at or above `N_DEC`, or not 0 on a command that does not use it. -/
  | contextOutOfRange
deriving DecidableEq, Repr

/-- `OP = word[7:0]` (30_encoding.md R301). -/
def CmdWord.op (w : CmdWord) : BitVec 8 := w.extractLsb' 0 8

/-- `N = word[14:8]`. -/
def CmdWord.n (w : CmdWord) : BitVec 7 := w.extractLsb' 8 7

/-- `CTX = word[19:16]`. -/
def CmdWord.ctx (w : CmdWord) : BitVec 4 := w.extractLsb' 16 4

/-- Check 1 of 30_encoding.md R303. -/
def CmdWord.reservedZero (w : CmdWord) : Bool :=
  w.extractLsb' 20 12 == 0#12 && w.extractLsb' 15 1 == 0#1

/-- The opcode map (30_encoding.md R307), read from `OP`, with the fields the command uses. -/
def opcodeMap (op : BitVec 8) (n : BitVec 7) (j : BitVec 4) : Option Instr :=
  match op.toNat with
  | 0x00 => some .nop
  | 0x01 => some .clear
  | 0x10 => some .bsWbit
  | 0x11 => some (.bsWbits n)
  | 0x12 => some .bsWbyte
  | 0x13 => some (.bsWbytes n)
  | 0x14 => some .bsLen
  | 0x15 => some .bsRdbyte
  | 0x18 => some (.rdOpen j)
  | 0x19 => some (.rdPos j)
  | 0x1A => some (.bsRbit j)
  | 0x1B => some (.bsRbits n j)
  | 0x1C => some (.bsRbyte j)
  | 0x20 => some .uvEnc
  | 0x21 => some (.uvDec j)
  | 0x28 => some .vbEncU
  | 0x29 => some .vbEncS
  | 0x2A => some (.vbDecU j)
  | 0x2B => some (.vbDecS j)
  | 0x2C => some .vbSelU
  | 0x2D => some .vbSelS
  | 0x2E => some .zzMap
  | 0x2F => some .zzUnmap
  | 0x30 => some .appInit
  | 0x31 => some .appAppend
  | 0x32 => some (.iterInit j)
  | 0x33 => some (.iterNext j)
  | 0x34 => some .chLoadb
  | 0x35 => some .chLen
  | 0x36 => some .chRdb
  | _ => none

/-- Check 3 of 30_encoding.md R303: `N` in range on a count command, 0 on any other. -/
def countLegal (i : Instr) (n : BitVec 7) : Bool :=
  match i.count? with
  | some (_, most) => decide (n.toNat ≤ most)
  | none => n == 0#7

/-- Check 4 of 30_encoding.md R303: `CTX < N_DEC` on a context command, 0 on any other. -/
def ctxLegal (c : Config) (i : Instr) (j : BitVec 4) : Bool :=
  match i.ctx? with
  | some _ => decide (j.toNat < c.nDec)
  | none => j == 0#4

/-- The decode verdict (30_encoding.md R303): the command of a word, or the first check it fails. -/
def decode (c : Config) (w : CmdWord) : Except DecodeError Instr :=
  if !w.reservedZero then .error .reservedBits
  else
    match opcodeMap w.op w.n w.ctx with
    | none => .error .unknownOpcode
    | some i =>
      if !countLegal i w.n then .error .countOutOfRange
      else if !ctxLegal c i w.ctx then .error .contextOutOfRange
      else .ok i

/-- A command's opcode (30_encoding.md R307). -/
def Instr.opcode : Instr → BitVec 8
  | .nop => 0x00
  | .clear => 0x01
  | .bsWbit => 0x10
  | .bsWbits _ => 0x11
  | .bsWbyte => 0x12
  | .bsWbytes _ => 0x13
  | .bsLen => 0x14
  | .bsRdbyte => 0x15
  | .rdOpen _ => 0x18
  | .rdPos _ => 0x19
  | .bsRbit _ => 0x1A
  | .bsRbits _ _ => 0x1B
  | .bsRbyte _ => 0x1C
  | .uvEnc => 0x20
  | .uvDec _ => 0x21
  | .vbEncU => 0x28
  | .vbEncS => 0x29
  | .vbDecU _ => 0x2A
  | .vbDecS _ => 0x2B
  | .vbSelU => 0x2C
  | .vbSelS => 0x2D
  | .zzMap => 0x2E
  | .zzUnmap => 0x2F
  | .appInit => 0x30
  | .appAppend => 0x31
  | .iterInit _ => 0x32
  | .iterNext _ => 0x33
  | .chLoadb => 0x34
  | .chLen => 0x35
  | .chRdb => 0x36

/-- The `N` field of a command's word: its count, or 0 (30_encoding.md R300). -/
def Instr.nField (i : Instr) : BitVec 7 := (i.count?.map Prod.fst).getD 0#7

/-- The `CTX` field of a command's word: its context, or 0 (30_encoding.md R300). -/
def Instr.ctxField (i : Instr) : BitVec 4 := i.ctx?.getD 0#4

/-- The command word of a command, `000000000000 cccc 0 nnnnnnn oooooooo` (30_encoding.md R300). -/
def encode (i : Instr) : CmdWord := 0#12 ++ i.ctxField ++ 0#1 ++ i.nField ++ i.opcode

/-- The command word whose bits are the low `nbits` of `w`, the rest 0. A word is 32 bits and is written
to `CMD` whole (30_encoding.md R309, 10_state.md R100), so no byte order arises. -/
def tableWord (nbits w : Nat) : CmdWord := BitVec.ofNat 32 (w % 2 ^ nbits)

/-- The command the decoder of an instance with the spec's parameters reads from a table word. -/
def decodeTableWord (nbits w : Nat) : Option Instr :=
  (decode Config.standard (tableWord nbits w)).toOption

end Sys2Proof
end

