-- ==== Sys2Proof/Machine/State.lean ====
section
/-! DEFINITION. The state of the block and of its host, as plain data, and the state after reset
(10_state.md, 70_reset_and_hazards.md). -/

namespace Sys2Proof.Machine

/-- The status codes a command posts in `STATUS.ST` (60_exceptions.md R700). The reserved codes 5 to 7 and
14 to 15 are never posted and have no constructor (notes/assumptions/17.md). -/
inductive Status where
  | ok
  | outOfOrder
  | truncated
  | overflow
  | limitExceeded
  | illegalCommand
  | noContext
  | malformed
  | capacityExceeded
  | badIndex
  | noChunk
deriving DecidableEq, Repr

/-- The payload bytes `B`, as (index, byte) cells with indices strictly rising and no cell holding what an
unlisted index reads as (10_state.md R110). -/
abbrev Memory := List Host.Cell

/-- The payload store, the document's Bit Stream (10_state.md R110). -/
structure Payload where
  /-- `B`. -/
  mem : Memory
  /-- `WLEN`, the number of payload bytes in use. -/
  wlen : Nat
  /-- `WFILL`, the number of valid bits in byte `B[WLEN-1]`. -/
  wfill : Nat
deriving DecidableEq, Repr

/-- The chunk header (10_state.md R112). -/
structure Header where
  /-- `HDR`, held in 64 bits; its bits from `8·HDR_BYTES` up are 0 (notes/assumptions/11.md). -/
  hdr : Word
  /-- `HLEN`, the number of header bytes present. -/
  hlen : Nat
deriving DecidableEq, Repr

/-- The compressor context `A` (10_state.md R113). -/
structure Appender where
  /-- `A.VALID`. -/
  valid : Bool
  /-- `A.CNT`. -/
  cnt : Word
  /-- `A.PT`. -/
  pt : Word
  /-- `A.PD`. -/
  pd : Word
  /-- `A.PV`. -/
  pv : Word
  /-- `A.WV`. -/
  wv : Bool
  /-- `A.LZ`. -/
  lz : BitVec 6
  /-- `A.TZ`. -/
  tz : BitVec 6
deriving DecidableEq, Repr

/-- `D[j].MODE` (10_state.md R114). -/
inductive CtxMode where
  /-- Opened by `RD_OPEN`. -/
  | raw
  /-- Opened by `ITER_INIT`. -/
  | iter
deriving DecidableEq, Repr

/-- A decompressor context `D[j]` (10_state.md R114). -/
structure DecCtx where
  /-- `D[j].ACT`. -/
  act : Bool
  /-- `D[j].MODE`. -/
  mode : CtxMode
  /-- `D[j].N`. -/
  n : Word
  /-- `D[j].I`. -/
  i : Word
  /-- `D[j].CUR`, a natural number (40_control.md R405 (e)). -/
  cur : Nat
  /-- `D[j].PT`. -/
  pt : Word
  /-- `D[j].PD`. -/
  pd : Word
  /-- `D[j].PV`. -/
  pv : Word
  /-- `D[j].WV`. -/
  wv : Bool
  /-- `D[j].LZ`. -/
  lz : BitVec 6
  /-- `D[j].TZ`. -/
  tz : BitVec 6
deriving DecidableEq, Repr

/-- What the host, or the platform for reset, does next (00_scope.md R7, 10_state.md R100,
70_reset_and_hazards.md R800, R810). -/
inductive HostEvent where
  /-- A write of host register `index`. -/
  | write (index : BitVec 4) (value : Word)
  /-- A read of host register `index`; what it returns is left in `hostData`. -/
  | read (index : BitVec 4)
  /-- The host waits until `STATUS.BUSY` = 0 (R810): a running command completes here. -/
  | await
  /-- Reset is asserted. -/
  | resetOn
  /-- Reset is released. -/
  | resetOff
deriving DecidableEq, Repr

/-- The whole machine: the block's configuration and state, and the host's coming actions. -/
structure State where
  /-- The parameters of the instance; no step changes them (00_scope.md R10, notes/assumptions/3.md). -/
  cfg : Config
  /-- The last accepted command word, `CMD` (10_state.md R101). -/
  cmd : CmdWord
  /-- `OPA` (10_state.md R102). -/
  opa : Word
  /-- `OPB` (10_state.md R102). -/
  opb : Word
  /-- `OPA` as latched when the command was accepted (10_state.md R101, R102). -/
  latA : Word
  /-- `OPB` as latched when the command was accepted. -/
  latB : Word
  /-- `RES0` (10_state.md R103). -/
  res0 : Word
  /-- `RES1` (10_state.md R103). -/
  res1 : Word
  /-- `STATUS.ST` (10_state.md R104). -/
  st : Status
  /-- `STATUS.END`. -/
  endFlag : Bool
  /-- `STATUS.BUSY`. -/
  busy : Bool
  /-- `STATUS.OVR`. -/
  ovr : Bool
  /-- The payload store. -/
  payload : Payload
  /-- The chunk header. -/
  header : Header
  /-- The compressor context `A`. -/
  app : Appender
  /-- The decompressor contexts `D[0 .. N_DEC-1]`. -/
  dec : List DecCtx
  /-- Reset is asserted (70_reset_and_hazards.md R800). -/
  inReset : Bool
  /-- The host's coming actions, oldest first: the model's own field (notes/assumptions/1.md). -/
  host : List HostEvent
  /-- What the host's last register read returned: the model's own field (notes/assumptions/7.md). -/
  hostData : Word
deriving DecidableEq, Repr

/-- Why a step stops with a fault. No constructor: every error of the block is a status code and the block
goes on (60_exceptions.md R701, R730; 70_reset_and_hazards.md R820). Safe (notes/assumptions/18.md). -/
inductive Fault where
deriving DecidableEq, Repr

/-- Why a step is refused. -/
inductive Refusal where
  /-- Raised by an arm of `exec` whose command has no meaning yet; no arm raises it now. Safe. -/
  | notModelled (mnemonic : String)
  /-- Raised by `step` on a state whose configuration fails 00_scope.md R13 ("A model refuses a configuration
  that fails any of these checks"). Safe (notes/assumptions/4.md). -/
  | malformedConfiguration
deriving DecidableEq, Repr

/-- The empty payload store. -/
def Payload.empty : Payload := { mem := [], wlen := 0, wfill := 0 }

/-- The compressor context after reset (10_state.md R130). -/
def Appender.initial : Appender :=
  { valid := false, cnt := 0, pt := 0, pd := 0, pv := 0, wv := false, lz := 0, tz := 0 }

/-- A decompressor context after reset (10_state.md R130). -/
def DecCtx.initial : DecCtx :=
  { act := false, mode := .raw, n := 0, i := 0, cur := 0, pt := 0, pd := 0, pv := 0,
    wv := false, lz := 0, tz := 0 }

/-- The state after reset of an instance with configuration `c` (10_state.md R130, 70_reset_and_hazards.md
R800). The latched operands and `hostData` are DESIGN CHOICE 0, unsafe (notes/assumptions/6.md, 7.md). -/
def State.resetFor (c : Config) : State where
  cfg := c
  cmd := 0
  opa := 0
  opb := 0
  latA := 0
  latB := 0
  res0 := 0
  res1 := 0
  st := .ok
  endFlag := false
  busy := false
  ovr := false
  payload := Payload.empty
  header := { hdr := 0, hlen := 0 }
  app := Appender.initial
  dec := List.replicate c.nDec DecCtx.initial
  inReset := false
  host := []
  hostData := 0

/-- The state right after reset of an instance with the parameters the spec takes (00_scope.md R10). -/
def State.reset : State := State.resetFor Config.standard

end Sys2Proof.Machine
end

