-- ==== Sys2Proof/Machine/Assembler.lean ====
section
/-! DEFINITION. Assembler statements and pseudo-instructions as the host sequences they stand for
(30_encoding.md R310, R311). The text form is not modelled (notes/assumptions/16.md). -/

namespace Sys2Proof.Machine

/-- `MNEMONIC [n=] [ctx=] [a=] [b=]`: a command and the operand writes before it (30_encoding.md R310). -/
structure Statement where
  instr : Instr
  a : Option Word
  b : Option Word
deriving DecidableEq, Repr

/-- The host sequence of a statement: write `OPA` if `a=`, write `OPB` if `b=`, write `CMD`, wait
(30_encoding.md R310). -/
def Statement.events (t : Statement) : List HostEvent :=
  (t.a.map (HostEvent.write 1)).toList ++ (t.b.map (HostEvent.write 2)).toList ++
    [.write 0 ((encode t.instr).setWidth 64), .await]

/-- The pseudo-instructions (30_encoding.md R311). -/
inductive Pseudo where
  | append (t v : Word)
  | next (j : BitVec 4)
  | wbits (v : Word) (n : BitVec 7)
  | rbits (j : BitVec 4) (n : BitVec 7)
  | wf64 (v : Word)
  | loadimg (bytes : List Byte)
  | newchunk
deriving DecidableEq, Repr

/-- The expansion of a pseudo-instruction (30_encoding.md R311). -/
def Pseudo.expand : Pseudo → List Statement
  | .append t v => [{ instr := .appAppend, a := some t, b := some v }]
  | .next j => [{ instr := .iterNext j, a := none, b := none }]
  | .wbits v n => [{ instr := .bsWbits n, a := some v, b := none }]
  | .rbits j n => [{ instr := .bsRbits n j, a := none, b := none }]
  | .wf64 v => [{ instr := .bsWbits 64, a := some v, b := none }]
  | .loadimg bytes =>
    { instr := .clear, a := none, b := none } ::
      bytes.map fun x => { instr := .chLoadb, a := some (x.setWidth 64), b := none }
  | .newchunk => [{ instr := .appInit, a := none, b := none }]

/-- The host sequence of a program of statements. -/
def programEvents (p : List Statement) : List HostEvent := p.flatMap Statement.events

end Sys2Proof.Machine
end

