-- ==== Sys2Proof/Machine/Flags.lean ====
section
/-! DEFINITION. The flags of the block, all of them fields of `STATUS` (10_state.md R104, R115), their
numbers (60_exceptions.md R700), and the posting of a command's completion (30_encoding.md R306). -/

namespace Sys2Proof.Machine

/-- The number of a status code (60_exceptions.md R700). -/
def Status.code : Status → BitVec 4
  | .ok => 0
  | .outOfOrder => 1
  | .truncated => 2
  | .overflow => 3
  | .limitExceeded => 4
  | .illegalCommand => 8
  | .noContext => 9
  | .malformed => 10
  | .capacityExceeded => 11
  | .badIndex => 12
  | .noChunk => 13

/-- The `STATUS` register as the host reads it (10_state.md R104): `ST` 3:0, `END` 4, `BUSY` 5, `OVR` 6,
the rest 0. -/
def State.statusWord (s : State) : Word :=
  0#57 ++ BitVec.ofBool s.ovr ++ BitVec.ofBool s.busy ++ BitVec.ofBool s.endFlag ++ s.st.code

/-- `post(st, r0, r1, end)` (30_encoding.md R306): status and results in one step, then `BUSY` 0. -/
def State.post (s : State) (st : Status) (r0 r1 : Word) (endFlag : Bool) : State :=
  { s with st := st, res0 := r0, res1 := r1, endFlag := endFlag, busy := false }

/-- The host's write of `STATUS`: bit 6 clears `OVR`, nothing else has an effect (10_state.md R105). -/
def State.writeStatus (s : State) (v : Word) : State :=
  { s with ovr := s.ovr && !v.getLsbD 6 }

end Sys2Proof.Machine
end

