-- ==== Sys2Proof/Machine/Ops.lean ====
section
/-! DEFINITION. The shared operations: payload bytes and bits (20_memory.md R201 to R205), the stream
primitives `PutBits` and `GetBits` (41_bitstream.md R420, R421), header bytes (20_memory.md R211),
contexts (41_bitstream.md R427), raising an error (60_exceptions.md R710, R712: the block's way of taking
an exception; there is none to return from, R731), and the completion of a command (30_encoding.md R305). -/

namespace Sys2Proof.Machine

/-! ### Payload bytes -/

/-- What an unlisted payload byte reads as: bytes at or above `WLEN` hold no value and no command reads
them (10_state.md R110, 93 I27). DESIGN CHOICE, unsafe (notes/assumptions/5.md). -/
def Memory.unlisted : Byte := 0

/-- The byte at index `a`. -/
def Memory.read : Memory → Nat → Byte
  | [], _ => Memory.unlisted
  | (b, v) :: rest, a => if a = b then v else Memory.read rest a

/-- Writing byte `v` at index `a`, keeping the canonical form. -/
def Memory.write : Memory → Nat → Byte → Memory
  | [], a, v => if v = Memory.unlisted then [] else [(a, v)]
  | (b, w) :: rest, a, v =>
    if a < b then
      if v = Memory.unlisted then (b, w) :: rest else (a, v) :: (b, w) :: rest
    else if a = b then
      if v = Memory.unlisted then rest else (a, v) :: rest
    else (b, w) :: Memory.write rest a v

/-- The canonical form: indices strictly rising, and no cell holds what an unlisted index reads as. -/
abbrev Memory.wf (m : Memory) : Prop :=
  m.Pairwise (fun x y => x.1 < y.1) ∧ ∀ c ∈ m, c.2 ≠ Memory.unlisted

/-- Byte `v` with its bit `i` set to `b`. -/
def setBit (v : Byte) (i : Nat) (b : Bool) : Byte :=
  if b then v ||| (1#8 <<< i) else v &&& ~~~(1#8 <<< i)

/-! ### The payload bit stream -/

/-- `VB`, the number of valid payload bits (10_state.md R111). -/
def Payload.vb (p : Payload) : Nat :=
  if p.wlen = 0 then 0 else 8 * (p.wlen - 1) + p.wfill

/-- Stream bit `q` (10_state.md R111, 20_memory.md R201). -/
def Payload.streamBit (p : Payload) (q : Nat) : Bool :=
  (p.mem.read (q / 8)).getLsbD (7 - q % 8)

/-- `PayloadByte(i)` (20_memory.md R204); its callers have checked `i < WLEN`. -/
def Payload.byte (p : Payload) (i : Nat) : Byte := p.mem.read i

/-- The new byte that the commit opens when the last one is full (20_memory.md R202). -/
def Payload.openByte (p : Payload) : Payload :=
  if p.wlen = 0 ∨ p.wfill = 8 then
    { mem := p.mem.write p.wlen 0, wlen := p.wlen + 1, wfill := 0 }
  else p

/-- The commit of one bit of `OUT` (20_memory.md R202). -/
def Payload.appendBit (p : Payload) (b : Bool) : Payload :=
  let o := p.openByte
  { o with
    mem := o.mem.write (o.wlen - 1) (setBit (o.mem.read (o.wlen - 1)) (7 - o.wfill) b)
    wfill := o.wfill + 1 }

/-- The commit of `OUT`, first bit to last (20_memory.md R202). -/
def Payload.append (p : Payload) (out : List Bool) : Payload := out.foldl Payload.appendBit p

/-- `PutBits(v, n)`: the `n` least significant bits of `v`, most significant first, for appending to
`OUT` (41_bitstream.md R420). -/
def putBits (v : Word) : Nat → List Bool
  | 0 => []
  | n + 1 => v.getLsbD n :: putBits v n

/-- The `n` stream bits from position `q`, shifted one by one into `r` (41_bitstream.md R421). -/
def Payload.readBits (p : Payload) : Nat → Nat → Word → Word
  | _, 0, r => r
  | q, n + 1, r => Payload.readBits p (q + 1) n ((r <<< 1) ||| (BitVec.ofBool (p.streamBit q)).setWidth 64)

/-- `GetBits(j, n)` on a context whose pending cursor is `cur`: the value and the cursor after it, or
`Truncated` (41_bitstream.md R421, 20_memory.md R205). -/
def Payload.getBits (p : Payload) (cur n : Nat) : Except Status (Word × Nat) :=
  if cur + n > p.vb then .error .truncated else .ok (p.readBits cur n 0, cur + n)

/-! ### Header bytes and the chunk image -/

/-- The lowest bit of header byte `H[h]` in `HDR` (20_memory.md R211). -/
def headerBit (c : Config) (h : Nat) : Nat :=
  match c.hdrOrder with
  | .le => 8 * h
  | .be => 8 * (c.hdrBytes - 1 - h)

/-- Header byte `H[h]` (20_memory.md R211). -/
def headerByte (c : Config) (hdr : Word) (h : Nat) : Byte := hdr.extractLsb' (headerBit c h) 8

/-- `HDR` with header byte `H[h]` set to `b` (46_chunk_image.md R600, 20_memory.md R211). -/
def setHeaderByte (c : Config) (hdr : Word) (h : Nat) (b : Byte) : Word :=
  (hdr &&& ~~~((0xFF#64) <<< headerBit c h)) ||| ((b.setWidth 64) <<< headerBit c h)

/-- The chunk image: the header bytes present, then the payload bytes (20_memory.md R210). -/
def State.image (s : State) : List Byte :=
  (List.range s.header.hlen).map (headerByte s.cfg s.header.hdr) ++
    (List.range s.payload.wlen).map s.payload.byte

/-! ### Decompressor contexts -/

/-- `D[j]`; a closed context at an index the instance does not have (notes/assumptions/13.md). -/
def State.ctx (s : State) (j : BitVec 4) : DecCtx := s.dec.getD j.toNat DecCtx.initial

/-- `D[j] <- c`. -/
def State.setCtx (s : State) (j : BitVec 4) (c : DecCtx) : State := { s with dec := s.dec.set j.toNat c }

/-- `D[j].ACT <- 0` (60_exceptions.md R712). -/
def State.closeCtx (s : State) (j : BitVec 4) : State := s.setCtx j { s.ctx j with act := false }

/-- `for every j: D[j].ACT <- 0` (40_control.md R401, 44_appender.md R520). -/
def State.closeAll (s : State) : State := { s with dec := s.dec.map fun c => { c with act := false } }

/-- `need(j)`: the context, which must be open (41_bitstream.md R427). -/
def State.need (s : State) (j : BitVec 4) : Except Status DecCtx :=
  if (s.ctx j).act then .ok (s.ctx j) else .error .noContext

/-! ### Commands as transactions -/

/-- What a command that does not raise hands to its completion: the pending state, the pending bit list
`OUT`, the results and `END` (00_scope.md R24, 30_encoding.md R305). -/
structure Done where
  pending : State
  out : List Bool
  res0 : Word
  res1 : Word
  endFlag : Bool
deriving DecidableEq, Repr

/-- `return (r0, r1)` of a command that appends nothing. -/
def returns (pending : State) (r0 r1 : Word) : Except Status Done :=
  .ok { pending := pending, out := [], res0 := r0, res1 := r1, endFlag := false }

/-- `return written()`: `RES0` = |OUT| and `RES1` = `VB` after the commit (41_bitstream.md R426). -/
def written (pending : State) (out : List Bool) : Except Status Done :=
  .ok { pending := pending, out := out, res0 := BitVec.ofNat 64 out.length
        res1 := BitVec.ofNat 64 (pending.payload.append out).vb, endFlag := false }

/-- The decode verdict's check of `N` (30_encoding.md R303, check 3, first of R305's steps). -/
def countWithin (n : BitVec 7) (most : Nat) : Except Status Unit :=
  if n.toNat ≤ most then .ok () else .error .illegalCommand

/-- The decode verdict's check of `CTX` (30_encoding.md R303, check 4). -/
def State.ctxWithin (s : State) (j : BitVec 4) : Except Status Unit :=
  if j.toNat < s.cfg.nDec then .ok () else .error .illegalCommand

/-- The context an error closes: `ITER_INIT` and `ITER_NEXT` close theirs on every error but
`IllegalCommand`, no other command closes one (60_exceptions.md R712, 41_bitstream.md R435). -/
def State.afterError (s : State) (closes : Option (BitVec 4)) (e : Status) : State :=
  match closes with
  | none => s
  | some j => if e = .illegalCommand then s else s.closeCtx j

/-- `raise E` (60_exceptions.md R710): the pending state and `OUT` are gone, R712 is applied, and
`post(E, 0, 0, 0)`. -/
def State.raise (s : State) (closes : Option (BitVec 4)) (e : Status) : State :=
  (s.afterError closes e).post e 0 0 false

/-- The capacity check (20_memory.md R203). An empty `OUT` always fits (notes/assumptions/10.md). -/
def State.fits (s : State) (out : List Bool) : Bool :=
  out.isEmpty ||
    match s.cfg.payloadCap with
    | none => true
    | some cap => decide (s.payload.vb + out.length ≤ 8 * cap)

/-- The end of a command (30_encoding.md R305): an error raised, or the capacity check, the commit of the
pending state, the append of `OUT` and the post. -/
def State.complete (s : State) (closes : Option (BitVec 4)) (r : Except Status Done) : State :=
  match r with
  | .error e => s.raise closes e
  | .ok d =>
    if d.pending.fits d.out then
      { d.pending with payload := d.pending.payload.append d.out }.post .ok d.res0 d.res1 d.endFlag
    else s.raise closes .capacityExceeded

/-- A command as a step's outcome: every command completes with a next state (70_reset_and_hazards.md R820). -/
def State.run (s : State) (closes : Option (BitVec 4)) (r : Except Status Done) :
    Host.Outcome State Fault Refusal :=
  .next (s.complete closes r)

end Sys2Proof.Machine
end

