-- ==== Sys2Proof/Machine/Operands.lean ====
section
/-! DEFINITION. The operand forms (30_encoding.md R304): what a command reads of the latched `OPA` and
`OPB`. Bits a command does not read are ignored. -/

namespace Sys2Proof.Machine

/-- `OPA[0]`, as the low bit of a bit group (`BS_WBIT`). -/
def State.operandBit (s : State) : Word := (s.latA.extractLsb' 0 1).setWidth 64

/-- `OPA[7:0]` (`BS_WBYTE`, `CH_LOADB`). -/
def State.operandByte (s : State) : Byte := s.latA.extractLsb' 0 8

/-- `OPA` as a bit group, whose low `N` bits are used (`BS_WBITS`). -/
def State.operandGroup (s : State) : Word := s.latA

/-- Byte `i` of the `n` bytes in `OPA[8n-1:0]`, byte 0 the most significant (41_bitstream.md R425). -/
def State.operandByteAt (s : State) (n i : Nat) : Byte := s.latA.extractLsb' (8 * (n - i) - 8) 8

/-- `OPA` as a byte index or start bit (`BS_RDBYTE`, `CH_RDB`, `RD_OPEN`). -/
def State.operandIndex (s : State) : Nat := s.latA.toNat

/-- `OPA` as a 64-bit value, `u64` or `i64` (`UV_ENC`, `VB_*`, `ZZ_*`, the timestamp of `APP_APPEND`). -/
def State.operandValue (s : State) : Word := s.latA

/-- `OPB` as a value bit pattern (`APP_APPEND`). -/
def State.operandPattern (s : State) : Word := s.latB

end Sys2Proof.Machine
end

