-- ==== Sys2Proof/Machine/BitStream.lean ====
section
/-! DEFINITION. The bit-stream unit (41_bitstream.md). -/

namespace Sys2Proof.Machine

/-! ### Write commands -/

/-- `BS_WBIT` (41_bitstream.md R422). -/
def execBsWbit (s : State) : Host.Outcome State Fault Refusal :=
  s.run none (written s (putBits s.operandBit 1))

/-- `BS_WBITS` (41_bitstream.md R423). -/
def execBsWbits (n : BitVec 7) (s : State) : Host.Outcome State Fault Refusal :=
  s.run none do
    countWithin n 64
    written s (putBits s.operandGroup n.toNat)

/-- `BS_WBYTE` (41_bitstream.md R424). -/
def execBsWbyte (s : State) : Host.Outcome State Fault Refusal :=
  s.run none (written s (putBits (s.operandByte.setWidth 64) 8))

/-- The bits of the `n` bytes of `OPA`, first byte first (41_bitstream.md R425). -/
def State.operandBytesBits (s : State) (n : Nat) : List Bool :=
  (List.range n).flatMap fun i => putBits ((s.operandByteAt n i).setWidth 64) 8

/-- `BS_WBYTES` (41_bitstream.md R425). -/
def execBsWbytes (n : BitVec 7) (s : State) : Host.Outcome State Fault Refusal :=
  s.run none do
    countWithin n 8
    written s (s.operandBytesBits n.toNat)

/-! ### Store inspection -/

/-- `BS_LEN` (41_bitstream.md R428). -/
def execBsLen (s : State) : Host.Outcome State Fault Refusal :=
  s.run none (returns s (BitVec.ofNat 64 s.payload.wlen) (BitVec.ofNat 64 s.payload.wfill))

/-- `BS_RDBYTE` (41_bitstream.md R429). -/
def execBsRdbyte (s : State) : Host.Outcome State Fault Refusal :=
  s.run none <|
    if s.operandIndex ≥ s.payload.wlen then .error .badIndex
    else returns s ((s.payload.byte s.operandIndex).setWidth 64) 0

/-! ### Readers -/

/-- The context `RD_OPEN` opens at bit `q` (41_bitstream.md R430). -/
def DecCtx.openRaw (q : Nat) : DecCtx :=
  { act := true, mode := .raw, n := 0, i := 0, cur := q, pt := 0, pd := 0, pv := 0,
    wv := false, lz := 0, tz := 0 }

/-- `RD_OPEN` (41_bitstream.md R430). -/
def execRdOpen (j : BitVec 4) (s : State) : Host.Outcome State Fault Refusal :=
  s.run none do
    s.ctxWithin j
    if s.operandIndex > s.payload.vb then .error .badIndex
    else returns (s.setCtx j (DecCtx.openRaw s.operandIndex)) s.latA (BitVec.ofNat 64 s.payload.vb)

/-- `RD_POS` (41_bitstream.md R431). -/
def execRdPos (j : BitVec 4) (s : State) : Host.Outcome State Fault Refusal :=
  s.run none do
    s.ctxWithin j
    let c ← s.need j
    returns s (BitVec.ofNat 64 c.cur) (BitVec.ofNat 64 s.payload.vb)

/-- What every raw reader returns: the value and the cursor after it, with `D[j].CUR` moved there
(41_bitstream.md R432 to R434, 42_uvarint.md R465, 43_varbit.md R492, R493). -/
def State.readDone (s : State) (j : BitVec 4) (c : DecCtx) (v : Word) (cur : Nat) : Except Status Done :=
  returns (s.setCtx j { c with cur := cur }) v (BitVec.ofNat 64 cur)

/-- `need(j)` and `GetBits(j, n)` (41_bitstream.md R432 to R434). -/
def State.rawRead (s : State) (j : BitVec 4) (n : Nat) : Except Status Done := do
  s.ctxWithin j
  let c ← s.need j
  let (v, cur) ← s.payload.getBits c.cur n
  s.readDone j c v cur

/-- `BS_RBIT` (41_bitstream.md R432). -/
def execBsRbit (j : BitVec 4) (s : State) : Host.Outcome State Fault Refusal :=
  s.run none (s.rawRead j 1)

/-- `BS_RBITS` (41_bitstream.md R433). -/
def execBsRbits (n : BitVec 7) (j : BitVec 4) (s : State) : Host.Outcome State Fault Refusal :=
  s.run none do
    countWithin n 64
    s.rawRead j n.toNat

/-- `BS_RBYTE` (41_bitstream.md R434). -/
def execBsRbyte (j : BitVec 4) (s : State) : Host.Outcome State Fault Refusal :=
  s.run none (s.rawRead j 8)

end Sys2Proof.Machine
end

