-- ==== Sys2Proof/Machine/Varbit.lean ====
section
/-! DEFINITION. The varbit integer unit (43_varbit.md). -/

namespace Sys2Proof.Machine

/-- `zz(n) = (n << 1) XOR (n >>ₐ 63)` (43_varbit.md R481). -/
def zz (n : Word) : Word := (n <<< 1) ^^^ n.sshiftRight 63

/-- `unzz(m) = (m >> 1) XOR (0 - (m AND 1))` (43_varbit.md R481). -/
def unzz (m : Word) : Word := (m >>> 1) ^^^ (0 - (m &&& 1))

/-- `Sel(m)`, the smallest `k` with `m < 2^W[k]` (43_varbit.md R483). A well-formed table always has one. -/
def sel (c : Config) (m : Word) : Nat := c.widths.findIdx fun w => decide (m.toNat < 2 ^ w)

/-- `PrefixLen(k)` (43_varbit.md R484). -/
def prefixLen (c : Config) (k : Nat) : Nat := if k < c.esc then k + 1 else c.k - 1

/-- `EncLen(k)` (43_varbit.md R484). -/
def encLen (c : Config) (k : Nat) : Nat := prefixLen c k + c.width k

/-- The prefix code of bucket `k` (43_varbit.md R482, R485). -/
def prefixBits (c : Config) (k : Nat) : List Bool :=
  if k < c.esc then putBits (BitVec.ofNat 64 (2 ^ (k + 1) - 2)) (k + 1)
  else putBits (BitVec.ofNat 64 (2 ^ (c.k - 1) - 1)) (c.k - 1)

/-- `VarbitPut(m, k)` (43_varbit.md R485). -/
def varbitPut (c : Config) (m : Word) (k : Nat) : List Bool := prefixBits c k ++ putBits m (c.width k)

/-- `VarbitPutSel(m)` (43_varbit.md R485). -/
def varbitPutSel (c : Config) (m : Word) : List Bool := varbitPut c m (sel c m)

/-- The prefix loop of `VarbitGet` from bucket `k`, `fuel` prefix bits at most to come
(43_varbit.md R487): the bucket and the cursor after its prefix. -/
def varbitBucket (p : Payload) : Nat → Nat → Nat → Except Status (Nat × Nat)
  | 0, k, cur => .ok (k, cur)
  | fuel + 1, k, cur => do
    let (b, cur) ← p.getBits cur 1
    if b = 0 then .ok (k, cur) else varbitBucket p fuel (k + 1) cur

/-- `VarbitGet(j)` at cursor `cur`: the magnitude and the cursor after it (43_varbit.md R487). -/
def varbitGet (c : Config) (p : Payload) (cur : Nat) : Except Status (Word × Nat) := do
  let (k, cur) ← varbitBucket p c.esc 0 cur
  p.getBits cur (c.width k)

/-- `VB_ENC_U` (43_varbit.md R490). -/
def execVbEncU (s : State) : Host.Outcome State Fault Refusal :=
  s.run none (written s (varbitPutSel s.cfg s.operandValue))

/-- `VB_ENC_S` (43_varbit.md R491). -/
def execVbEncS (s : State) : Host.Outcome State Fault Refusal :=
  s.run none (written s (varbitPutSel s.cfg (zz s.operandValue)))

/-- `VB_DEC_U` (43_varbit.md R492). -/
def execVbDecU (j : BitVec 4) (s : State) : Host.Outcome State Fault Refusal :=
  s.run none do
    s.ctxWithin j
    let c ← s.need j
    let (m, cur) ← varbitGet s.cfg s.payload c.cur
    s.readDone j c m cur

/-- `VB_DEC_S` (43_varbit.md R493). -/
def execVbDecS (j : BitVec 4) (s : State) : Host.Outcome State Fault Refusal :=
  s.run none do
    s.ctxWithin j
    let c ← s.need j
    let (m, cur) ← varbitGet s.cfg s.payload c.cur
    s.readDone j c (unzz m) cur

/-- `(k, EncLen(k))` for the bucket of `m` (43_varbit.md R494, R495). -/
def State.selection (s : State) (m : Word) : Except Status Done :=
  returns s (BitVec.ofNat 64 (sel s.cfg m)) (BitVec.ofNat 64 (encLen s.cfg (sel s.cfg m)))

/-- `VB_SEL_U` (43_varbit.md R494). -/
def execVbSelU (s : State) : Host.Outcome State Fault Refusal := s.run none (s.selection s.operandValue)

/-- `VB_SEL_S` (43_varbit.md R495). -/
def execVbSelS (s : State) : Host.Outcome State Fault Refusal := s.run none (s.selection (zz s.operandValue))

/-- `ZZ_MAP` (43_varbit.md R496). -/
def execZzMap (s : State) : Host.Outcome State Fault Refusal := s.run none (returns s (zz s.operandValue) 0)

/-- `ZZ_UNMAP` (43_varbit.md R497). -/
def execZzUnmap (s : State) : Host.Outcome State Fault Refusal :=
  s.run none (returns s (unzz s.operandValue) 0)

end Sys2Proof.Machine
end

