-- ==== Sys2Proof/Machine/Chunk.lean ====
section
/-! DEFINITION. The sample-chunk unit: the compressor (44_appender.md), the decompressor (45_iterator.md)
and the chunk image (46_chunk_image.md). -/

namespace Sys2Proof.Machine

/-! ### Counting zeros (00_scope.md R21) -/

/-- The zero bits of `x` from bit `n-1` down to its highest set bit. -/
def leadingZerosFrom (x : Word) : Nat → Nat
  | 0 => 0
  | n + 1 => if x.getLsbD n then 0 else leadingZerosFrom x n + 1

/-- `clz64(x)`, for a non-zero `x`. -/
def clz64 (x : Word) : Nat := leadingZerosFrom x 64

/-- The zero bits of `x` from bit `i` up to its lowest set bit, `n` bits at most. -/
def trailingZerosFrom (x : Word) : Nat → Nat → Nat
  | 0, _ => 0
  | n + 1, i => if x.getLsbD i then 0 else trailingZerosFrom x n (i + 1) + 1

/-- `ctz64(x)`, for a non-zero `x`. -/
def ctz64 (x : Word) : Nat := trailingZerosFrom x 64 0

/-! ### The compressor -/

/-- The compressor context of a new chunk (44_appender.md R520). -/
def Appender.begun : Appender := { Appender.initial with valid := true }

/-- `APP_INIT` (44_appender.md R520). -/
def execAppInit (s : State) : Host.Outcome State Fault Refusal :=
  s.run none <|
    returns
      { s.closeAll with
        payload := Payload.empty, header := { hdr := 0, hlen := s.cfg.hdrBytes }, app := Appender.begun }
      0 0

/-- The window of `A` still covers `x` (44_appender.md R530). -/
def Appender.covers (a : Appender) (x : Word) : Bool :=
  a.wv && decide (a.lz.toNat ≤ clz64 x) && decide (a.tz.toNat ≤ ctz64 x)

/-- `ValuePut(v)` (44_appender.md R530, with the two clamps of R532): its bits, and `A` with its window and
`A.PV` updated. -/
def valuePut (c : Config) (a : Appender) (v : Word) : List Bool × Appender :=
  let x := v ^^^ a.pv
  if x = 0 then (putBits 0 1, { a with pv := v })
  else if a.covers x then
    (putBits 1 1 ++ putBits 0 1 ++ putBits (x >>> a.tz.toNat) (64 - a.lz.toNat - a.tz.toNat),
      { a with pv := v })
  else
    let tz := ctz64 x
    let lzc := min (clz64 x) c.lzMax
    let mb := 64 - lzc - tz
    (putBits 1 1 ++ putBits 1 1 ++ putBits (BitVec.ofNat 64 lzc) c.lzBits ++
        putBits (BitVec.ofNat 64 (mb % 2 ^ c.mbBits)) c.mbBits ++ putBits (x >>> tz) mb,
      { a with pv := v, wv := true, lz := BitVec.ofNat 6 lzc, tz := BitVec.ofNat 6 tz })

/-- The first timestamp's bits (44_appender.md R526). -/
def firstTsBits (c : Config) (t : Word) : List Bool :=
  match c.firstTs with
  | .select => varbitPutSel c (zz t)
  | .escape => varbitPut c (zz t) c.esc

/-- The encoding of one sample after the checks of 44_appender.md R525: its bits, and `A` with every field
but `A.CNT` updated (R526 to R530). -/
def encodeSample (c : Config) (a : Appender) (t v : Word) : List Bool × Appender :=
  if a.cnt = 0 then
    (firstTsBits c t ++ putBits v 64, { a with pt := t, pd := 0, pv := v, wv := false })
  else
    let d := t - a.pt
    let ts := varbitPutSel c (zz (if a.cnt = 1 then d else d - a.pd))
    let (bits, a') := valuePut c a v
    (ts ++ bits, { a' with pd := d, pt := t })

/-- The checks of `APP_APPEND` in their order (44_appender.md R525, R524; 60_exceptions.md R720). -/
def State.appendable (s : State) (t : Word) : Except Status Unit :=
  if !s.app.valid then .error .noChunk
  else if s.app.cnt.toNat = s.cfg.maxSamples then .error .limitExceeded
  else if s.app.cnt ≠ 0 ∧ t.sle s.app.pt then .error .outOfOrder
  else .ok ()

/-- `APP_APPEND` (44_appender.md R525). -/
def execAppAppend (s : State) : Host.Outcome State Fault Refusal :=
  s.run none do
    s.appendable s.operandValue
    let (bits, a) := encodeSample s.cfg s.app s.operandValue s.operandPattern
    let cnt := s.app.cnt + 1
    written { s with app := { a with cnt := cnt }, header := { s.header with hdr := cnt } } bits

/-! ### The decompressor -/

/-- The context `ITER_INIT` opens on a chunk of `n` samples (45_iterator.md R560). -/
def DecCtx.openIter (n : Word) : DecCtx :=
  { act := true, mode := .iter, n := n, i := 0, cur := 0, pt := 0, pd := 0, pv := 0,
    wv := false, lz := 0, tz := 0 }

/-- `ITER_INIT` (45_iterator.md R560). -/
def execIterInit (j : BitVec 4) (s : State) : Host.Outcome State Fault Refusal :=
  s.run (some j) do
    s.ctxWithin j
    if s.header.hlen < s.cfg.hdrBytes then .error .truncated
    else returns (s.setCtx j (DecCtx.openIter s.header.hdr)) s.header.hdr 0

/-- The new-window branch `1 1` of `ValueGet`, after its control bits (45_iterator.md R570, R571): the XOR,
and the context with its window and cursor updated. -/
def newWindowGet (c : Config) (p : Payload) (d : DecCtx) (cur : Nat) : Except Status (Word × DecCtx) := do
  let (lz, cur) ← p.getBits cur c.lzBits
  let (f, cur) ← p.getBits cur c.mbBits
  let mb := if f = 0 then 64 else f.toNat
  if lz.toNat + mb > 64 then .error .malformed
  else
    let tz := 64 - lz.toNat - mb
    let (x, cur) ← p.getBits cur mb
    .ok (x <<< tz, { d with cur := cur, wv := true, lz := BitVec.ofNat 6 lz.toNat, tz := BitVec.ofNat 6 tz })

/-- The reuse branch `1 0` of `ValueGet`, after its control bits (45_iterator.md R570, R571 (a)). -/
def reuseGet (p : Payload) (d : DecCtx) (cur : Nat) : Except Status (Word × DecCtx) :=
  if !d.wv then .error .malformed
  else do
    let (x, cur) ← p.getBits cur (64 - d.lz.toNat - d.tz.toNat)
    .ok (x <<< d.tz.toNat, { d with cur := cur })

/-- The XOR that `ValueGet` reads at cursor `cur`, and the context with window and cursor updated
(45_iterator.md R570). -/
def xorGet (c : Config) (p : Payload) (d : DecCtx) (cur : Nat) : Except Status (Word × DecCtx) := do
  let (b, cur) ← p.getBits cur 1
  if b = 0 then .ok (0, { d with cur := cur })
  else
    let (b', cur) ← p.getBits cur 1
    if b' = 0 then reuseGet p d cur else newWindowGet c p d cur

/-- `ValueGet(j)` at cursor `cur`: the context with `D[j].PV`, window and cursor updated
(45_iterator.md R570). The value is its `PV`. -/
def valueGet (c : Config) (p : Payload) (d : DecCtx) (cur : Nat) : Except Status DecCtx := do
  let (x, d') ← xorGet c p d cur
  .ok { d' with pv := d'.pv ^^^ x }

/-- The next sample of a context whose count is not reached (45_iterator.md R561, R563 to R565): the
context after it. The sample is its `PT` and `PV`. -/
def decodeSample (c : Config) (p : Payload) (d : DecCtx) : Except Status DecCtx := do
  let (m, cur) ← varbitGet c p d.cur
  if d.i = 0 then
    let (v, cur) ← p.getBits cur 64
    .ok { d with cur := cur, i := d.i + 1, pt := unzz m, pd := 0, pv := v, wv := false }
  else
    let e := unzz m
    let delta := if d.i = 1 then e else d.pd + e
    let d' ← valueGet c p d cur
    .ok { d' with i := d.i + 1, pd := delta, pt := d.pt + delta }

/-- `END`: no bits read, no state changed (45_iterator.md R562). -/
def State.endOfSequence (s : State) : Except Status Done :=
  .ok { pending := s, out := [], res0 := 0, res1 := 0, endFlag := true }

/-- `ITER_NEXT` (45_iterator.md R561). -/
def execIterNext (j : BitVec 4) (s : State) : Host.Outcome State Fault Refusal :=
  s.run (some j) do
    s.ctxWithin j
    let d ← s.need j
    if d.mode ≠ .iter then .error .noContext
    else if d.i = d.n then s.endOfSequence
    else
      let d' ← decodeSample s.cfg s.payload d
      returns (s.setCtx j d') d'.pt d'.pv

/-! ### The chunk image -/

/-- The compressor no longer owns the chunk (46_chunk_image.md R600). -/
def State.disowned (s : State) : State := { s with app := { s.app with valid := false } }

/-- `CH_LOADB` (46_chunk_image.md R600). -/
def execChLoadb (s : State) : Host.Outcome State Fault Refusal :=
  s.run none <|
    if s.payload.wlen = 0 ∧ s.header.hlen < s.cfg.hdrBytes then
      written
        { s.disowned with
          header := { hdr := setHeaderByte s.cfg s.header.hdr s.header.hlen s.operandByte
                      hlen := s.header.hlen + 1 } } []
    else written s.disowned (putBits (s.operandByte.setWidth 64) 8)

/-- `CH_LEN` (46_chunk_image.md R601). -/
def execChLen (s : State) : Host.Outcome State Fault Refusal :=
  s.run none <|
    returns s (BitVec.ofNat 64 (s.header.hlen + s.payload.wlen)) (BitVec.ofNat 64 s.header.hlen)

/-- `CH_RDB` (46_chunk_image.md R602). -/
def execChRdb (s : State) : Host.Outcome State Fault Refusal :=
  s.run none <|
    if s.operandIndex < s.header.hlen then
      returns s ((headerByte s.cfg s.header.hdr s.operandIndex).setWidth 64) 0
    else if s.operandIndex < s.header.hlen + s.payload.wlen then
      returns s ((s.payload.byte (s.operandIndex - s.header.hlen)).setWidth 64) 0
    else .error .badIndex

end Sys2Proof.Machine
end

