-- ==== Sys2Proof/Machine/Control.lean ====
section
/-! DEFINITION. The control commands (40_control.md). -/

namespace Sys2Proof.Machine

/-- `NOP` (40_control.md R400). -/
def execNop (s : State) : Host.Outcome State Fault Refusal := s.run none (returns s 0 0)

/-- The state `CLEAR` commits (40_control.md R401): the closed contexts keep their other fields
(70_reset_and_hazards.md R801). -/
def State.cleared (s : State) : State :=
  { s.closeAll with
    payload := Payload.empty, header := { hdr := 0, hlen := 0 }, app := Appender.initial }

/-- `CLEAR` (40_control.md R401). -/
def execClear (s : State) : Host.Outcome State Fault Refusal := s.run none (returns s.cleared 0 0)

end Sys2Proof.Machine
end

