-- ==== Sys2Proof/Machine/Uvarint.lean ====
section
/-! DEFINITION. The unsigned varint codec (42_uvarint.md). -/

namespace Sys2Proof.Machine

/-- The repeat loop of `UvarintPut` with a bound on its turns (42_uvarint.md R460). -/
def uvarintPutFuel : Nat → Word → List Bool
  | 0, _ => []
  | fuel + 1, m =>
    let b : Byte := (m.extractLsb' 0 7).setWidth 8
    let rest := m >>> 7
    if rest = 0 then putBits (b.setWidth 64) 8
    else putBits ((b ||| 0x80).setWidth 64) 8 ++ uvarintPutFuel fuel rest

/-- `UvarintPut(m)` (42_uvarint.md R460); ten turns empty any 64-bit value. -/
def uvarintPut (m : Word) : List Bool := uvarintPutFuel 10 m

/-- The loop of `UvarintGet` from byte `i` with `r` gathered so far (42_uvarint.md R462). The bound runs
out only after the tenth byte, which returns or raises (R463). -/
def uvarintGetFuel (p : Payload) : Nat → Nat → Word → Nat → Except Status (Word × Nat)
  | 0, _, _, _ => .error .overflow
  | fuel + 1, i, r, cur => do
    let (b, cur) ← p.getBits cur 8
    if i = 9 ∧ b > 1 then .error .overflow
    else
      let r := r ||| ((b.extractLsb' 0 7).setWidth 64 <<< (7 * i))
      if b.getLsbD 7 then uvarintGetFuel p fuel (i + 1) r cur else .ok (r, cur)

/-- `UvarintGet(j)` at cursor `cur` (42_uvarint.md R462). -/
def uvarintGet (p : Payload) (cur : Nat) : Except Status (Word × Nat) := uvarintGetFuel p 10 0 0 cur

/-- `UV_ENC` (42_uvarint.md R464). -/
def execUvEnc (s : State) : Host.Outcome State Fault Refusal :=
  s.run none (written s (uvarintPut s.operandValue))

/-- `UV_DEC` (42_uvarint.md R465). -/
def execUvDec (j : BitVec 4) (s : State) : Host.Outcome State Fault Refusal :=
  s.run none do
    s.ctxWithin j
    let c ← s.need j
    let (m, cur) ← uvarintGet s.payload c.cur
    s.readDone j c m cur

end Sys2Proof.Machine
end

