-- ==== Sys2Proof/Machine/Dispatch.lean ====
section
/-! DEFINITION. One arm per command: the meaning of 30_encoding.md R305's "perform OP" with its completion. -/

namespace Sys2Proof.Machine

def exec (i : Instr) (s : State) : Host.Outcome State Fault Refusal :=
  match i with
  | .nop => Sys2Proof.Machine.execNop s
  | .clear => Sys2Proof.Machine.execClear s
  | .bsWbit => Sys2Proof.Machine.execBsWbit s
  | .bsWbits n => Sys2Proof.Machine.execBsWbits n s
  | .bsWbyte => Sys2Proof.Machine.execBsWbyte s
  | .bsWbytes n => Sys2Proof.Machine.execBsWbytes n s
  | .bsLen => Sys2Proof.Machine.execBsLen s
  | .bsRdbyte => Sys2Proof.Machine.execBsRdbyte s
  | .rdOpen j => Sys2Proof.Machine.execRdOpen j s
  | .rdPos j => Sys2Proof.Machine.execRdPos j s
  | .bsRbit j => Sys2Proof.Machine.execBsRbit j s
  | .bsRbits n j => Sys2Proof.Machine.execBsRbits n j s
  | .bsRbyte j => Sys2Proof.Machine.execBsRbyte j s
  | .uvEnc => Sys2Proof.Machine.execUvEnc s
  | .uvDec j => Sys2Proof.Machine.execUvDec j s
  | .vbEncU => Sys2Proof.Machine.execVbEncU s
  | .vbEncS => Sys2Proof.Machine.execVbEncS s
  | .vbDecU j => Sys2Proof.Machine.execVbDecU j s
  | .vbDecS j => Sys2Proof.Machine.execVbDecS j s
  | .vbSelU => Sys2Proof.Machine.execVbSelU s
  | .vbSelS => Sys2Proof.Machine.execVbSelS s
  | .zzMap => Sys2Proof.Machine.execZzMap s
  | .zzUnmap => Sys2Proof.Machine.execZzUnmap s
  | .appInit => Sys2Proof.Machine.execAppInit s
  | .appAppend => Sys2Proof.Machine.execAppAppend s
  | .iterInit j => Sys2Proof.Machine.execIterInit j s
  | .iterNext j => Sys2Proof.Machine.execIterNext j s
  | .chLoadb => Sys2Proof.Machine.execChLoadb s
  | .chLen => Sys2Proof.Machine.execChLen s
  | .chRdb => Sys2Proof.Machine.execChRdb s

end Sys2Proof.Machine
end

