-- ==== Sys2Proof/Machine/HostPort.lean ====
section
/-! DEFINITION. The host registers as the host reads and writes them (10_state.md R100 to R107), and the
reset line (70_reset_and_hazards.md R800). -/

namespace Sys2Proof.Machine

/-! ### The configuration registers (10_state.md R106) -/

/-- `CFG0`. -/
def cfg0 (c : Config) : Word :=
  0#32 ++ 0x01#8 ++ 0#1 ++ BitVec.ofNat 3 c.mbBits ++ 0#1 ++ BitVec.ofNat 3 c.lzBits ++
    BitVec.ofNat 4 (c.k - 1) ++ BitVec.ofNat 4 (c.nDec - 1) ++ 0#2 ++
    BitVec.ofBool (decide (c.firstTs = .escape)) ++ BitVec.ofBool (decide (c.hdrOrder = .be)) ++
    BitVec.ofNat 4 c.hdrBytes

/-- `CFG_MAXS`. -/
def cfgMaxs (c : Config) : Word := BitVec.ofNat 64 c.maxSamples

/-- `CFG_PCAP`; 0 for `UNBOUNDED` (notes/assumptions/9.md for a capacity of 2^64 bytes or more). -/
def cfgPcap (c : Config) : Word := BitVec.ofNat 64 (c.payloadCap.getD 0)

/-- The byte that reports bucket `k`: `W[k]`, or 0 for `k ≥ K`. -/
def bucketByte (c : Config) (k : Nat) : Byte := BitVec.ofNat 8 (c.widths.getD k 0)

/-- Eight bucket bytes from bucket `k`, bucket `k` in bits 7:0. -/
def bucketBytes (c : Config) (k : Nat) : Word :=
  bucketByte c (k + 7) ++ bucketByte c (k + 6) ++ bucketByte c (k + 5) ++ bucketByte c (k + 4) ++
    bucketByte c (k + 3) ++ bucketByte c (k + 2) ++ bucketByte c (k + 1) ++ bucketByte c k

/-- `CFG_BWLO`. -/
def cfgBwlo (c : Config) : Word := bucketBytes c 0

/-- `CFG_BWHI`. -/
def cfgBwhi (c : Config) : Word := bucketBytes c 8

/-! ### Register access (10_state.md R100) -/

/-- What a host read of register `index` returns: 0 while reset is asserted (70_reset_and_hazards.md R800). -/
def State.readReg (s : State) (index : BitVec 4) : Word :=
  if s.inReset then 0
  else
    match index.toNat with
    | 0 => s.cmd.setWidth 64
    | 1 => s.opa
    | 2 => s.opb
    | 3 => s.res0
    | 4 => s.res1
    | 5 => s.statusWord
    | 6 => cfg0 s.cfg
    | 7 => cfgMaxs s.cfg
    | 8 => cfgPcap s.cfg
    | 9 => cfgBwlo s.cfg
    | 10 => cfgBwhi s.cfg
    | _ => 0

/-- Acceptance of a command word: it and the operands are latched and `BUSY` is set (10_state.md R101). -/
def State.accept (s : State) (w : CmdWord) : State :=
  { s with cmd := w, latA := s.opa, latB := s.opb, busy := true }

/-- A host write of `CMD`: accepted while `BUSY` = 0, else dropped with `OVR` set (10_state.md R101,
70_reset_and_hazards.md R811). -/
def State.writeCmd (s : State) (v : Word) : State :=
  if s.busy then { s with ovr := true } else s.accept (v.setWidth 32)

/-- What a host write of register `index` does: nothing while reset is asserted (70_reset_and_hazards.md
R800), and nothing to a read-only or reserved register. -/
def State.writeReg (s : State) (index : BitVec 4) (v : Word) : State :=
  if s.inReset then s
  else
    match index.toNat with
    | 0 => s.writeCmd v
    | 1 => { s with opa := v }
    | 2 => { s with opb := v }
    | 5 => s.writeStatus v
    | _ => s

/-- Reset is asserted: a running command is abandoned and every piece of state of the block takes its
reset value; the configuration is unaffected (70_reset_and_hazards.md R800). What the host still has to do,
and what it read last, are the host's (notes/assumptions/8.md). -/
def State.assertReset (s : State) : State :=
  { State.resetFor s.cfg with inReset := true, host := s.host, hostData := s.hostData }

/-- Reset is released (70_reset_and_hazards.md R800). -/
def State.releaseReset (s : State) : State := { s with inReset := false }

/-- A register access or a change of the reset line. Waiting does nothing of its own: the step completes
a running command there. -/
def State.hostAct (s : State) : HostEvent → State
  | .write index v => s.writeReg index v
  | .read index => { s with hostData := s.readReg index }
  | .await => s
  | .resetOn => s.assertReset
  | .resetOff => s.releaseReset

end Sys2Proof.Machine
end

