-- ==== Sys2Proof/Machine/Command.lean ====
section
/-! DEFINITION. Running the accepted command word (30_encoding.md R305), one action of the machine, and the
placing of a command word for the next step. -/

namespace Sys2Proof.Machine

/-- The block runs the command word it accepted: the verdict, then the command. A word that fails the
verdict raises `IllegalCommand` and closes no context (30_encoding.md R303, 60_exceptions.md R712). -/
def State.runCommand (s : State) : Host.Outcome State Fault Refusal :=
  match decode s.cfg s.cmd with
  | .ok i => exec i s
  | .error _ => .next (s.raise none .illegalCommand)

/-- One action (notes/assumptions/1.md): with no host event left, or with the host waiting, a running command
completes (70_reset_and_hazards.md R820); otherwise the host's oldest event happens. With nothing to do
the block is idle and keeps all state (60_exceptions.md R739). -/
def State.advance (s : State) : Host.Outcome State Fault Refusal :=
  match s.host with
  | [] => if s.busy && !s.inReset then s.runCommand else .next s
  | .await :: rest =>
    if s.busy && !s.inReset then { s with host := rest }.runCommand else .next { s with host := rest }
  | e :: rest => .next ({ s with host := rest }.hostAct e)

/-- `s` just after the block accepted the command word `w`, with the host waiting for it to complete:
the state in which the next step runs `w` (notes/assumptions/2.md). -/
def State.placeCommand (s : State) (w : CmdWord) : State :=
  { s.accept w with inReset := false, host := .await :: s.host }

end Sys2Proof.Machine
end

