-- ==== Sys2Proof/Machine/Step.lean ====
section
/-! DEFINITION. The step, and the placing of an opcode-table word for the next step. -/

namespace Sys2Proof.Machine

/-- One step. A configuration that fails 00_scope.md R13 is refused; otherwise one action of the machine. -/
def step (s : State) : Host.Outcome State Fault Refusal :=
  if s.cfg.wf then s.advance else .refused .malformedConfiguration

/-- `s` with an opcode-table word placed where the next step runs it. -/
def State.withFetchWord (s : State) (nbits w : Nat) : State := s.placeCommand (tableWord nbits w)

end Sys2Proof.Machine
end

