-- ==== Sys2Proof/Safety.lean ====
section
/-! DEFINITION. The invariant of the block, and the words the statements are written in: the payload as a
list of bits, bit fields written out most significant bit first, the codes of the wire format, and runs of
appends and reads. Nothing the machine runs uses these definitions. -/

namespace Sys2Proof.Machine

/-! ### The invariant -/

/-- The store's invariant (10_state.md R110): canonical memory, `WLEN` = 0 exactly when `WFILL` = 0, `WFILL`
at most 8, no byte listed at or above `WLEN`, and the invalid low bits of the last byte 0. -/
abbrev Payload.wf (p : Payload) : Prop :=
  Memory.wf p.mem ∧ (p.wlen = 0 ↔ p.wfill = 0) ∧ p.wfill ≤ 8 ∧ (∀ c ∈ p.mem, c.1 < p.wlen) ∧
    p.mem.read (p.wlen - 1) <<< p.wfill = 0

/-- `n` more bits fit the store (20_memory.md R203). -/
abbrev State.hasRoom (s : State) (n : Nat) : Prop :=
  ∀ cap ∈ s.cfg.payloadCap, s.payload.vb + n ≤ 8 * cap

/-- The store is well formed and within its capacity (40_control.md R405 (e)). -/
abbrev State.storeWf (s : State) : Prop := s.payload.wf ∧ s.hasRoom 0

/-- The header's invariant (10_state.md R112). -/
abbrev Header.wf (c : Config) (h : Header) : Prop :=
  h.hlen ≤ c.hdrBytes ∧ h.hdr.toNat ≤ c.hdrMax ∧
    ∀ k < c.hdrBytes, h.hlen ≤ k → headerByte c h.hdr k = 0

/-- The compressor context's invariant (10_state.md R113; 44_appender.md R521, R523). -/
abbrev Appender.wf (c : Config) (h : Header) (a : Appender) : Prop :=
  a.cnt.toNat ≤ c.maxSamples ∧ (a.valid = true → h.hlen = c.hdrBytes ∧ h.hdr = a.cnt) ∧
    (a.wv = true → a.lz.toNat ≤ c.lzMax ∧ a.lz.toNat + a.tz.toNat < 64)

/-- A decompressor context's invariant over a store of `vb` bits (10_state.md R114; 41_bitstream.md R421). -/
abbrev DecCtx.wf (vb : Nat) (d : DecCtx) : Prop :=
  d.act = true → d.cur ≤ vb ∧ d.i.toNat ≤ d.n.toNat ∧ (d.wv = true → d.lz.toNat + d.tz.toNat < 64)

/-- The invariant of the machine. -/
abbrev State.Inv (s : State) : Prop :=
  s.cfg.wf ∧ s.storeWf ∧ s.header.wf s.cfg ∧ s.app.wf s.cfg s.header ∧
    s.dec.length = s.cfg.nDec ∧ (∀ d ∈ s.dec, d.wf s.payload.vb) ∧
    (s.inReset = true → s.busy = false)

/-! ### Bits -/

/-- The payload as a list of bits, first bit first. -/
def Payload.bits (p : Payload) : List Bool := (List.range p.vb).map p.streamBit

/-- The low `n` bits of `v`, most significant first. -/
def msbBits (v : Word) (n : Nat) : List Bool := (List.range n).map fun k => v.getLsbD (n - 1 - k)

/-- The stream holds the bits of `code` from position `cur`, all of them valid. -/
def Payload.codeAt (p : Payload) (cur : Nat) (code : List Bool) : Prop :=
  cur + code.length ≤ p.vb ∧ code = (List.range code.length).map fun k => p.streamBit (cur + k)

/-- Byte `i` of the byte sequence that starts at stream bit `cur`, as a number. -/
def Payload.byteAt (p : Payload) (cur i : Nat) : Nat :=
  ((List.range 8).map fun k => if p.streamBit (cur + 8 * i + k) then 2 ^ (7 - k) else 0).sum

/-- What a command that appends `code` answers (41_bitstream.md R426, 20_memory.md R202, R203): with room,
the state it commits with the store longer by `code` and no other bit or byte changed; without, `CapacityExceeded`
and nothing changed. The bytes stored to are those that hold stream bits `VB .. VB+|OUT|-1`. -/
def Appends (o : Host.Outcome State Fault Refusal) (s pending : State) (code : List Bool) : Prop :=
  (s.hasRoom code.length →
    ∃ p : Payload,
      o = .next ({ pending with payload := p }.post .ok (BitVec.ofNat 64 code.length)
        (BitVec.ofNat 64 p.vb) false) ∧
      p.wf ∧ p.bits = s.payload.bits ++ code ∧
      ∀ a, (code = [] ∨ a < s.payload.vb / 8 ∨ (s.payload.vb + code.length + 7) / 8 ≤ a) →
        p.mem.read a = s.payload.mem.read a) ∧
  (¬s.hasRoom code.length → o = .next (s.post .capacityExceeded 0 0 false))

/-! ### Codes of the wire format -/

/-- The prefix code of bucket `k` of `K` (43_varbit.md R482). -/
def bucketCode (c : Config) (k : Nat) : List Bool :=
  if k < c.k - 1 then List.replicate k true ++ [false] else List.replicate (c.k - 1) true

/-- `m` in bucket `k` (43_varbit.md R485). -/
def varbitCode (c : Config) (k : Nat) (m : Word) : List Bool := bucketCode c k ++ msbBits m (c.width k)

/-- `k` is the smallest bucket that holds `m` (43_varbit.md R483). -/
abbrev isBucketOf (c : Config) (k : Nat) (m : Word) : Prop :=
  k < c.k ∧ m.toNat < 2 ^ c.width k ∧ ∀ k' < k, 2 ^ c.width k' ≤ m.toNat

/-- The zig-zag magnitude of an integer (43_varbit.md R481). -/
def zigzag (n : Int) : Int := if 0 ≤ n then 2 * n else -2 * n - 1

/-- The number of bytes of a varint (42_uvarint.md R461). -/
def uvarintLen (m : Word) : Nat := if m.toNat < 128 then 1 else (Nat.log2 m.toNat + 1 + 6) / 7

/-- Byte `i` of the varint of `m`: its seven-bit group, with the continuation bit in every byte but the last
(42_uvarint.md R460). -/
def uvarintByte (m : Word) (i : Nat) : Nat :=
  m.toNat / 128 ^ i % 128 + if i + 1 < uvarintLen m then 128 else 0

/-- The bits of the varint of `m` (42_uvarint.md R460). -/
def uvarintCode (m : Word) : List Bool :=
  (List.range (uvarintLen m)).flatMap fun i => msbBits (BitVec.ofNat 64 (uvarintByte m i)) 8

/-- The value field that compressor context `a` writes for `v`, and the context after it
(44_appender.md R530, R532). `lz` and `tz` are the zero counts of the XOR, said by its size and divisors. -/
inductive EncodedValue (c : Config) (a : Appender) (v : Word) : List Bool → Appender → Prop where
  | unchanged : v = a.pv → EncodedValue c a v [false] { a with pv := v }
  | reuse : v ≠ a.pv → a.wv = true → (v ^^^ a.pv).toNat < 2 ^ (64 - a.lz.toNat) →
      2 ^ a.tz.toNat ∣ (v ^^^ a.pv).toNat →
      EncodedValue c a v
        ([true, false] ++ msbBits ((v ^^^ a.pv) >>> a.tz.toNat) (64 - a.lz.toNat - a.tz.toNat))
        { a with pv := v }
  | window (lz tz lzc : Nat) : v ≠ a.pv →
      ¬(a.wv = true ∧ (v ^^^ a.pv).toNat < 2 ^ (64 - a.lz.toNat) ∧ 2 ^ a.tz.toNat ∣ (v ^^^ a.pv).toNat) →
      lz < 64 → 2 ^ (63 - lz) ≤ (v ^^^ a.pv).toNat → (v ^^^ a.pv).toNat < 2 ^ (64 - lz) →
      2 ^ tz ∣ (v ^^^ a.pv).toNat → ¬2 ^ (tz + 1) ∣ (v ^^^ a.pv).toNat → lzc = min lz c.lzMax →
      EncodedValue c a v
        ([true, true] ++ msbBits (BitVec.ofNat 64 lzc) c.lzBits ++
          msbBits (BitVec.ofNat 64 ((64 - lzc - tz) % 2 ^ c.mbBits)) c.mbBits ++
          msbBits ((v ^^^ a.pv) >>> tz) (64 - lzc - tz))
        { a with pv := v, wv := true, lz := BitVec.ofNat 6 lzc, tz := BitVec.ofNat 6 tz }

/-- A value field that decompressor context `d` accepts, and the context's value and window after it
(45_iterator.md R570, R571). -/
inductive DecodedValue (c : Config) (d : DecCtx) : List Bool → DecCtx → Prop where
  | unchanged : DecodedValue c d [false] d
  | reuse (y : Word) : d.wv = true → y.toNat < 2 ^ (64 - d.lz.toNat - d.tz.toNat) →
      DecodedValue c d ([true, false] ++ msbBits y (64 - d.lz.toNat - d.tz.toNat))
        { d with pv := d.pv ^^^ (y <<< d.tz.toNat) }
  | window (lz f mb : Nat) (y : Word) : lz < 2 ^ c.lzBits → f < 2 ^ c.mbBits →
      mb = (if f = 0 then 64 else f) → lz + mb ≤ 64 → y.toNat < 2 ^ mb →
      DecodedValue c d
        ([true, true] ++ msbBits (BitVec.ofNat 64 lz) c.lzBits ++ msbBits (BitVec.ofNat 64 f) c.mbBits ++
          msbBits y mb)
        { d with pv := d.pv ^^^ (y <<< (64 - lz - mb)), wv := true, lz := BitVec.ofNat 6 lz,
                 tz := BitVec.ofNat 6 (64 - lz - mb) }

/-! ### Runs of commands -/

/-- `s` with the operands `OPA` = `a`, `OPB` = `b` latched. -/
def State.withOperands (s : State) (a b : Word) : State := { s with latA := a, latB := b }

/-- From `s`, one successful `APP_APPEND` for each sample leads to `t`. -/
def AppendsAll : State → List (Word × Word) → State → Prop
  | s, [], t => t = s
  | s, (a, b) :: rest, t =>
    ∃ u, exec .appAppend (s.withOperands a b) = .next u ∧ u.st = .ok ∧ AppendsAll u rest t

/-- From `s`, `ITER_NEXT` on context `j` returns each of the samples in turn, and leads to `t`. -/
def YieldsAll (j : BitVec 4) : State → List (Word × Word) → State → Prop
  | s, [], t => t = s
  | s, (a, b) :: rest, t =>
    ∃ u, exec (.iterNext j) s = .next u ∧ u.st = .ok ∧ u.endFlag = false ∧ u.res0 = a ∧ u.res1 = b ∧
      YieldsAll j u rest t

/-- From `s`, one successful `CH_LOADB` for each byte leads to `t`. -/
def LoadsAll : State → List Byte → State → Prop
  | s, [], t => t = s
  | s, b :: rest, t =>
    ∃ u, exec .chLoadb (s.withOperands (b.setWidth 64) 0) = .next u ∧ u.st = .ok ∧ LoadsAll u rest t

/-- The next `ITER_NEXT` on context `j` reports the end of the sequence (45_iterator.md R562). -/
def EndsAt (j : BitVec 4) (t : State) : Prop :=
  exec (.iterNext j) t = .next (t.post .ok 0 0 true)

/-- `ITER_INIT ctx=j` from `s` and then `ITER_NEXT`s return exactly `xs` and then the end of the sequence. -/
def IteratesTo (s : State) (j : BitVec 4) (xs : List (Word × Word)) : Prop :=
  ∃ u t, exec (.iterInit j) s = .next u ∧ u.st = .ok ∧ u.res0.toNat = xs.length ∧
    YieldsAll j u xs t ∧ EndsAt j t

/-! ### Acceptance -/

/-- A running command completes at the next step: the block is busy, not in reset, and the host either waits
or has nothing else to do; `rest` is what the host does after (notes/assumptions/1.md). -/
def State.completing (s : State) (rest : List HostEvent) : Prop :=
  s.busy = true ∧ s.inReset = false ∧ (s.host = .await :: rest ∨ s.host = [] ∧ rest = [])

/-- `OP` values of the opcode map (30_encoding.md R307). -/
def opcodes : List Nat :=
  [0x00, 0x01, 0x10, 0x11, 0x12, 0x13, 0x14, 0x15, 0x18, 0x19, 0x1A, 0x1B, 0x1C, 0x20, 0x21, 0x28, 0x29,
    0x2A, 0x2B, 0x2C, 0x2D, 0x2E, 0x2F, 0x30, 0x31, 0x32, 0x33, 0x34, 0x35, 0x36]

/-- `OP` values of the context commands (30_encoding.md R302). -/
def contextOpcodes : List Nat := [0x18, 0x19, 0x1A, 0x1B, 0x1C, 0x21, 0x2A, 0x2B, 0x32, 0x33]

/-- The largest `N` a command with opcode `op` takes (30_encoding.md R302). -/
def mostCount (op : Nat) : Nat := if op = 0x11 ∨ op = 0x1B then 64 else if op = 0x13 then 8 else 0

/-- How many values `CTX` may take with opcode `op` (30_encoding.md R302, R303). -/
def ctxRange (c : Config) (op : Nat) : Nat := if op ∈ contextOpcodes then c.nDec else 1

/-- The word `w` passes the four checks of the decode verdict, said by numbers (30_encoding.md R303). -/
abbrev legalWord (c : Config) (w : Nat) : Prop :=
  (w / 2 ^ 20 = 0 ∧ w / 2 ^ 15 % 2 = 0) ∧ w % 256 ∈ opcodes ∧ w / 256 % 128 ≤ mostCount (w % 256) ∧
    w / 2 ^ 16 % 16 < ctxRange c (w % 256)

end Sys2Proof.Machine
end

