-- ==== Sys2Proof/Certificates/Slice0/Obligations.lean ====
section
/-! DEFINITION. The statements about the model, for the provers. "The model's choice" and a log number mark a
clause that the spec does not force. -/

open Sys2Proof Sys2Proof.Machine

/-! ## The command word -/

/-- One word of each of the thirty commands, written out from the spec's encodings (30_encoding.md R300, R307), decodes
to its command, and illegal words (95_test_vectors.md section 2.1) fail the check they should. -/
def Obligations.WrittenOutWordsDecode : Prop :=
  decode Config.standard 0x00000000 = .ok .nop ∧
  decode Config.standard 0x00000001 = .ok .clear ∧
  decode Config.standard 0x00000010 = .ok .bsWbit ∧
  decode Config.standard 0x00000C11 = .ok (.bsWbits 12) ∧
  decode Config.standard 0x00000012 = .ok .bsWbyte ∧
  decode Config.standard 0x00000813 = .ok (.bsWbytes 8) ∧
  decode Config.standard 0x00000014 = .ok .bsLen ∧
  decode Config.standard 0x00000015 = .ok .bsRdbyte ∧
  decode Config.standard 0x00010018 = .ok (.rdOpen 1) ∧
  decode Config.standard 0x00010019 = .ok (.rdPos 1) ∧
  decode Config.standard 0x0001001A = .ok (.bsRbit 1) ∧
  decode Config.standard 0x0001081B = .ok (.bsRbits 8 1) ∧
  decode Config.standard 0x0001001C = .ok (.bsRbyte 1) ∧
  decode Config.standard 0x00000020 = .ok .uvEnc ∧
  decode Config.standard 0x00010021 = .ok (.uvDec 1) ∧
  decode Config.standard 0x00000028 = .ok .vbEncU ∧
  decode Config.standard 0x00000029 = .ok .vbEncS ∧
  decode Config.standard 0x0001002A = .ok (.vbDecU 1) ∧
  decode Config.standard 0x0001002B = .ok (.vbDecS 1) ∧
  decode Config.standard 0x0000002C = .ok .vbSelU ∧
  decode Config.standard 0x0000002D = .ok .vbSelS ∧
  decode Config.standard 0x0000002E = .ok .zzMap ∧
  decode Config.standard 0x0000002F = .ok .zzUnmap ∧
  decode Config.standard 0x00000030 = .ok .appInit ∧
  decode Config.standard 0x00000031 = .ok .appAppend ∧
  decode Config.standard 0x00010032 = .ok (.iterInit 1) ∧
  decode Config.standard 0x00010033 = .ok (.iterNext 1) ∧
  decode Config.standard 0x00000034 = .ok .chLoadb ∧
  decode Config.standard 0x00000035 = .ok .chLen ∧
  decode Config.standard 0x00000036 = .ok .chRdb ∧
  decode Config.standard 0x00008000 = .error .reservedBits ∧
  decode Config.standard 0x00000016 = .error .unknownOpcode ∧
  decode Config.standard 0x00000913 = .error .countOutOfRange ∧
  decode Config.standard 0x00020018 = .error .contextOutOfRange

/-- Decoding the word of a well-formed command gives it back, whatever the configuration. -/
def Obligations.DecodeOfEncode : Prop :=
  ∀ (c : Config) (i : Instr), i.wf c = true → decode c (encode i) = .ok i

/-- A word that decodes is the word of the command it decodes to, and that command is well formed. -/
def Obligations.EncodeOfDecode : Prop :=
  ∀ (c : Config) (w : CmdWord) (i : Instr), decode c w = .ok i → i.wf c = true ∧ encode i = w

/-- The verdict's four checks, in the order of 30_encoding.md R303, each said by numbers; a word that passes them
all decodes. -/
def Obligations.VerdictChecksInOrder : Prop :=
  ∀ (c : Config) (w : CmdWord),
    let u := w.toNat
    (¬(u / 2 ^ 20 = 0 ∧ u / 2 ^ 15 % 2 = 0) → decode c w = .error .reservedBits) ∧
    ((u / 2 ^ 20 = 0 ∧ u / 2 ^ 15 % 2 = 0) →
      (u % 256 ∉ opcodes → decode c w = .error .unknownOpcode) ∧
      (u % 256 ∈ opcodes →
        (mostCount (u % 256) < u / 256 % 128 → decode c w = .error .countOutOfRange) ∧
        (u / 256 % 128 ≤ mostCount (u % 256) →
          (ctxRange c (u % 256) ≤ u / 2 ^ 16 % 16 → decode c w = .error .contextOutOfRange) ∧
          (u / 2 ^ 16 % 16 < ctxRange c (u % 256) →
            ∃ i : Instr, decode c w = .ok i ∧ i.opcode.toNat = u % 256))))

/-- An accepted word that fails the verdict raises `IllegalCommand` and changes nothing but the results
(30_encoding.md R303, R308). That the step at which it completes takes the host's wait off its list is the model's
choice (log 1). -/
def Obligations.IllegalWordChangesOnlyResults : Prop :=
  ∀ (s : State) (rest : List HostEvent), s.cfg.wf → s.completing rest → ¬legalWord s.cfg s.cmd.toNat →
    step s = .next ({ s with host := rest }.post .illegalCommand 0 0 false)

/-- When the accepted word decodes, the step runs exactly that command, on the state with the host's wait taken
off its list (the model's choice, log 1). -/
def Obligations.StepRunsDecodedCommand : Prop :=
  ∀ (s : State) (rest : List HostEvent) (i : Instr), s.cfg.wf → s.completing rest →
    decode s.cfg s.cmd = .ok i → step s = exec i { s with host := rest }

/-- A meaning given a count or a context its instance does not take raises `IllegalCommand` (the model's choice
where the verdict has already refused the word: log 12). -/
def Obligations.OutOfRangeFieldsAreIllegal : Prop :=
  ∀ (i : Instr) (s : State), i.wf s.cfg = false → exec i s = .next (s.post .illegalCommand 0 0 false)

/-! ## The host's registers and reset -/

/-- A write of `CMD`: accepted while `BUSY` = 0, dropped with `OVR` set while `BUSY` = 1; a read gives the last
accepted word (10_state.md R101, 70_reset_and_hazards.md R811). -/
def Obligations.CommandWriteAcceptedOrDropped : Prop :=
  ∀ (s : State) (v : Word) (rest : List HostEvent), s.cfg.wf → s.inReset = false →
    s.host = .write 0 v :: rest →
    (s.busy = false → step s =
      .next { s with host := rest, cmd := v.setWidth 32, latA := s.opa, latB := s.opb, busy := true }) ∧
    (s.busy = true → step s = .next { s with host := rest, ovr := true }) ∧
    s.readReg 0 = s.cmd.setWidth 64

/-- The bits of `STATUS` as the host reads it (10_state.md R104), and the number of each of the eleven posted status
codes (60_exceptions.md R700), none of them reserved. -/
def Obligations.StatusRegisterLayout : Prop :=
  (Status.code .ok = 0 ∧ Status.code .outOfOrder = 1 ∧ Status.code .truncated = 2 ∧ Status.code .overflow = 3 ∧
    Status.code .limitExceeded = 4 ∧ Status.code .illegalCommand = 8 ∧ Status.code .noContext = 9 ∧
    Status.code .malformed = 10 ∧ Status.code .capacityExceeded = 11 ∧ Status.code .badIndex = 12 ∧
    Status.code .noChunk = 13) ∧
  ∀ s : State, s.inReset = false →
    (s.readReg 5).toNat = s.st.code.toNat + (if s.endFlag then 16 else 0) + (if s.busy then 32 else 0) +
      (if s.ovr then 64 else 0) ∧
    s.st.code.toNat ∈ [0, 1, 2, 3, 4, 8, 9, 10, 11, 12, 13]

/-- A write of `STATUS` clears `OVR` when bit 6 is 1 and changes nothing else (10_state.md R105). -/
def Obligations.StatusWriteClearsOnlyOverrun : Prop :=
  ∀ (s : State) (v : Word) (rest : List HostEvent), s.cfg.wf → s.inReset = false →
    s.host = .write 5 v :: rest →
    step s = .next { s with host := rest, ovr := if v.getLsbD 6 then false else s.ovr }

/-- Operand registers hold what the host writes; every other register but `CMD` and `STATUS` ignores writes
(10_state.md R100, R102, R103). -/
def Obligations.HostWritesReachOnlyOperands : Prop :=
  ∀ (s : State) (index : BitVec 4) (v : Word) (rest : List HostEvent), s.cfg.wf → s.inReset = false →
    s.host = .write index v :: rest → index ≠ 0 → index ≠ 5 →
    step s = .next { s with
      host := rest
      opa := if index = 1 then v else s.opa
      opb := if index = 2 then v else s.opb }

/-- A host read outside reset: registers 1 to 4 read `OPA`, `OPB`, `RES0` and `RES1` (10_state.md R100, R102, R103). A read
event leaves the register's value in `hostData` and changes nothing else; that the list loses the event is the
model's choice (logs 1 and 7). -/
def Obligations.HostReadsReturnRegisters : Prop :=
  ∀ s : State, s.cfg.wf → s.inReset = false →
    s.readReg 1 = s.opa ∧ s.readReg 2 = s.opb ∧ s.readReg 3 = s.res0 ∧ s.readReg 4 = s.res1 ∧
    ∀ (index : BitVec 4) (rest : List HostEvent), s.host = .read index :: rest →
      step s = .next { s with host := rest, hostData := s.readReg index }

/-- The configuration registers report the parameters, ignore writes and are constant (10_state.md R106); registers 11 to
15 read 0 (R100). -/
def Obligations.ConfigurationRegistersReportParameters : Prop :=
  ∀ s : State, s.cfg.wf → s.inReset = false →
    (s.readReg 6).toNat =
      s.cfg.hdrBytes + 16 * (if s.cfg.hdrOrder = .be then 1 else 0) +
        32 * (if s.cfg.firstTs = .escape then 1 else 0) + 2 ^ 8 * (s.cfg.nDec - 1) + 2 ^ 12 * (s.cfg.k - 1) +
        2 ^ 16 * s.cfg.lzBits + 2 ^ 20 * s.cfg.mbBits + 2 ^ 24 ∧
    (s.readReg 7).toNat = s.cfg.maxSamples ∧
    (s.cfg.payloadCap = none → s.readReg 8 = 0) ∧
    (∀ cap, s.cfg.payloadCap = some cap → cap < 2 ^ 64 → (s.readReg 8).toNat = cap) ∧
    (∀ k < 8, ((s.readReg 9).toNat / 2 ^ (8 * k)) % 256 = s.cfg.widths.getD k 0 ∧
      ((s.readReg 10).toNat / 2 ^ (8 * k)) % 256 = s.cfg.widths.getD (8 + k) 0) ∧
    (∀ index : BitVec 4, 11 ≤ index.toNat → s.readReg index = 0) ∧
    (∀ (index : BitVec 4) (v : Word), 6 ≤ index.toNat → s.writeReg index v = s) ∧
    (∀ (t : State) (index : BitVec 4), step s = .next t → t.inReset = false → 6 ≤ index.toNat →
      t.readReg index = s.readReg index)

/-- While reset is asserted register accesses have no effect and read 0 (70_reset_and_hazards.md R800), and waiting
runs no command. -/
def Obligations.AssertedResetMasksHost : Prop :=
  ∀ (s : State) (index : BitVec 4) (v : Word) (rest : List HostEvent), s.cfg.wf → s.inReset = true →
    (s.host = .write index v :: rest → step s = .next { s with host := rest }) ∧
    (s.host = .read index :: rest → step s = .next { s with host := rest, hostData := 0 }) ∧
    (s.host = .await :: rest → step s = .next { s with host := rest })

/-- Asserting and releasing reset leaves the reset state of the same instance, whatever command was running
(70_reset_and_hazards.md R800). That the host's list and its last read stay is the model's choice (log 8). -/
def Obligations.ResetPulseGivesResetState : Prop :=
  ∀ (s : State) (rest : List HostEvent), s.cfg.wf → s.host = .resetOn :: .resetOff :: rest →
    Sys2Proof.core.run 2 s = .next { State.resetFor s.cfg with host := rest, hostData := s.hostData }

/-- The values of the reset table (10_state.md R130) for every instance. The latched operands and `hostData`, which
the table does not name, are left out. -/
def Obligations.ResetHoldsTableValues : Prop :=
  ∀ c : Config, let s := State.resetFor c
    s.cfg = c ∧ s.cmd = 0 ∧ s.opa = 0 ∧ s.opb = 0 ∧ s.res0 = 0 ∧ s.res1 = 0 ∧
    s.st = .ok ∧ s.endFlag = false ∧ s.busy = false ∧ s.ovr = false ∧
    s.payload.wlen = 0 ∧ s.payload.wfill = 0 ∧ s.header.hdr = 0 ∧ s.header.hlen = 0 ∧
    s.app = { valid := false, cnt := 0, pt := 0, pd := 0, pv := 0, wv := false, lz := 0, tz := 0 } ∧
    s.dec.length = c.nDec ∧
    ∀ d ∈ s.dec, d = { act := false, mode := .raw, n := 0, i := 0, cur := 0, pt := 0, pd := 0, pv := 0,
                       wv := false, lz := 0, tz := 0 }

/-- `BUSY` of an accepted command falls after at most one step more than the host has events, by its completion or by a
reset. When the host asserts no reset the command completes: the run comes to a state in which nothing but the operand
registers, `OVR` and the host's side differs, and the next step is the accepted word's own effect, or
`IllegalCommand` when it does not decode (70_reset_and_hazards.md R800, R820; 30_encoding.md R303, R305; the event
list is the model's choice, log 1). -/
def Obligations.AcceptedCommandCompletes : Prop :=
  ∀ s : State, s.cfg.wf → s.busy = true → s.inReset = false →
    (∃ (k : Nat) (t : State), k ≤ s.host.length + 1 ∧ Sys2Proof.core.run k s = .next t ∧ t.busy = false) ∧
    (.resetOn ∉ s.host →
      ∃ (k : Nat) (u t : State) (rest : List HostEvent), k ≤ s.host.length ∧ Sys2Proof.core.run k s = .next u ∧
        u = { s with opa := u.opa, opb := u.opb, ovr := u.ovr, host := u.host, hostData := u.hostData } ∧
        u.completing rest ∧ step u = .next t ∧ t.busy = false ∧
        (∀ i : Instr, decode s.cfg s.cmd = .ok i → exec i { u with host := rest } = .next t) ∧
        (¬legalWord s.cfg s.cmd.toNat → t = { u with host := rest }.post .illegalCommand 0 0 false))

/-- The host sequence of an assembler statement, run from an idle block, ends in the command's own effect with
the operands it wrote (30_encoding.md R310). -/
def Obligations.StatementRunsItsCommand : Prop :=
  ∀ (s : State) (p : Statement) (rest : List HostEvent), s.cfg.wf → s.inReset = false → s.busy = false →
    p.instr.wf s.cfg = true → s.host = p.events ++ rest →
    Sys2Proof.core.run p.events.length s =
      exec p.instr { s with
        host := rest, cmd := encode p.instr, busy := true
        opa := p.a.getD s.opa, opb := p.b.getD s.opb
        latA := p.a.getD s.opa, latB := p.b.getD s.opb }

/-! ## Invariants and frames of the whole machine -/

/-- The reset state of every well-formed instance meets the invariant, and the spec's own parameters are
well formed. -/
def Obligations.ResetMeetsInvariant : Prop :=
  (∀ c : Config, c.wf → (State.resetFor c).Inv) ∧ Config.standard.wf

/-- Every step keeps the invariant: the store's form, its capacity, zero padding, the header's width, the
compressor's and the contexts' ranges, the number of contexts. -/
def Obligations.StepKeepsInvariant : Prop :=
  ∀ s t : State, s.Inv → step s = .next t → t.Inv

/-- No step changes the configuration (00_scope.md R10, 70_reset_and_hazards.md R800). -/
def Obligations.StepKeepsConfiguration : Prop :=
  ∀ s t : State, step s = .next t → t.cfg = s.cfg

/-- No command writes `OPA`, `OPB`, the latched operands, `CMD`, `OVR`, the configuration or the host's side, and
every command ends with `BUSY` = 0 (10_state.md R102, R104, R115). -/
def Obligations.CommandsLeaveHostSideAlone : Prop :=
  ∀ (i : Instr) (s : State), ∃ t : State, exec i s = .next t ∧ t.busy = false ∧
    t.cfg = s.cfg ∧ t.cmd = s.cmd ∧ t.opa = s.opa ∧ t.opb = s.opb ∧ t.latA = s.latA ∧ t.latB = s.latB ∧
    t.ovr = s.ovr ∧ t.inReset = s.inReset ∧ t.host = s.host ∧ t.hostData = s.hostData ∧
    t.dec.length = s.dec.length

/-- A command that posts an error leaves everything but the results as it was, save that `ITER_INIT` and
`ITER_NEXT` close their context on any error but `IllegalCommand` (60_exceptions.md R710, R711, R712). -/
def Obligations.ErrorsRollBack : Prop :=
  ∀ (i : Instr) (s t : State), exec i s = .next t → t.st ≠ .ok →
    t = State.post
      (match i with
        | .iterInit j | .iterNext j =>
          if t.st = .illegalCommand then s
          else { s with dec := s.dec.set j.toNat { s.ctx j with act := false } }
        | _ => s)
      t.st 0 0 false

/-- Commands that read through a context change that context only, the raw ones only its cursor; the
inspection commands and `NOP` change nothing but the results and give the same results again
(20_memory.md R216). -/
def Obligations.ReadingCommandsKeepTheStore : Prop :=
  (∀ (j : BitVec 4) (n : BitVec 7) (s t : State) (i : Instr),
    i ∈ [.bsRbit j, .bsRbits n j, .bsRbyte j, .uvDec j, .vbDecU j, .vbDecS j] → exec i s = .next t →
    ∃ cur, t = State.post { s with dec := s.dec.set j.toNat { s.ctx j with cur := cur } }
      t.st t.res0 t.res1 false) ∧
  (∀ (j : BitVec 4) (s t : State), exec (.iterNext j) s = .next t →
    ∃ d, t = State.post { s with dec := s.dec.set j.toNat d } t.st t.res0 t.res1 t.endFlag) ∧
  (∀ (j : BitVec 4) (s t : State) (i : Instr),
    i ∈ [.bsLen, .bsRdbyte, .rdPos j, .chLen, .chRdb, .vbSelU, .vbSelS, .zzMap, .zzUnmap, .nop] →
    exec i s = .next t → t = s.post t.st t.res0 t.res1 false ∧ exec i t = .next t)

/-- Only `CLEAR` and `APP_INIT` change a stream bit below `VB` or make `VB` smaller (20_memory.md R202, R232). -/
def Obligations.StreamIsAppendOnly : Prop :=
  ∀ (i : Instr) (s t : State), s.payload.wf → i ≠ .clear → i ≠ .appInit → exec i s = .next t →
    s.payload.bits <+: t.payload.bits

/-- `END` is posted only by an `ITER_NEXT` that finds its sample count reached (10_state.md R104, R115). -/
def Obligations.EndOnlyAtReachedCount : Prop :=
  ∀ (i : Instr) (s t : State), exec i s = .next t → t.endFlag = true →
    ∃ j : BitVec 4, i = .iterNext j ∧ (s.ctx j).act = true ∧ (s.ctx j).mode = .iter ∧
      (s.ctx j).i = (s.ctx j).n ∧ t = s.post .ok 0 0 true

/-- `A.VALID` is set only by `APP_INIT` and cleared only by `CLEAR` and `CH_LOADB` (44_appender.md R521); after every
`APP_APPEND` that does not raise `A.CNT` has grown by one and `HDR` = `A.CNT`, and no other command but `APP_INIT`,
`CLEAR` and `CH_LOADB` changes `HDR` (R523). -/
def Obligations.CompressorOwnsItsChunk : Prop :=
  ∀ (i : Instr) (s t : State), exec i s = .next t →
    (s.app.valid = false → t.app.valid = true → i = .appInit) ∧
    (s.app.valid = true → t.app.valid = false → i = .clear ∨ i = .chLoadb) ∧
    (i = .appAppend → t.st = .ok → t.app.cnt = s.app.cnt + 1 ∧ t.header.hdr = t.app.cnt) ∧
    (i ∉ [.appAppend, .appInit, .clear, .chLoadb] → t.header = s.header ∧ t.app = s.app)

/-! ## The payload store and the bit-stream unit -/

/-- The commit of a bit list: the stream is longer by exactly its bits, in order, no earlier bit changes, and no byte
but those that hold the new bits changes (20_memory.md R202). -/
def Obligations.CommitAppendsOutInOrder : Prop :=
  ∀ (p : Payload) (out : List Bool), p.wf →
    (p.append out).wf ∧ (p.append out).vb = p.vb + out.length ∧ (p.append out).bits = p.bits ++ out ∧
    ∀ a, (out = [] ∨ a < p.vb / 8 ∨ (p.vb + out.length + 7) / 8 ≤ a) →
      (p.append out).mem.read a = p.mem.read a

/-- `BS_WBIT`, `BS_WBITS`, `BS_WBYTE` and `BS_WBYTES` append their operand's low bits, most significant first, or raise
`CapacityExceeded`, or `IllegalCommand` for a count out of range (41_bitstream.md R422 to R425). -/
def Obligations.BitWritersAppendOperandBits : Prop :=
  ∀ s : State, s.storeWf →
    encode .bsWbit = 0x10 ∧ encode .bsWbyte = 0x12 ∧
    Appends (exec .bsWbit s) s s [s.latA.getLsbD 0] ∧
    Appends (exec .bsWbyte s) s s (msbBits s.latA 8) ∧
    ∀ n : BitVec 7,
      encode (.bsWbits n) = 0x11 ||| (n.setWidth 32 <<< 8) ∧ encode (.bsWbytes n) = 0x13 ||| (n.setWidth 32 <<< 8) ∧
      (n.toNat ≤ 64 → Appends (exec (.bsWbits n) s) s s (msbBits s.latA n.toNat)) ∧
      (64 < n.toNat → exec (.bsWbits n) s = .next (s.post .illegalCommand 0 0 false)) ∧
      (n.toNat ≤ 8 → Appends (exec (.bsWbytes n) s) s s (msbBits s.latA (8 * n.toNat))) ∧
      (8 < n.toNat → exec (.bsWbytes n) s = .next (s.post .illegalCommand 0 0 false))

/-- `BS_WBYTE a=x` computes the same as `BS_WBITS n=8 a=x`, `BS_RBYTE ctx=j` the same as `BS_RBITS n=8 ctx=j`
(30_encoding.md R311), and `BS_WBYTES n` the same as `BS_WBITS 8n` (41_bitstream.md R425). -/
def Obligations.ByteCommandsAreBitGroups : Prop :=
  (∀ s : State, exec .bsWbyte s = exec (.bsWbits 8) s) ∧
  (∀ (s : State) (j : BitVec 4), exec (.bsRbyte j) s = exec (.bsRbits 8 j) s) ∧
  (∀ (s : State) (n : BitVec 7), n.toNat ≤ 8 → exec (.bsWbytes n) s = exec (.bsWbits (8 * n)) s)

/-- `BS_LEN` and `BS_RDBYTE` (41_bitstream.md R428, R429). -/
def Obligations.StoreInspection : Prop :=
  encode .bsLen = 0x14 ∧ encode .bsRdbyte = 0x15 ∧
  ∀ s : State,
    exec .bsLen s =
      .next (s.post .ok (BitVec.ofNat 64 s.payload.wlen) (BitVec.ofNat 64 s.payload.wfill) false) ∧
    (s.latA.toNat < s.payload.wlen →
      exec .bsRdbyte s = .next (s.post .ok ((s.payload.mem.read s.latA.toNat).setWidth 64) 0 false)) ∧
    (s.payload.wlen ≤ s.latA.toNat → exec .bsRdbyte s = .next (s.post .badIndex 0 0 false))

/-- `RD_OPEN` opens a raw reader at any bit up to `VB`; `RD_POS` reports an open context's cursor
(41_bitstream.md R430, R431). -/
def Obligations.ReadersOpenAndReport : Prop :=
  ∀ (s : State) (j : BitVec 4), j.toNat < s.cfg.nDec →
    (s.latA.toNat ≤ s.payload.vb → exec (.rdOpen j) s =
      .next (State.post
        { s with dec := s.dec.set j.toNat
                  { act := true, mode := .raw, n := 0, i := 0, cur := s.latA.toNat, pt := 0, pd := 0, pv := 0,
                    wv := false, lz := 0, tz := 0 } }
        .ok s.latA (BitVec.ofNat 64 s.payload.vb) false)) ∧
    (s.payload.vb < s.latA.toNat → exec (.rdOpen j) s = .next (s.post .badIndex 0 0 false)) ∧
    ((s.ctx j).act = true → exec (.rdPos j) s =
      .next (s.post .ok (BitVec.ofNat 64 (s.ctx j).cur) (BitVec.ofNat 64 s.payload.vb) false)) ∧
    ((s.ctx j).act = false → exec (.rdPos j) s = .next (s.post .noContext 0 0 false))

/-- `BS_RBIT`, `BS_RBITS` and `BS_RBYTE` return the next bits at the cursor, the first most significant, and move the
cursor past them; a closed context raises `NoContext`, a read past `VB` raises `Truncated`, and both leave the
context as it was (41_bitstream.md R421, R427, R432 to R434). -/
def Obligations.RawReadersReturnStreamBits : Prop :=
  ∀ (s : State) (j : BitVec 4) (i : Instr) (n : Nat) (nn : BitVec 7), j.toNat < s.cfg.nDec →
    (i = .bsRbit j ∧ n = 1 ∨ i = .bsRbyte j ∧ n = 8 ∨ i = .bsRbits nn j ∧ n = nn.toNat ∧ n ≤ 64) →
    ((s.ctx j).act = false → exec i s = .next (s.post .noContext 0 0 false)) ∧
    ((s.ctx j).act = true → s.payload.vb < (s.ctx j).cur + n →
      exec i s = .next (s.post .truncated 0 0 false)) ∧
    ((s.ctx j).act = true → (s.ctx j).cur + n ≤ s.payload.vb →
      ∃ v : Word, v.toNat < 2 ^ n ∧
        msbBits v n = (List.range n).map (fun k => s.payload.streamBit ((s.ctx j).cur + k)) ∧
        exec i s = .next (State.post
          { s with dec := s.dec.set j.toNat { s.ctx j with cur := (s.ctx j).cur + n } }
          .ok v (BitVec.ofNat 64 ((s.ctx j).cur + n)) false))

/-! ## The codecs -/

/-- `UV_ENC` appends the minimal base-128 code of its operand, least significant group first, with the continuation
bit in every byte but the last (42_uvarint.md R460, R461, R464). -/
def Obligations.UvarintEncoderWritesMinimalCode : Prop :=
  encode .uvEnc = 0x20 ∧
  ∀ s : State, s.storeWf →
    Appends (exec .uvEnc s) s s (uvarintCode s.latA) ∧ (uvarintCode s.latA).length = 8 * uvarintLen s.latA

/-- `UV_DEC` on an open context, byte by byte in reading order (42_uvarint.md R462, R463, R465): the value when the last
byte is reached within ten, `Overflow` at a tenth byte above 1, `Truncated` where fewer than 8 bits remain. -/
def Obligations.UvarintDecoderReadsBytes : Prop :=
  ∀ (s : State) (j : BitVec 4), j.toNat < s.cfg.nDec →
    ((s.ctx j).act = false → exec (.uvDec j) s = .next (s.post .noContext 0 0 false)) ∧
    ((s.ctx j).act = true →
      (∀ l : Nat, l < 10 → (∀ i < l, 128 ≤ s.payload.byteAt (s.ctx j).cur i) →
        (s.payload.vb < (s.ctx j).cur + 8 * (l + 1) →
          exec (.uvDec j) s = .next (s.post .truncated 0 0 false)) ∧
        ((s.ctx j).cur + 8 * (l + 1) ≤ s.payload.vb → s.payload.byteAt (s.ctx j).cur l < 128 →
          (l = 9 → s.payload.byteAt (s.ctx j).cur l ≤ 1) →
          exec (.uvDec j) s = .next (State.post
            { s with dec := s.dec.set j.toNat { s.ctx j with cur := (s.ctx j).cur + 8 * (l + 1) } }
            .ok
            (BitVec.ofNat 64
              ((List.range (l + 1)).map fun i => s.payload.byteAt (s.ctx j).cur i % 128 * 128 ^ i).sum)
            (BitVec.ofNat 64 ((s.ctx j).cur + 8 * (l + 1))) false)) ∧
        ((s.ctx j).cur + 8 * (l + 1) ≤ s.payload.vb → l = 9 → 1 < s.payload.byteAt (s.ctx j).cur l →
          exec (.uvDec j) s = .next (s.post .overflow 0 0 false))))

/-- `ZZ_MAP` and `ZZ_UNMAP` compute the zig-zag bijection between 64-bit signed and unsigned values
(43_varbit.md R481, R496, R497). -/
def Obligations.ZigzagCommandsComputeBijection : Prop :=
  encode .zzMap = 0x2E ∧ encode .zzUnmap = 0x2F ∧
  ∀ s : State,
    (∃ m : Word, (m.toNat : Int) = zigzag s.latA.toInt ∧ exec .zzMap s = .next (s.post .ok m 0 false)) ∧
    (∃ n : Word, zigzag n.toInt = (s.latA.toNat : Int) ∧ exec .zzUnmap s = .next (s.post .ok n 0 false))

/-- `VB_SEL_U` and `VB_SEL_S` report the smallest bucket that holds the magnitude and the length of its code
(43_varbit.md R483, R484, R494, R495). -/
def Obligations.SelectorsReportSmallestBucket : Prop :=
  ∀ s : State, s.cfg.wf →
    (∃ k : Nat, isBucketOf s.cfg k s.latA ∧ exec .vbSelU s =
      .next (s.post .ok (BitVec.ofNat 64 k)
        (BitVec.ofNat 64 ((if k < s.cfg.k - 1 then k + 1 else s.cfg.k - 1) + s.cfg.width k)) false)) ∧
    (∃ (k : Nat) (m : Word), (m.toNat : Int) = zigzag s.latA.toInt ∧ isBucketOf s.cfg k m ∧ exec .vbSelS s =
      .next (s.post .ok (BitVec.ofNat 64 k)
        (BitVec.ofNat 64 ((if k < s.cfg.k - 1 then k + 1 else s.cfg.k - 1) + s.cfg.width k)) false))

/-- `VB_ENC_U` and `VB_ENC_S` append the smallest bucket's prefix and the magnitude in its width
(43_varbit.md R482, R483, R485, R486, R490, R491). -/
def Obligations.VarbitEncodersUseSmallestBucket : Prop :=
  encode .vbEncU = 0x28 ∧ encode .vbEncS = 0x29 ∧
  ∀ s : State, s.cfg.wf → s.storeWf →
    (∃ k : Nat, isBucketOf s.cfg k s.latA ∧ Appends (exec .vbEncU s) s s (varbitCode s.cfg k s.latA)) ∧
    (∃ (k : Nat) (m : Word), (m.toNat : Int) = zigzag s.latA.toInt ∧ isBucketOf s.cfg k m ∧
      Appends (exec .vbEncS s) s s (varbitCode s.cfg k m))

/-- `VB_DEC_U` and `VB_DEC_S` read whichever bucket the stream names, canonical or not, and raise `Truncated` in mid-prefix
and in mid-value (43_varbit.md R487, R488, R492, R493). -/
def Obligations.VarbitDecodersReadNamedBucket : Prop :=
  ∀ (s : State) (j : BitVec 4), s.cfg.wf → j.toNat < s.cfg.nDec →
    ((s.ctx j).act = false → exec (.vbDecU j) s = .next (s.post .noContext 0 0 false) ∧
      exec (.vbDecS j) s = .next (s.post .noContext 0 0 false)) ∧
    ((s.ctx j).act = true →
      (∀ (k : Nat) (m : Word), k < s.cfg.k → m.toNat < 2 ^ s.cfg.width k →
        s.payload.codeAt (s.ctx j).cur (varbitCode s.cfg k m) →
        let cur := (s.ctx j).cur + (varbitCode s.cfg k m).length
        let after : State := { s with dec := s.dec.set j.toNat { s.ctx j with cur := cur } }
        exec (.vbDecU j) s = .next (after.post .ok m (BitVec.ofNat 64 cur) false) ∧
        ∃ n : Word, zigzag n.toInt = (m.toNat : Int) ∧
          exec (.vbDecS j) s = .next (after.post .ok n (BitVec.ofNat 64 cur) false)) ∧
      (∀ k : Nat, k < s.cfg.k - 1 → (s.ctx j).cur + k = s.payload.vb →
        s.payload.codeAt (s.ctx j).cur (List.replicate k true) →
        exec (.vbDecU j) s = .next (s.post .truncated 0 0 false) ∧
        exec (.vbDecS j) s = .next (s.post .truncated 0 0 false)) ∧
      (∀ k : Nat, k < s.cfg.k → s.payload.codeAt (s.ctx j).cur (bucketCode s.cfg k) →
        s.payload.vb < (s.ctx j).cur + (bucketCode s.cfg k).length + s.cfg.width k →
        exec (.vbDecU j) s = .next (s.post .truncated 0 0 false) ∧
        exec (.vbDecS j) s = .next (s.post .truncated 0 0 false)))

/-- A value written by `UV_ENC`, `VB_ENC_U` or `VB_ENC_S` and read back from where it was written comes back, and the
reader ends at the new `VB` (95_test_vectors.md section 1.2). -/
def Obligations.CodecsRoundTrip : Prop :=
  ∀ (enc : Instr) (dec : BitVec 4 → Instr) (s t u : State) (j : BitVec 4), s.Inv → j.toNat < s.cfg.nDec →
    (enc = .uvEnc ∧ dec = .uvDec ∨ enc = .vbEncU ∧ dec = .vbDecU ∨ enc = .vbEncS ∧ dec = .vbDecS) →
    exec enc s = .next t → t.st = .ok → t.payload.vb < 2 ^ 64 →
    exec (.rdOpen j) (t.withOperands (BitVec.ofNat 64 s.payload.vb) 0) = .next u →
    ∃ v : State, exec (dec j) u = .next v ∧ v.st = .ok ∧ v.res0 = s.latA ∧
      v.res1 = BitVec.ofNat 64 t.payload.vb ∧ (v.ctx j).cur = t.payload.vb

/-! ## Control and the compressor -/

/-- `NOP` and `CLEAR` (40_control.md R400, R401). -/
def Obligations.NopAndClear : Prop :=
  encode .nop = 0x00 ∧ encode .clear = 0x01 ∧
  ∀ s : State,
    exec .nop s = .next (s.post .ok 0 0 false) ∧
    exec .clear s = .next (State.post
      { s with
        payload := { mem := [], wlen := 0, wfill := 0 }
        header := { hdr := 0, hlen := 0 }
        app := { valid := false, cnt := 0, pt := 0, pd := 0, pv := 0, wv := false, lz := 0, tz := 0 }
        dec := s.dec.map fun d => { d with act := false } }
      .ok 0 0 false)

/-- The state after `CLEAR` is that after reset, but for the host registers, and for the fields of the closed contexts
(70_reset_and_hazards.md R801). -/
def Obligations.ClearMatchesReset : Prop :=
  ∀ s : State, s.dec.length = s.cfg.nDec → ∃ t : State, exec .clear s = .next t ∧
    t.payload = (State.resetFor s.cfg).payload ∧ t.header = (State.resetFor s.cfg).header ∧
    t.app = (State.resetFor s.cfg).app ∧
    t.dec.map DecCtx.act = (State.resetFor s.cfg).dec.map DecCtx.act ∧
    t.opa = s.opa ∧ t.opb = s.opb ∧ t.ovr = s.ovr ∧
    ∀ j : BitVec 4, t.ctx j = { s.ctx j with act := false }

/-- `APP_INIT` begins an empty chunk with a complete header of count 0 and closes every context
(44_appender.md R520). -/
def Obligations.AppInitBeginsEmptyChunk : Prop :=
  encode .appInit = 0x30 ∧
  ∀ s : State, exec .appInit s = .next (State.post
    { s with
      payload := { mem := [], wlen := 0, wfill := 0 }
      header := { hdr := 0, hlen := s.cfg.hdrBytes }
      app := { valid := true, cnt := 0, pt := 0, pd := 0, pv := 0, wv := false, lz := 0, tz := 0 }
      dec := s.dec.map fun d => { d with act := false } }
    .ok 0 0 false)

/-- `APP_APPEND`'s refusals in their order: `NoChunk`, `LimitExceeded`, `OutOfOrder` by the signed comparison of the
timestamps, each changing nothing (44_appender.md R524, R525; 60_exceptions.md R720). -/
def Obligations.AppendRefusalsInOrder : Prop :=
  ∀ s : State,
    (s.app.valid = false → exec .appAppend s = .next (s.post .noChunk 0 0 false)) ∧
    (s.app.valid = true →
      (s.app.cnt.toNat = s.cfg.maxSamples → exec .appAppend s = .next (s.post .limitExceeded 0 0 false)) ∧
      (s.app.cnt.toNat ≠ s.cfg.maxSamples → s.app.cnt.toNat ≠ 0 → s.latA.toInt ≤ s.app.pt.toInt →
        exec .appAppend s = .next (s.post .outOfOrder 0 0 false)))

/-- The first sample: the timestamp's zig-zag magnitude in the selected bucket (or the escape bucket), then the raw value;
`A` starts its history (44_appender.md R525, R526). -/
def Obligations.FirstSampleIsRaw : Prop :=
  ∀ s : State, s.cfg.wf → s.storeWf → s.app.valid = true → s.app.cnt = 0 →
    ∃ (k : Nat) (m : Word), (m.toNat : Int) = zigzag s.latA.toInt ∧
      (s.cfg.firstTs = .select → isBucketOf s.cfg k m) ∧ (s.cfg.firstTs = .escape → k = s.cfg.k - 1) ∧
      Appends (exec .appAppend s) s
        { s with
          app := { s.app with cnt := 1, pt := s.latA, pd := 0, pv := s.latB, wv := false }
          header := { s.header with hdr := 1 } }
        (varbitCode s.cfg k m ++ msbBits s.latB 64)

/-- Every later sample: the delta (second sample) or double-delta, modulo 2^64, in its smallest bucket, then the value
field; `A` carries the new history (44_appender.md R525, R527 to R530, R532). -/
def Obligations.LaterSamplesAreDeltas : Prop :=
  ∀ s : State, s.cfg.wf → s.storeWf → s.app.valid = true → s.app.cnt ≠ 0 →
    s.app.cnt.toNat ≠ s.cfg.maxSamples → s.app.pt.toInt < s.latA.toInt →
    ∃ (k : Nat) (m : Word) (field : List Bool) (a : Appender),
      (m.toNat : Int) = zigzag
        (if s.app.cnt = 1 then s.latA - s.app.pt else s.latA - s.app.pt - s.app.pd).toInt ∧
      isBucketOf s.cfg k m ∧ EncodedValue s.cfg s.app s.latB field a ∧
      Appends (exec .appAppend s) s
        { s with
          app := { a with cnt := s.app.cnt + 1, pt := s.latA, pd := s.latA - s.app.pt }
          header := { s.header with hdr := s.app.cnt + 1 } }
        (varbitCode s.cfg k m ++ field)

/-- After the first sample, a repeated value costs one control bit `0` after the timestamp's code; from the third
sample on, a repeated step costs the smallest bucket's code of 0 before the value field, one bit where that bucket has
width 0; both together cost those two (44_appender.md R534). -/
def Obligations.SteadySeriesIsNearlyFree : Prop :=
  ∀ s : State, s.cfg.wf → s.storeWf → s.app.valid = true → s.app.cnt ≠ 0 →
    s.app.cnt.toNat ≠ s.cfg.maxSamples → s.app.pt.toInt < s.latA.toInt →
    let after (a : Appender) : State :=
      { s with
        app := { a with cnt := s.app.cnt + 1, pt := s.latA, pd := s.latA - s.app.pt }
        header := { s.header with hdr := s.app.cnt + 1 } }
    (s.latB = s.app.pv →
      ∃ (k : Nat) (m : Word),
        (m.toNat : Int) = zigzag
          (if s.app.cnt = 1 then s.latA - s.app.pt else s.latA - s.app.pt - s.app.pd).toInt ∧
        isBucketOf s.cfg k m ∧ Appends (exec .appAppend s) s (after s.app) (varbitCode s.cfg k m ++ [false])) ∧
    (s.app.cnt ≠ 1 → s.latA - s.app.pt = s.app.pd →
      (s.cfg.width 0 = 0 → varbitCode s.cfg 0 0 = [false]) ∧
      (∃ (field : List Bool) (a : Appender), EncodedValue s.cfg s.app s.latB field a ∧
        Appends (exec .appAppend s) s (after a) (varbitCode s.cfg 0 0 ++ field)) ∧
      (s.latB = s.app.pv →
        Appends (exec .appAppend s) s (after s.app) (varbitCode s.cfg 0 0 ++ [false])))

/-- With the spec's field widths a sample takes at most 136 bits when it is the first, 149 otherwise
(44_appender.md R531, 70_reset_and_hazards.md R821). -/
def Obligations.SampleLengthIsBounded : Prop :=
  ∀ s t : State, s.cfg.widths = Config.standard.widths → s.cfg.lzBits = 5 → s.cfg.mbBits = 6 →
    s.payload.wf → exec .appAppend s = .next t →
    t.payload.vb ≤ s.payload.vb + (if s.app.cnt = 0 then 136 else 149)

/-! ## The decompressor -/

/-- `ITER_INIT` latches the header's count and starts at bit 0; an incomplete header raises `Truncated` and closes the
context (45_iterator.md R560, 60_exceptions.md R712). -/
def Obligations.IterInitLatchesCount : Prop :=
  ∀ (s : State) (j : BitVec 4), j.toNat < s.cfg.nDec →
    (s.cfg.hdrBytes ≤ s.header.hlen → exec (.iterInit j) s = .next (State.post
      { s with dec := s.dec.set j.toNat
                { act := true, mode := .iter, n := s.header.hdr, i := 0, cur := 0, pt := 0, pd := 0, pv := 0,
                  wv := false, lz := 0, tz := 0 } }
      .ok s.header.hdr 0 false)) ∧
    (s.header.hlen < s.cfg.hdrBytes → exec (.iterInit j) s = .next (State.post
      { s with dec := s.dec.set j.toNat { s.ctx j with act := false } } .truncated 0 0 false))

/-- `ITER_NEXT` at the reached count posts `END` and changes nothing else (45_iterator.md R562); on a closed or a raw context it
raises `NoContext` and the context is closed (R566). -/
def Obligations.IterNextEndsOrRefuses : Prop :=
  ∀ (s : State) (j : BitVec 4), j.toNat < s.cfg.nDec →
    ((s.ctx j).act = true → (s.ctx j).mode = .iter → (s.ctx j).i = (s.ctx j).n →
      exec (.iterNext j) s = .next (s.post .ok 0 0 true)) ∧
    ((s.ctx j).act = false ∨ (s.ctx j).mode = .raw →
      exec (.iterNext j) s = .next (State.post
        { s with dec := s.dec.set j.toNat { s.ctx j with act := false } } .noContext 0 0 false))

/-- The first `ITER_NEXT` reads a varbit signed timestamp in whichever bucket the stream names, then 64 raw value bits
(45_iterator.md R561, R563). -/
def Obligations.IterNextReadsFirstSample : Prop :=
  ∀ (s : State) (j : BitVec 4) (k : Nat) (m v : Word), s.cfg.wf → j.toNat < s.cfg.nDec →
    (s.ctx j).act = true → (s.ctx j).mode = .iter → (s.ctx j).i = 0 → (s.ctx j).n ≠ 0 →
    k < s.cfg.k → m.toNat < 2 ^ s.cfg.width k →
    s.payload.codeAt (s.ctx j).cur (varbitCode s.cfg k m ++ msbBits v 64) →
    ∃ t : Word, zigzag t.toInt = (m.toNat : Int) ∧
      exec (.iterNext j) s = .next (State.post
        { s with dec := s.dec.set j.toNat
                  { s.ctx j with
                    cur := (s.ctx j).cur + (varbitCode s.cfg k m).length + 64
                    i := 1, pt := t, pd := 0, pv := v, wv := false } }
        .ok t v false)

/-- Every later `ITER_NEXT` reads a delta (second sample) or double-delta and a value field, and adds modulo 2^64
(45_iterator.md R561, R564, R565, R570). -/
def Obligations.IterNextReadsLaterSample : Prop :=
  ∀ (s : State) (j : BitVec 4) (k : Nat) (m : Word) (field : List Bool) (d : DecCtx),
    s.cfg.wf → j.toNat < s.cfg.nDec →
    (s.ctx j).act = true → (s.ctx j).mode = .iter → (s.ctx j).i ≠ 0 → (s.ctx j).i ≠ (s.ctx j).n →
    k < s.cfg.k → m.toNat < 2 ^ s.cfg.width k → DecodedValue s.cfg (s.ctx j) field d →
    s.payload.codeAt (s.ctx j).cur (varbitCode s.cfg k m ++ field) →
    ∃ e delta : Word, zigzag e.toInt = (m.toNat : Int) ∧
      delta = (if (s.ctx j).i = 1 then e else (s.ctx j).pd + e) ∧
      exec (.iterNext j) s = .next (State.post
        { s with dec := s.dec.set j.toNat
                  { d with
                    cur := (s.ctx j).cur + (varbitCode s.cfg k m ++ field).length
                    i := (s.ctx j).i + 1, pd := delta, pt := (s.ctx j).pt + delta } }
        .ok ((s.ctx j).pt + delta) d.pv false)

/-- What the decoder cannot read closes the context. A reuse with the window unset and a window wider than 64 bits raise
`Malformed` (45_iterator.md R571). A payload that ends anywhere inside a sample raises `Truncated` (R561, R570): inside the
timestamp's prefix or value, inside a first value's 64 bits, after a later sample's timestamp or first control bit, inside
the two window fields, and inside the meaningful bits of a reused or a new window. -/
def Obligations.IterNextFailuresCloseContext : Prop :=
  ∀ (s : State) (j : BitVec 4) (k : Nat) (m : Word), s.cfg.wf → j.toNat < s.cfg.nDec →
    (s.ctx j).act = true → (s.ctx j).mode = .iter → (s.ctx j).i ≠ (s.ctx j).n →
    k < s.cfg.k → m.toNat < 2 ^ s.cfg.width k →
    let closed : State := { s with dec := s.dec.set j.toNat { s.ctx j with act := false } }
    let endsInside (code : List Bool) : Prop := ∃ n < code.length,
      (s.ctx j).cur + n = s.payload.vb ∧ s.payload.codeAt (s.ctx j).cur (code.take n)
    ((s.ctx j).i ≠ 0 → (s.ctx j).wv = false →
      s.payload.codeAt (s.ctx j).cur (varbitCode s.cfg k m ++ [true, false]) →
      exec (.iterNext j) s = .next (closed.post .malformed 0 0 false)) ∧
    (∀ lz f : Nat, (s.ctx j).i ≠ 0 → lz < 2 ^ s.cfg.lzBits → f < 2 ^ s.cfg.mbBits →
      64 < lz + (if f = 0 then 64 else f) →
      s.payload.codeAt (s.ctx j).cur (varbitCode s.cfg k m ++ [true, true] ++
        msbBits (BitVec.ofNat 64 lz) s.cfg.lzBits ++ msbBits (BitVec.ofNat 64 f) s.cfg.mbBits) →
      exec (.iterNext j) s = .next (closed.post .malformed 0 0 false)) ∧
    (∀ v : Word, (s.ctx j).i = 0 → endsInside (varbitCode s.cfg k m ++ msbBits v 64) →
      exec (.iterNext j) s = .next (closed.post .truncated 0 0 false)) ∧
    (∀ lz f : Nat, (s.ctx j).i ≠ 0 →
      endsInside (varbitCode s.cfg k m ++ [true, true] ++ msbBits (BitVec.ofNat 64 lz) s.cfg.lzBits ++
        msbBits (BitVec.ofNat 64 f) s.cfg.mbBits) →
      exec (.iterNext j) s = .next (closed.post .truncated 0 0 false)) ∧
    (∀ (field : List Bool) (d : DecCtx), (s.ctx j).i ≠ 0 → DecodedValue s.cfg (s.ctx j) field d →
      endsInside (varbitCode s.cfg k m ++ field) →
      exec (.iterNext j) s = .next (closed.post .truncated 0 0 false))

/-- A sample that decodes from a store decodes the same from the store with more bits appended
(45_iterator.md R567, 20_memory.md R232). -/
def Obligations.AppendsKeepDecodedSamples : Prop :=
  ∀ (c : Config) (p : Payload) (out : List Bool) (d d' : DecCtx), p.wf →
    decodeSample c p d = .ok d' → decodeSample c (p.append out) d = .ok d'

/-! ## The chunk image -/

/-- `CH_LOADB`: while the payload is empty and the header incomplete the byte becomes the next header byte, in either byte
order; otherwise it is appended to the payload. The compressor gives up the chunk (46_chunk_image.md R600,
20_memory.md R211). -/
def Obligations.LoadFillsHeaderThenPayload : Prop :=
  encode .chLoadb = 0x34 ∧
  ∀ s : State, s.cfg.wf → s.storeWf →
    (s.payload.wlen = 0 ∧ s.header.hlen < s.cfg.hdrBytes →
      ∃ h : Header,
        exec .chLoadb s = .next (State.post
          { s with header := h, app := { s.app with valid := false } } .ok 0 0 false) ∧
        h.hlen = s.header.hlen + 1 ∧ headerByte s.cfg h.hdr s.header.hlen = s.latA.setWidth 8 ∧
        ∀ k < s.cfg.hdrBytes, k ≠ s.header.hlen → headerByte s.cfg h.hdr k = headerByte s.cfg s.header.hdr k) ∧
    (¬(s.payload.wlen = 0 ∧ s.header.hlen < s.cfg.hdrBytes) →
      Appends (exec .chLoadb s) s { s with app := { s.app with valid := false } } (msbBits s.latA 8))

/-- Header byte `h` is byte `h` of the count from the low end, or from the high end of the header, by `HDR_ORDER`
(20_memory.md R211). -/
def Obligations.HeaderByteOrder : Prop :=
  ∀ (c : Config) (hdr : Word) (h : Nat), h < c.hdrBytes →
    (c.hdrOrder = .le → (headerByte c hdr h).toNat = hdr.toNat / 2 ^ (8 * h) % 256) ∧
    (c.hdrOrder = .be → (headerByte c hdr h).toNat = hdr.toNat / 2 ^ (8 * (c.hdrBytes - 1 - h)) % 256)

/-- `CH_LEN` reports the image's length and `CH_RDB` its bytes, header first, then payload; an index at or above the
length raises `BadIndex` (20_memory.md R210; 46_chunk_image.md R601, R602). -/
def Obligations.ImageIsHeaderThenPayload : Prop :=
  encode .chLen = 0x35 ∧ encode .chRdb = 0x36 ∧
  ∀ s : State, s.image.length = s.header.hlen + s.payload.wlen ∧
    exec .chLen s =
      .next (s.post .ok (BitVec.ofNat 64 s.image.length) (BitVec.ofNat 64 s.header.hlen) false) ∧
    (∀ b, s.image[s.latA.toNat]? = some b →
      exec .chRdb s = .next (s.post .ok (b.setWidth 64) 0 false)) ∧
    (s.image[s.latA.toNat]? = none → exec .chRdb s = .next (s.post .badIndex 0 0 false)) ∧
    (∀ k, k < s.header.hlen → s.image[k]? = some (headerByte s.cfg s.header.hdr k)) ∧
    (∀ k, k < s.payload.wlen → s.image[s.header.hlen + k]? = some (s.payload.mem.read k))

/-! ## Whole chunks -/

/-- Round trip: after `APP_INIT` and any number of successful appends, an iterator returns exactly the appended samples and
then the end of the sequence, on every well-formed configuration (45_iterator.md R572). -/
def Obligations.ChunkRoundTrip : Prop :=
  ∀ (s s₁ s₂ : State) (j : BitVec 4) (xs : List (Word × Word)), s.Inv → j.toNat < s.cfg.nDec →
    exec .appInit s = .next s₁ → AppendsAll s₁ xs s₂ → IteratesTo s₂ j xs

/-- A chunk's image, loaded byte by byte after `CLEAR`, reads back the same and iterates to the same samples
(46_chunk_image.md R603). -/
def Obligations.ReloadedImageIterates : Prop :=
  ∀ (s s₁ s₂ s₃ s₄ : State) (j : BitVec 4) (xs : List (Word × Word)), s.Inv → j.toNat < s.cfg.nDec →
    exec .appInit s = .next s₁ → AppendsAll s₁ xs s₂ → exec .clear s₂ = .next s₃ →
    LoadsAll s₃ s₂.image s₄ → s₄.image = s₂.image ∧ IteratesTo s₄ j xs

/-- A chunk's image less its last bytes never yields a wrong sample: `ITER_INIT` raises `Truncated`, or the iterator returns
fewer samples than were appended, each of them right, and then raises `Truncated` (45_iterator.md R573). -/
def Obligations.TruncatedImageNeverMisleads : Prop :=
  ∀ (s s₁ s₂ s₃ s₄ s₅ : State) (j : BitVec 4) (xs : List (Word × Word)) (cut : Nat),
    s.Inv → j.toNat < s.cfg.nDec →
    exec .appInit s = .next s₁ → AppendsAll s₁ xs s₂ → exec .clear s₂ = .next s₃ →
    0 < cut → cut ≤ s₂.image.length → LoadsAll s₃ (s₂.image.take (s₂.image.length - cut)) s₄ →
    exec (.iterInit j) s₄ = .next s₅ →
    s₅.st = .truncated ∨
      s₅.st = .ok ∧ ∃ (ys zs : List (Word × Word)) (t u : State), xs = ys ++ zs ∧ zs ≠ [] ∧
        YieldsAll j s₅ ys t ∧ exec (.iterNext j) t = .next u ∧ u.st = .truncated
end

