-- ==== Sys2Proof/Laws/Memory.lean ====
section
/-! SUPPORT. Memory: a read after a write, and the canonical form, which every operation keeps. -/

namespace Sys2Proof.Machine

@[simp] theorem Memory.read_nil (a : Nat) : Memory.read [] a = Memory.unlisted := rfl

theorem Memory.read_cons (b a : Nat) (v : Byte) (rest : Memory) :
    Memory.read ((b, v) :: rest) a = if a = b then v else Memory.read rest a := rfl

/-- An index that no cell lists reads as unlisted. -/
theorem Memory.read_of_not_listed {m : Memory} {a : Nat} (h : ∀ c ∈ m, c.1 ≠ a) :
    Memory.read m a = Memory.unlisted := by
  induction m with
  | nil => rfl
  | cons c rest ih =>
    obtain ⟨b, v⟩ := c
    have hb : a ≠ b := fun e => h (b, v) (by simp) e.symm
    rw [Memory.read_cons, if_neg hb]
    exact ih fun c hc => h c (by simp [hc])

/-- The cells after the first of a canonical memory are canonical, with indices above the first's. -/
theorem Memory.wf_cons {b : Nat} {v : Byte} {rest : Memory} :
    Memory.wf ((b, v) :: rest) ↔ (∀ c ∈ rest, b < c.1) ∧ v ≠ Memory.unlisted ∧ Memory.wf rest := by
  simp only [Memory.wf, List.pairwise_cons, List.forall_mem_cons]
  tauto

/-- Every cell of a memory after a write was there before, or is the byte written. -/
theorem Memory.mem_write {m : Memory} {a : Nat} {v : Byte} {c : Host.Cell} (h : c ∈ Memory.write m a v) :
    c ∈ m ∨ c = (a, v) := by
  induction m with
  | nil => unfold Memory.write at h; split at h <;> simp_all
  | cons d rest ih =>
    obtain ⟨b, w⟩ := d
    unfold Memory.write at h
    split at h
    · split at h <;> simp_all <;> tauto
    · split at h
      · split at h <;> simp_all <;> tauto
      · simp only [List.mem_cons] at h ⊢
        rcases h with h | h
        · exact .inl (.inl h)
        · exact (ih h).imp .inr id

/-- A write keeps the canonical form. -/
theorem Memory.write_wf {m : Memory} (h : Memory.wf m) (a : Nat) (v : Byte) :
    Memory.wf (Memory.write m a v) := by
  induction m with
  | nil => unfold Memory.write; split <;> simp_all [Memory.wf]
  | cons d rest ih =>
    obtain ⟨b, w⟩ := d
    obtain ⟨hb, hw, hr⟩ := Memory.wf_cons.1 h
    unfold Memory.write
    split
    · rename_i hab
      split
      · exact h
      · rename_i hv
        refine Memory.wf_cons.2 ⟨?_, hv, h⟩
        intro c hc
        rcases List.mem_cons.1 hc with rfl | hc
        · exact hab
        · exact hab.trans (hb c hc)
    · split
      · rename_i hab
        subst hab
        split
        · exact hr
        · rename_i hv
          exact Memory.wf_cons.2 ⟨hb, hv, hr⟩
      · rename_i h1 h2
        refine Memory.wf_cons.2 ⟨?_, hw, ih hr⟩
        intro c hc
        rcases Memory.mem_write hc with hc | rfl
        · exact hb c hc
        · show b < a
          omega

/-- A read where a write went gives the byte written; any other index reads as before. -/
theorem Memory.read_write {m : Memory} (h : Memory.wf m) (a a' : Nat) (v : Byte) :
    Memory.read (Memory.write m a v) a' = if a' = a then v else Memory.read m a' := by
  induction m with
  | nil =>
    unfold Memory.write
    split
    · rename_i hv; subst hv; simp
    · simp [Memory.read_cons]
  | cons d rest ih =>
    obtain ⟨b, w⟩ := d
    obtain ⟨hb, hw, hr⟩ := Memory.wf_cons.1 h
    have below : ∀ x, x ≤ b → Memory.read rest x = Memory.unlisted := fun x hx =>
      Memory.read_of_not_listed fun c hc e => by have := hb c hc; omega
    unfold Memory.write
    split
    · rename_i hab
      split
      · rename_i hv
        subst hv
        by_cases e : a' = a
        · subst e
          rw [if_pos rfl, Memory.read_cons, if_neg (by omega), below _ (by omega)]
        · rw [if_neg e]
      · simp [Memory.read_cons]
    · split
      · rename_i hab
        subst hab
        split
        · rename_i hv
          subst hv
          by_cases e : a' = a
          · subst e; rw [if_pos rfl, below _ (le_refl _)]
          · rw [if_neg e, Memory.read_cons, if_neg e]
        · by_cases e : a' = a <;> simp [Memory.read_cons, e]
      · rename_i h1 h2
        rw [Memory.read_cons, Memory.read_cons, ih hr]
        by_cases e : a' = b
        · subst e; simp [show ¬a' = a by omega]
        · simp [e]

/-- Every index of a memory after a write is an old one or the one written. -/
theorem Memory.write_below {m : Memory} {a n : Nat} {v : Byte} (h : ∀ c ∈ m, c.1 < n) (ha : a < n) :
    ∀ c ∈ Memory.write m a v, c.1 < n := by
  intro c hc
  rcases Memory.mem_write hc with hc | rfl
  · exact h c hc
  · exact ha

end Sys2Proof.Machine
end

