-- ==== Sys2Proof/Laws/Payload.lean ====
section
/-! SUPPORT. The payload store: what the commit of one bit does (20_memory.md R202), and what the stream
primitives answer (41_bitstream.md R420, R421). -/

namespace Sys2Proof.Machine

/-! ### Bits of a byte -/

theorem setBit_getLsbD (v : Byte) (i k : Nat) (b : Bool) (hi : i < 8) :
    (setBit v i b).getLsbD k = if k = i then b else v.getLsbD k := by
  by_cases hk : k < 8
  · unfold setBit
    by_cases e : k = i
    · subst e
      cases b <;> simp [hk]
    · by_cases h : k < i
      · cases b <;> simp [hk, e, h]
      · have h0 : k - i ≠ 0 := by omega
        cases b <;> simp [hk, e, h, h0]
  · rw [BitVec.getLsbD_of_ge _ _ (by omega), BitVec.getLsbD_of_ge _ _ (by omega),
      if_neg (by omega)]

/-- A byte's low bits are 0 below position `8 - w` exactly when the byte shifted up by `w` is 0. -/
theorem shiftLeft_eq_zero_iff (v : Byte) (w : Nat) :
    v <<< w = 0 ↔ ∀ k, k + w < 8 → v.getLsbD k = false := by
  constructor
  · intro h k hk
    have := congrArg (fun x : Byte => x.getLsbD (k + w)) h
    rw [BitVec.getLsbD_shiftLeft, Nat.add_sub_cancel] at this
    simpa only [hk, decide_true, show ¬(k + w < w) by omega, decide_false, Bool.not_false, Bool.true_and,
      BitVec.ofNat_eq_ofNat, BitVec.getLsbD_zero] using this
  · intro h
    ext k hk
    by_cases hw : k < w
    · simp [hw]
    · have := h (k - w) (by omega)
      simp [hw, ← BitVec.getLsbD_eq_getElem, this]

/-! ### The invariant of the store, by parts -/

theorem Payload.wf_iff (p : Payload) :
    p.wf ↔ Memory.wf p.mem ∧ (p.wlen = 0 ↔ p.wfill = 0) ∧ p.wfill ≤ 8 ∧ (∀ c ∈ p.mem, c.1 < p.wlen) ∧
      ∀ k, k + p.wfill < 8 → (p.mem.read (p.wlen - 1)).getLsbD k = false := by
  simp only [Payload.wf, shiftLeft_eq_zero_iff]

theorem Payload.empty_wf : Payload.empty.wf := by decide

/-- A byte at or above `WLEN` reads as unlisted. -/
theorem Payload.read_of_ge {p : Payload} (h : p.wf) {a : Nat} (ha : p.wlen ≤ a) :
    p.mem.read a = Memory.unlisted :=
  Memory.read_of_not_listed fun c hc e => by have := h.2.2.2.1 c hc; omega

/-! ### The commit of one bit -/

/-- Opening a byte where one is due changes no byte's value, and leaves room for a bit. -/
theorem Payload.openByte_spec {p : Payload} (h : p.wf) :
    Memory.wf p.openByte.mem ∧ 0 < p.openByte.wlen ∧ p.openByte.wfill < 8 ∧
      (∀ c ∈ p.openByte.mem, c.1 < p.openByte.wlen) ∧
      (∀ k, k + p.openByte.wfill < 8 → (p.openByte.mem.read (p.openByte.wlen - 1)).getLsbD k = false) ∧
      (∀ a, p.openByte.mem.read a = p.mem.read a) ∧
      p.vb = 8 * (p.openByte.wlen - 1) + p.openByte.wfill := by
  have hge : ∀ a, p.wlen ≤ a → p.mem.read a = 0 := fun a ha => Payload.read_of_ge h ha
  rw [Payload.wf_iff] at h
  obtain ⟨hm, hz, hf, hb, hp⟩ := h
  unfold Payload.openByte
  split
  · rename_i hc
    have hr : ∀ a, Memory.read (p.mem.write p.wlen 0) a = p.mem.read a := by
      intro a
      rw [Memory.read_write hm]
      split
      · rename_i e; subst e; exact (hge _ (le_refl _)).symm
      · rfl
    refine ⟨Memory.write_wf hm _ _, by simp, by simp, ?_, ?_, hr, ?_⟩
    · exact Memory.write_below (fun c hc => Nat.lt_succ_of_lt (hb c hc)) (Nat.lt_succ_self _)
    · intro k _
      show (Memory.read (p.mem.write p.wlen 0) p.wlen).getLsbD k = false
      rw [hr, hge _ (le_refl _)]
      exact BitVec.getLsbD_zero
    · simp only [Payload.vb]
      split <;> omega
  · rename_i hc
    push Not at hc
    refine ⟨hm, by omega, by omega, hb, hp, fun _ => rfl, ?_⟩
    simp only [Payload.vb, if_neg hc.1]

/-- What the commit of one bit does: the store stays well formed, `VB` grows by one, the new stream bit is the
bit committed and no other changes, and no byte but the one that holds it changes (20_memory.md R202). -/
theorem Payload.appendBit_spec {p : Payload} (h : p.wf) (b : Bool) :
    (p.appendBit b).wf ∧ (p.appendBit b).vb = p.vb + 1 ∧
      (∀ q, (p.appendBit b).streamBit q = if q = p.vb then b else p.streamBit q) ∧
      ∀ a, a ≠ p.vb / 8 → (p.appendBit b).mem.read a = p.mem.read a := by
  obtain ⟨hm, hw, hf, hb, hp, hr, hv⟩ := Payload.openByte_spec h
  have hread : ∀ a, (p.appendBit b).mem.read a =
      if a = p.openByte.wlen - 1 then
        setBit (p.openByte.mem.read (p.openByte.wlen - 1)) (7 - p.openByte.wfill) b
      else p.openByte.mem.read a := fun a => Memory.read_write hm _ _ _
  have hlen : (p.appendBit b).wlen = p.openByte.wlen := rfl
  have hfill : (p.appendBit b).wfill = p.openByte.wfill + 1 := rfl
  have hdiv : p.vb / 8 = p.openByte.wlen - 1 := by omega
  have hmod : p.vb % 8 = p.openByte.wfill := by omega
  refine ⟨?_, ?_, ?_, ?_⟩
  · rw [Payload.wf_iff]
    refine ⟨Memory.write_wf hm _ _, by omega, by omega, ?_, ?_⟩
    · exact Memory.write_below hb (by omega)
    · intro k hk
      rw [hlen, hread, if_pos rfl, setBit_getLsbD _ _ _ _ (by omega), if_neg (by omega)]
      exact hp k (by omega)
  · unfold Payload.vb
    rw [hlen, hfill, if_neg (by omega)]
    have := hv
    unfold Payload.vb at this
    omega
  · intro q
    unfold Payload.streamBit
    rw [hread]
    by_cases e : q / 8 = p.openByte.wlen - 1
    · rw [if_pos e, setBit_getLsbD _ _ _ _ (by omega), hr, e]
      by_cases e2 : q = p.vb
      · rw [if_pos (by omega), if_pos e2]
      · rw [if_neg (by omega), if_neg e2]
    · rw [if_neg e, hr, if_neg (by omega)]
  · intro a ha
    rw [hread, if_neg (by omega), hr]

@[simp] theorem Payload.append_nil (p : Payload) : p.append [] = p := rfl

@[simp] theorem Payload.append_cons (p : Payload) (b : Bool) (out : List Bool) :
    p.append (b :: out) = (p.appendBit b).append out := rfl

/-! ### The stream primitives -/

@[simp] theorem putBits_length (v : Word) (n : Nat) : (putBits v n).length = n := by
  induction n with
  | zero => rfl
  | succ n ih => simp [putBits, ih]

/-- `PutBits` writes the low `n` bits, most significant first (41_bitstream.md R420). -/
theorem putBits_eq_msbBits (v : Word) (n : Nat) : putBits v n = msbBits v n := by
  induction n with
  | zero => rfl
  | succ n ih =>
    rw [putBits, ih, msbBits, msbBits, List.range_succ_eq_map, List.map_cons, List.map_map]
    simp only [Nat.add_sub_cancel, Nat.sub_zero, List.cons.injEq, true_and]
    apply List.map_congr_left
    intro k hk
    simp only [Function.comp]
    congr 1
    omega

/-- What `GetBits` answers: `Truncated` past `VB`, else the bits gathered and the cursor after them
(41_bitstream.md R421). -/
theorem Payload.getBits_cases (p : Payload) (cur n : Nat) :
    (p.vb < cur + n ∧ p.getBits cur n = .error .truncated) ∨
      (cur + n ≤ p.vb ∧ p.getBits cur n = .ok (p.readBits cur n 0, cur + n)) := by
  unfold Payload.getBits
  split
  · exact .inl ⟨by omega, rfl⟩
  · exact .inr ⟨by omega, rfl⟩

/-- Bit `k` of what `n` steps of the shift gather: stream bit `q + n - 1 - k` for `k < n`, then the bits of the
start value. -/
theorem Payload.readBits_getLsbD (p : Payload) (q n : Nat) (r : Word) (k : Nat) (hk : k < 64) :
    (p.readBits q n r).getLsbD k =
      if k < n then p.streamBit (q + (n - 1 - k)) else r.getLsbD (k - n) := by
  induction n generalizing q r with
  | zero => simp [Payload.readBits]
  | succ n ih =>
    rw [Payload.readBits, ih]
    by_cases h : k < n
    · rw [if_pos h, if_pos (by omega)]
      congr 1
      omega
    · rw [if_neg h]
      by_cases e : k = n
      · subst e
        simp
      · rw [if_neg (by omega)]
        simp [show k - n < 64 by omega, show k - n ≠ 0 by omega]
        congr 1

end Sys2Proof.Machine
end

