-- ==== Sys2Proof/Laws/State.lean ====
section
/-! SUPPORT. For every update of State, what each field is after it: true by rfl, for simp. -/

namespace Sys2Proof.Machine

variable (s : State)

/-! ### post -/

@[simp] theorem State.post_cfg (st : Status) (r0 r1 : Word) (e : Bool) : (s.post st r0 r1 e).cfg = s.cfg := rfl
@[simp] theorem State.post_cmd (st : Status) (r0 r1 : Word) (e : Bool) : (s.post st r0 r1 e).cmd = s.cmd := rfl
@[simp] theorem State.post_opa (st : Status) (r0 r1 : Word) (e : Bool) : (s.post st r0 r1 e).opa = s.opa := rfl
@[simp] theorem State.post_opb (st : Status) (r0 r1 : Word) (e : Bool) : (s.post st r0 r1 e).opb = s.opb := rfl
@[simp] theorem State.post_latA (st : Status) (r0 r1 : Word) (e : Bool) : (s.post st r0 r1 e).latA = s.latA := rfl
@[simp] theorem State.post_latB (st : Status) (r0 r1 : Word) (e : Bool) : (s.post st r0 r1 e).latB = s.latB := rfl
@[simp] theorem State.post_res0 (st : Status) (r0 r1 : Word) (e : Bool) : (s.post st r0 r1 e).res0 = r0 := rfl
@[simp] theorem State.post_res1 (st : Status) (r0 r1 : Word) (e : Bool) : (s.post st r0 r1 e).res1 = r1 := rfl
@[simp] theorem State.post_st (st : Status) (r0 r1 : Word) (e : Bool) : (s.post st r0 r1 e).st = st := rfl
@[simp] theorem State.post_endFlag (st : Status) (r0 r1 : Word) (e : Bool) : (s.post st r0 r1 e).endFlag = e := rfl
@[simp] theorem State.post_busy (st : Status) (r0 r1 : Word) (e : Bool) : (s.post st r0 r1 e).busy = false := rfl
@[simp] theorem State.post_ovr (st : Status) (r0 r1 : Word) (e : Bool) : (s.post st r0 r1 e).ovr = s.ovr := rfl
@[simp] theorem State.post_payload (st : Status) (r0 r1 : Word) (e : Bool) : (s.post st r0 r1 e).payload = s.payload := rfl
@[simp] theorem State.post_header (st : Status) (r0 r1 : Word) (e : Bool) : (s.post st r0 r1 e).header = s.header := rfl
@[simp] theorem State.post_app (st : Status) (r0 r1 : Word) (e : Bool) : (s.post st r0 r1 e).app = s.app := rfl
@[simp] theorem State.post_dec (st : Status) (r0 r1 : Word) (e : Bool) : (s.post st r0 r1 e).dec = s.dec := rfl
@[simp] theorem State.post_inReset (st : Status) (r0 r1 : Word) (e : Bool) : (s.post st r0 r1 e).inReset = s.inReset := rfl
@[simp] theorem State.post_host (st : Status) (r0 r1 : Word) (e : Bool) : (s.post st r0 r1 e).host = s.host := rfl
@[simp] theorem State.post_hostData (st : Status) (r0 r1 : Word) (e : Bool) : (s.post st r0 r1 e).hostData = s.hostData := rfl

/-! ### setCtx -/

@[simp] theorem State.setCtx_cfg (j : BitVec 4) (d : DecCtx) : (s.setCtx j d).cfg = s.cfg := rfl
@[simp] theorem State.setCtx_cmd (j : BitVec 4) (d : DecCtx) : (s.setCtx j d).cmd = s.cmd := rfl
@[simp] theorem State.setCtx_opa (j : BitVec 4) (d : DecCtx) : (s.setCtx j d).opa = s.opa := rfl
@[simp] theorem State.setCtx_opb (j : BitVec 4) (d : DecCtx) : (s.setCtx j d).opb = s.opb := rfl
@[simp] theorem State.setCtx_latA (j : BitVec 4) (d : DecCtx) : (s.setCtx j d).latA = s.latA := rfl
@[simp] theorem State.setCtx_latB (j : BitVec 4) (d : DecCtx) : (s.setCtx j d).latB = s.latB := rfl
@[simp] theorem State.setCtx_res0 (j : BitVec 4) (d : DecCtx) : (s.setCtx j d).res0 = s.res0 := rfl
@[simp] theorem State.setCtx_res1 (j : BitVec 4) (d : DecCtx) : (s.setCtx j d).res1 = s.res1 := rfl
@[simp] theorem State.setCtx_st (j : BitVec 4) (d : DecCtx) : (s.setCtx j d).st = s.st := rfl
@[simp] theorem State.setCtx_endFlag (j : BitVec 4) (d : DecCtx) : (s.setCtx j d).endFlag = s.endFlag := rfl
@[simp] theorem State.setCtx_busy (j : BitVec 4) (d : DecCtx) : (s.setCtx j d).busy = s.busy := rfl
@[simp] theorem State.setCtx_ovr (j : BitVec 4) (d : DecCtx) : (s.setCtx j d).ovr = s.ovr := rfl
@[simp] theorem State.setCtx_payload (j : BitVec 4) (d : DecCtx) : (s.setCtx j d).payload = s.payload := rfl
@[simp] theorem State.setCtx_header (j : BitVec 4) (d : DecCtx) : (s.setCtx j d).header = s.header := rfl
@[simp] theorem State.setCtx_app (j : BitVec 4) (d : DecCtx) : (s.setCtx j d).app = s.app := rfl
@[simp] theorem State.setCtx_dec (j : BitVec 4) (d : DecCtx) : (s.setCtx j d).dec = s.dec.set j.toNat d := rfl
@[simp] theorem State.setCtx_inReset (j : BitVec 4) (d : DecCtx) : (s.setCtx j d).inReset = s.inReset := rfl
@[simp] theorem State.setCtx_host (j : BitVec 4) (d : DecCtx) : (s.setCtx j d).host = s.host := rfl
@[simp] theorem State.setCtx_hostData (j : BitVec 4) (d : DecCtx) : (s.setCtx j d).hostData = s.hostData := rfl

/-! ### closeCtx -/

@[simp] theorem State.closeCtx_cfg (j : BitVec 4) : (s.closeCtx j).cfg = s.cfg := rfl
@[simp] theorem State.closeCtx_cmd (j : BitVec 4) : (s.closeCtx j).cmd = s.cmd := rfl
@[simp] theorem State.closeCtx_opa (j : BitVec 4) : (s.closeCtx j).opa = s.opa := rfl
@[simp] theorem State.closeCtx_opb (j : BitVec 4) : (s.closeCtx j).opb = s.opb := rfl
@[simp] theorem State.closeCtx_latA (j : BitVec 4) : (s.closeCtx j).latA = s.latA := rfl
@[simp] theorem State.closeCtx_latB (j : BitVec 4) : (s.closeCtx j).latB = s.latB := rfl
@[simp] theorem State.closeCtx_res0 (j : BitVec 4) : (s.closeCtx j).res0 = s.res0 := rfl
@[simp] theorem State.closeCtx_res1 (j : BitVec 4) : (s.closeCtx j).res1 = s.res1 := rfl
@[simp] theorem State.closeCtx_st (j : BitVec 4) : (s.closeCtx j).st = s.st := rfl
@[simp] theorem State.closeCtx_endFlag (j : BitVec 4) : (s.closeCtx j).endFlag = s.endFlag := rfl
@[simp] theorem State.closeCtx_busy (j : BitVec 4) : (s.closeCtx j).busy = s.busy := rfl
@[simp] theorem State.closeCtx_ovr (j : BitVec 4) : (s.closeCtx j).ovr = s.ovr := rfl
@[simp] theorem State.closeCtx_payload (j : BitVec 4) : (s.closeCtx j).payload = s.payload := rfl
@[simp] theorem State.closeCtx_header (j : BitVec 4) : (s.closeCtx j).header = s.header := rfl
@[simp] theorem State.closeCtx_app (j : BitVec 4) : (s.closeCtx j).app = s.app := rfl
@[simp] theorem State.closeCtx_dec (j : BitVec 4) : (s.closeCtx j).dec = s.dec.set j.toNat { s.ctx j with act := false } := rfl
@[simp] theorem State.closeCtx_inReset (j : BitVec 4) : (s.closeCtx j).inReset = s.inReset := rfl
@[simp] theorem State.closeCtx_host (j : BitVec 4) : (s.closeCtx j).host = s.host := rfl
@[simp] theorem State.closeCtx_hostData (j : BitVec 4) : (s.closeCtx j).hostData = s.hostData := rfl

/-! ### closeAll -/

@[simp] theorem State.closeAll_cfg : (s.closeAll).cfg = s.cfg := rfl
@[simp] theorem State.closeAll_cmd : (s.closeAll).cmd = s.cmd := rfl
@[simp] theorem State.closeAll_opa : (s.closeAll).opa = s.opa := rfl
@[simp] theorem State.closeAll_opb : (s.closeAll).opb = s.opb := rfl
@[simp] theorem State.closeAll_latA : (s.closeAll).latA = s.latA := rfl
@[simp] theorem State.closeAll_latB : (s.closeAll).latB = s.latB := rfl
@[simp] theorem State.closeAll_res0 : (s.closeAll).res0 = s.res0 := rfl
@[simp] theorem State.closeAll_res1 : (s.closeAll).res1 = s.res1 := rfl
@[simp] theorem State.closeAll_st : (s.closeAll).st = s.st := rfl
@[simp] theorem State.closeAll_endFlag : (s.closeAll).endFlag = s.endFlag := rfl
@[simp] theorem State.closeAll_busy : (s.closeAll).busy = s.busy := rfl
@[simp] theorem State.closeAll_ovr : (s.closeAll).ovr = s.ovr := rfl
@[simp] theorem State.closeAll_payload : (s.closeAll).payload = s.payload := rfl
@[simp] theorem State.closeAll_header : (s.closeAll).header = s.header := rfl
@[simp] theorem State.closeAll_app : (s.closeAll).app = s.app := rfl
@[simp] theorem State.closeAll_dec : (s.closeAll).dec = s.dec.map fun c => { c with act := false } := rfl
@[simp] theorem State.closeAll_inReset : (s.closeAll).inReset = s.inReset := rfl
@[simp] theorem State.closeAll_host : (s.closeAll).host = s.host := rfl
@[simp] theorem State.closeAll_hostData : (s.closeAll).hostData = s.hostData := rfl

/-! ### cleared -/

@[simp] theorem State.cleared_cfg : (s.cleared).cfg = s.cfg := rfl
@[simp] theorem State.cleared_cmd : (s.cleared).cmd = s.cmd := rfl
@[simp] theorem State.cleared_opa : (s.cleared).opa = s.opa := rfl
@[simp] theorem State.cleared_opb : (s.cleared).opb = s.opb := rfl
@[simp] theorem State.cleared_latA : (s.cleared).latA = s.latA := rfl
@[simp] theorem State.cleared_latB : (s.cleared).latB = s.latB := rfl
@[simp] theorem State.cleared_res0 : (s.cleared).res0 = s.res0 := rfl
@[simp] theorem State.cleared_res1 : (s.cleared).res1 = s.res1 := rfl
@[simp] theorem State.cleared_st : (s.cleared).st = s.st := rfl
@[simp] theorem State.cleared_endFlag : (s.cleared).endFlag = s.endFlag := rfl
@[simp] theorem State.cleared_busy : (s.cleared).busy = s.busy := rfl
@[simp] theorem State.cleared_ovr : (s.cleared).ovr = s.ovr := rfl
@[simp] theorem State.cleared_payload : (s.cleared).payload = Payload.empty := rfl
@[simp] theorem State.cleared_header : (s.cleared).header = { hdr := 0, hlen := 0 } := rfl
@[simp] theorem State.cleared_app : (s.cleared).app = Appender.initial := rfl
@[simp] theorem State.cleared_dec : (s.cleared).dec = s.dec.map fun c => { c with act := false } := rfl
@[simp] theorem State.cleared_inReset : (s.cleared).inReset = s.inReset := rfl
@[simp] theorem State.cleared_host : (s.cleared).host = s.host := rfl
@[simp] theorem State.cleared_hostData : (s.cleared).hostData = s.hostData := rfl

/-! ### disowned -/

@[simp] theorem State.disowned_cfg : (s.disowned).cfg = s.cfg := rfl
@[simp] theorem State.disowned_cmd : (s.disowned).cmd = s.cmd := rfl
@[simp] theorem State.disowned_opa : (s.disowned).opa = s.opa := rfl
@[simp] theorem State.disowned_opb : (s.disowned).opb = s.opb := rfl
@[simp] theorem State.disowned_latA : (s.disowned).latA = s.latA := rfl
@[simp] theorem State.disowned_latB : (s.disowned).latB = s.latB := rfl
@[simp] theorem State.disowned_res0 : (s.disowned).res0 = s.res0 := rfl
@[simp] theorem State.disowned_res1 : (s.disowned).res1 = s.res1 := rfl
@[simp] theorem State.disowned_st : (s.disowned).st = s.st := rfl
@[simp] theorem State.disowned_endFlag : (s.disowned).endFlag = s.endFlag := rfl
@[simp] theorem State.disowned_busy : (s.disowned).busy = s.busy := rfl
@[simp] theorem State.disowned_ovr : (s.disowned).ovr = s.ovr := rfl
@[simp] theorem State.disowned_payload : (s.disowned).payload = s.payload := rfl
@[simp] theorem State.disowned_header : (s.disowned).header = s.header := rfl
@[simp] theorem State.disowned_app : (s.disowned).app = { s.app with valid := false } := rfl
@[simp] theorem State.disowned_dec : (s.disowned).dec = s.dec := rfl
@[simp] theorem State.disowned_inReset : (s.disowned).inReset = s.inReset := rfl
@[simp] theorem State.disowned_host : (s.disowned).host = s.host := rfl
@[simp] theorem State.disowned_hostData : (s.disowned).hostData = s.hostData := rfl

/-! ### accept -/

@[simp] theorem State.accept_cfg (w : CmdWord) : (s.accept w).cfg = s.cfg := rfl
@[simp] theorem State.accept_cmd (w : CmdWord) : (s.accept w).cmd = w := rfl
@[simp] theorem State.accept_opa (w : CmdWord) : (s.accept w).opa = s.opa := rfl
@[simp] theorem State.accept_opb (w : CmdWord) : (s.accept w).opb = s.opb := rfl
@[simp] theorem State.accept_latA (w : CmdWord) : (s.accept w).latA = s.opa := rfl
@[simp] theorem State.accept_latB (w : CmdWord) : (s.accept w).latB = s.opb := rfl
@[simp] theorem State.accept_res0 (w : CmdWord) : (s.accept w).res0 = s.res0 := rfl
@[simp] theorem State.accept_res1 (w : CmdWord) : (s.accept w).res1 = s.res1 := rfl
@[simp] theorem State.accept_st (w : CmdWord) : (s.accept w).st = s.st := rfl
@[simp] theorem State.accept_endFlag (w : CmdWord) : (s.accept w).endFlag = s.endFlag := rfl
@[simp] theorem State.accept_busy (w : CmdWord) : (s.accept w).busy = true := rfl
@[simp] theorem State.accept_ovr (w : CmdWord) : (s.accept w).ovr = s.ovr := rfl
@[simp] theorem State.accept_payload (w : CmdWord) : (s.accept w).payload = s.payload := rfl
@[simp] theorem State.accept_header (w : CmdWord) : (s.accept w).header = s.header := rfl
@[simp] theorem State.accept_app (w : CmdWord) : (s.accept w).app = s.app := rfl
@[simp] theorem State.accept_dec (w : CmdWord) : (s.accept w).dec = s.dec := rfl
@[simp] theorem State.accept_inReset (w : CmdWord) : (s.accept w).inReset = s.inReset := rfl
@[simp] theorem State.accept_host (w : CmdWord) : (s.accept w).host = s.host := rfl
@[simp] theorem State.accept_hostData (w : CmdWord) : (s.accept w).hostData = s.hostData := rfl

/-! ### withOperands -/

@[simp] theorem State.withOperands_cfg (a b : Word) : (s.withOperands a b).cfg = s.cfg := rfl
@[simp] theorem State.withOperands_cmd (a b : Word) : (s.withOperands a b).cmd = s.cmd := rfl
@[simp] theorem State.withOperands_opa (a b : Word) : (s.withOperands a b).opa = s.opa := rfl
@[simp] theorem State.withOperands_opb (a b : Word) : (s.withOperands a b).opb = s.opb := rfl
@[simp] theorem State.withOperands_latA (a b : Word) : (s.withOperands a b).latA = a := rfl
@[simp] theorem State.withOperands_latB (a b : Word) : (s.withOperands a b).latB = b := rfl
@[simp] theorem State.withOperands_res0 (a b : Word) : (s.withOperands a b).res0 = s.res0 := rfl
@[simp] theorem State.withOperands_res1 (a b : Word) : (s.withOperands a b).res1 = s.res1 := rfl
@[simp] theorem State.withOperands_st (a b : Word) : (s.withOperands a b).st = s.st := rfl
@[simp] theorem State.withOperands_endFlag (a b : Word) : (s.withOperands a b).endFlag = s.endFlag := rfl
@[simp] theorem State.withOperands_busy (a b : Word) : (s.withOperands a b).busy = s.busy := rfl
@[simp] theorem State.withOperands_ovr (a b : Word) : (s.withOperands a b).ovr = s.ovr := rfl
@[simp] theorem State.withOperands_payload (a b : Word) : (s.withOperands a b).payload = s.payload := rfl
@[simp] theorem State.withOperands_header (a b : Word) : (s.withOperands a b).header = s.header := rfl
@[simp] theorem State.withOperands_app (a b : Word) : (s.withOperands a b).app = s.app := rfl
@[simp] theorem State.withOperands_dec (a b : Word) : (s.withOperands a b).dec = s.dec := rfl
@[simp] theorem State.withOperands_inReset (a b : Word) : (s.withOperands a b).inReset = s.inReset := rfl
@[simp] theorem State.withOperands_host (a b : Word) : (s.withOperands a b).host = s.host := rfl
@[simp] theorem State.withOperands_hostData (a b : Word) : (s.withOperands a b).hostData = s.hostData := rfl

/-! ### reset -/

theorem State.reset_cfg : State.reset.cfg = Config.standard := rfl
theorem State.assertReset_eq :
    s.assertReset = { State.resetFor s.cfg with inReset := true, host := s.host, hostData := s.hostData } := rfl

end Sys2Proof.Machine
end

