-- ==== Sys2Proof/Laws/Commands.lean ====
section
/-! SUPPORT. What each shared operation of a command can answer: the checks, the readers, and the completion of a
command (30_encoding.md R305, 60_exceptions.md R710). -/

namespace Sys2Proof.Machine

/-! ### Sequencing -/

@[simp] theorem except_ok_bind {α β : Type} (a : α) (f : α → Except Status β) :
    (Except.ok a >>= f) = f a := rfl

@[simp] theorem except_error_bind {α β : Type} (e : Status) (f : α → Except Status β) :
    ((Except.error e : Except Status α) >>= f) = .error e := rfl

/-- A sequence that answers a value did so in each of its parts. -/
theorem except_bind_eq_ok {α β : Type} {x : Except Status α} {f : α → Except Status β} {b : β} :
    (x >>= f) = .ok b ↔ ∃ a, x = .ok a ∧ f a = .ok b := by
  cases x with
  | error e => simp
  | ok a => simp

/-! ### Checks -/

theorem countWithin_of_le {n : BitVec 7} {most : Nat} (h : n.toNat ≤ most) :
    countWithin n most = .ok () := if_pos h

theorem countWithin_of_lt {n : BitVec 7} {most : Nat} (h : most < n.toNat) :
    countWithin n most = .error .illegalCommand := if_neg (by omega)

theorem State.ctxWithin_of_lt {s : State} {j : BitVec 4} (h : j.toNat < s.cfg.nDec) :
    s.ctxWithin j = .ok () := if_pos h

theorem State.ctxWithin_of_ge {s : State} {j : BitVec 4} (h : s.cfg.nDec ≤ j.toNat) :
    s.ctxWithin j = .error .illegalCommand := if_neg (by omega)

theorem State.need_open {s : State} {j : BitVec 4} (h : (s.ctx j).act = true) :
    s.need j = .ok (s.ctx j) := if_pos h

theorem State.need_closed {s : State} {j : BitVec 4} (h : (s.ctx j).act = false) :
    s.need j = .error .noContext := by simp [State.need, h]

/-! ### Contexts -/

theorem State.ctx_setCtx_self {s : State} {j : BitVec 4} (h : j.toNat < s.dec.length) (d : DecCtx) :
    (s.setCtx j d).ctx j = d := by
  simp [State.ctx, State.setCtx, List.getD_eq_getElem?_getD, h]

theorem State.ctx_setCtx_other {s : State} {j k : BitVec 4} (h : k ≠ j) (d : DecCtx) :
    (s.setCtx j d).ctx k = s.ctx k := by
  have : j.toNat ≠ k.toNat := fun e => h (BitVec.eq_of_toNat_eq e.symm)
  simp [State.ctx, State.setCtx, List.getD_eq_getElem?_getD, List.getElem?_set_ne this]

/-- Putting back the context that is there changes nothing. -/
theorem State.setCtx_ctx (s : State) (j : BitVec 4) : s.setCtx j (s.ctx j) = s := by
  have : s.dec.set j.toNat (s.ctx j) = s.dec := by
    by_cases h : j.toNat < s.dec.length
    · have e : s.ctx j = s.dec[j.toNat] := by
        simp [State.ctx, List.getD_eq_getElem?_getD, h]
      rw [e]
      exact List.set_getElem_self h
    · exact List.set_eq_of_length_le (by omega)
  simp [State.setCtx, this]

/-- A context that is open is one the instance has. -/
theorem State.lt_of_open {s : State} {j : BitVec 4} (h : (s.ctx j).act = true) :
    j.toNat < s.dec.length := by
  by_contra hj
  have : s.ctx j = DecCtx.initial := by
    simp [State.ctx, List.getD_eq_getElem?_getD, List.getElem?_eq_none (by omega : s.dec.length ≤ j.toNat)]
  rw [this] at h
  exact absurd h (by decide)

/-! ### Completion -/

@[simp] theorem State.fits_nil (s : State) : s.fits [] = true := rfl

/-- A bit list fits exactly when it is empty or there is room for it (20_memory.md R203). -/
theorem State.fits_iff (s : State) (out : List Bool) :
    s.fits out = true ↔ out = [] ∨ s.hasRoom out.length := by
  unfold State.fits State.hasRoom
  cases s.cfg.payloadCap <;> simp

@[simp] theorem State.complete_error (s : State) (closes : Option (BitVec 4)) (e : Status) :
    s.complete closes (.error e) = s.raise closes e := rfl

@[simp] theorem State.raise_none (s : State) (e : Status) : s.raise none e = s.post e 0 0 false := rfl

theorem State.raise_some (s : State) (j : BitVec 4) (e : Status) :
    s.raise (some j) e = (if e = .illegalCommand then s else s.closeCtx j).post e 0 0 false := rfl

/-- A command that appends nothing commits its pending state and posts its results. -/
@[simp] theorem State.complete_returns (s p : State) (closes : Option (BitVec 4)) (r0 r1 : Word) :
    s.complete closes (returns p r0 r1) = p.post .ok r0 r1 false := rfl

/-- A command that appends commits its pending state and its bits, or raises `CapacityExceeded`. -/
theorem State.complete_written (s p : State) (closes : Option (BitVec 4)) (out : List Bool) :
    s.complete closes (written p out) =
      if p.fits out then
        { p with payload := p.payload.append out }.post .ok (BitVec.ofNat 64 out.length)
          (BitVec.ofNat 64 (p.payload.append out).vb) false
      else s.raise closes .capacityExceeded := rfl

/-- Everything the completion of a command can leave: an error raised, or a pending state committed with its bits
and posted. -/
theorem State.complete_cases (s : State) (closes : Option (BitVec 4)) (r : Except Status Done) :
    (∃ e, (r = .error e ∨ ∃ d, r = .ok d ∧ d.pending.fits d.out = false ∧ e = .capacityExceeded) ∧
        s.complete closes r = s.raise closes e) ∨
      ∃ d, r = .ok d ∧ d.pending.fits d.out = true ∧
        s.complete closes r =
          { d.pending with payload := d.pending.payload.append d.out }.post .ok d.res0 d.res1 d.endFlag := by
  cases r with
  | error e => exact .inl ⟨e, .inl rfl, rfl⟩
  | ok d =>
    by_cases h : d.pending.fits d.out = true
    · exact .inr ⟨d, rfl, h, if_pos h⟩
    · exact .inl ⟨_, .inr ⟨d, rfl, by simpa using h, rfl⟩, if_neg h⟩

/-! ### Readers -/

/-- A bit group that reads ends at its cursor plus its length, within the stream. -/
theorem Payload.getBits_ok {p : Payload} {cur n cur' : Nat} {v : Word}
    (h : p.getBits cur n = .ok (v, cur')) : cur' = cur + n ∧ cur' ≤ p.vb ∧ v = p.readBits cur n 0 := by
  rcases p.getBits_cases cur n with ⟨_, e⟩ | ⟨hle, e⟩ <;> rw [e] at h
  · cases h
  · cases h
    exact ⟨rfl, hle, rfl⟩

/-- The prefix loop answers a bucket no higher than its bound, and a cursor within the stream. -/
theorem varbitBucket_ok {p : Payload} {fuel k cur k' cur' : Nat} (hcur : cur ≤ p.vb)
    (h : varbitBucket p fuel k cur = .ok (k', cur')) :
    k ≤ k' ∧ k' ≤ k + fuel ∧ cur ≤ cur' ∧ cur' ≤ p.vb := by
  induction fuel generalizing k cur with
  | zero => cases h; omega
  | succ fuel ih =>
    rw [varbitBucket, except_bind_eq_ok] at h
    obtain ⟨⟨b, c⟩, hg, h⟩ := h
    obtain ⟨rfl, hc, -⟩ := Payload.getBits_ok hg
    dsimp only at h
    split at h
    · cases h; omega
    · have := ih hc h; omega

/-- What a varbit that reads has: a bucket of the table and a value of its width, within the stream. -/
theorem varbitGet_ok {c : Config} {p : Payload} {cur cur' : Nat} {m : Word} (hcur : cur ≤ p.vb)
    (h : varbitGet c p cur = .ok (m, cur')) :
    ∃ k mid, varbitBucket p c.esc 0 cur = .ok (k, mid) ∧ k ≤ c.esc ∧ cur ≤ mid ∧
      cur' = mid + c.width k ∧ cur' ≤ p.vb ∧ m = p.readBits mid (c.width k) 0 := by
  rw [varbitGet, except_bind_eq_ok] at h
  obtain ⟨⟨k, mid⟩, hb, h⟩ := h
  obtain ⟨_, hk, hm, _⟩ := varbitBucket_ok hcur hb
  obtain ⟨rfl, hc, rfl⟩ := Payload.getBits_ok h
  exact ⟨k, mid, hb, by omega, hm, rfl, hc, rfl⟩

/-- A varint that reads ends within the stream, at most ten bytes on. -/
theorem uvarintGetFuel_ok {p : Payload} {fuel i cur cur' : Nat} {r v : Word}
    (h : uvarintGetFuel p fuel i r cur = .ok (v, cur')) :
    cur < cur' ∧ cur' ≤ cur + 8 * fuel ∧ cur' ≤ p.vb := by
  induction fuel generalizing i r cur with
  | zero => cases h
  | succ fuel ih =>
    rw [uvarintGetFuel, except_bind_eq_ok] at h
    obtain ⟨⟨b, c⟩, hg, h⟩ := h
    obtain ⟨rfl, hc, -⟩ := Payload.getBits_ok hg
    dsimp only at h
    split at h
    · cases h
    · split at h
      · have := ih h; omega
      · cases h; omega

end Sys2Proof.Machine
end

