-- ==== Sys2Proof/Laws/Chunk.lean ====
section
/-! SUPPORT. What the parts of the sample-chunk unit can answer: the zero counts (00_scope.md R21), the value encoder's
window (44_appender.md R530), and the decoder's cursor and window (45_iterator.md R570). -/

namespace Sys2Proof.Machine

/-! ### Zero counts -/

theorem leadingZerosFrom_le (x : Word) (n : Nat) : leadingZerosFrom x n ≤ n := by
  induction n with
  | zero => simp [leadingZerosFrom]
  | succ n ih => rw [leadingZerosFrom]; split <;> omega

/-- The bits above the highest set bit are 0, and that bit is set when there is one. -/
theorem leadingZerosFrom_spec (x : Word) (n : Nat) :
    (∀ k, k < n → n ≤ k + leadingZerosFrom x n → x.getLsbD k = false) ∧
      (leadingZerosFrom x n < n → x.getLsbD (n - 1 - leadingZerosFrom x n) = true) := by
  induction n with
  | zero => simp
  | succ n ih =>
    rw [leadingZerosFrom]
    split
    · rename_i h
      exact ⟨fun k hk hk' => by omega, fun _ => by simpa using h⟩
    · rename_i h
      refine ⟨fun k hk hk' => ?_, fun hlt => ?_⟩
      · by_cases e : k = n
        · subst e; simpa using h
        · exact ih.1 k (by omega) (by omega)
      · have := ih.2 (by omega)
        rwa [show n + 1 - 1 - (leadingZerosFrom x n + 1) = n - 1 - leadingZerosFrom x n by omega]

/-- The bits below the lowest set bit are 0, and that bit is set when there is one. -/
theorem trailingZerosFrom_spec (x : Word) (n i : Nat) :
    trailingZerosFrom x n i ≤ n ∧
      (∀ k, i ≤ k → k < i + trailingZerosFrom x n i → x.getLsbD k = false) ∧
      (trailingZerosFrom x n i < n → x.getLsbD (i + trailingZerosFrom x n i) = true) := by
  induction n generalizing i with
  | zero => simp [trailingZerosFrom]; omega
  | succ n ih =>
    rw [trailingZerosFrom]
    split
    · rename_i h
      exact ⟨by omega, fun k hk hk' => by omega, fun _ => by simpa using h⟩
    · rename_i h
      obtain ⟨h1, h2, h3⟩ := ih (i + 1)
      refine ⟨by omega, fun k hk hk' => ?_, fun hlt => ?_⟩
      · by_cases e : k = i
        · subst e; simpa using h
        · exact h2 k (by omega) (by omega)
      · have := h3 (by omega)
        rwa [show i + (trailingZerosFrom x n (i + 1) + 1) = i + 1 + trailingZerosFrom x n (i + 1) by omega]

/-- A non-zero word has a set bit. -/
theorem exists_bit {x : Word} (h : x ≠ 0) : ∃ k, k < 64 ∧ x.getLsbD k = true := by
  by_contra hc
  push Not at hc
  apply h
  apply BitVec.eq_of_getLsbD_eq
  intro k hk
  simpa using hc k hk

/-- The leading and trailing zeros of a non-zero word leave at least one bit between them. -/
theorem clz64_add_ctz64_lt {x : Word} (h : x ≠ 0) : clz64 x + ctz64 x < 64 := by
  obtain ⟨k, hk, hb⟩ := exists_bit h
  obtain ⟨hz, hs⟩ := leadingZerosFrom_spec x 64
  obtain ⟨_, ht, _⟩ := trailingZerosFrom_spec x 64 0
  have h1 : k + clz64 x < 64 := by
    by_contra hc
    rw [hz k hk (by unfold clz64 at hc; omega)] at hb
    cases hb
  have h2 : ctz64 x ≤ k := by
    by_contra hc
    rw [ht k (by omega) (by unfold ctz64 at hc; omega)] at hb
    cases hb
  omega

/-! ### The value encoder -/

/-- Everything `ValuePut` does to `A`: it sets `A.PV`, and leaves the window or sets one that fits 64 bits. -/
theorem valuePut_cases (c : Config) (a : Appender) (v : Word) :
    (valuePut c a v).2 = { a with pv := v } ∨
      ∃ lz tz : Nat, lz ≤ c.lzMax ∧ lz + tz < 64 ∧
        (valuePut c a v).2 =
          { a with pv := v, wv := true, lz := BitVec.ofNat 6 lz, tz := BitVec.ofNat 6 tz } := by
  unfold valuePut
  dsimp only
  split
  · exact .inl rfl
  · rename_i hx
    split
    · exact .inl rfl
    · refine .inr ⟨min (clz64 (v ^^^ a.pv)) c.lzMax, ctz64 (v ^^^ a.pv), by omega, ?_, rfl⟩
      have := clz64_add_ctz64_lt hx
      omega

/-- A repeated value costs one control bit (44_appender.md R530). -/
theorem valuePut_same (c : Config) (a : Appender) : valuePut c a a.pv = ([false], a) := by
  simp [valuePut, putBits]

/-! ### The value decoder -/

/-- Everything `ValueGet`'s XOR does to the context: it moves the cursor on within the stream, and leaves the
window or sets one that fits 64 bits. -/
theorem xorGet_ok {c : Config} {p : Payload} {d d' : DecCtx} {cur : Nat} {x : Word}
    (h : xorGet c p d cur = .ok (x, d')) :
    cur < d'.cur ∧ d'.cur ≤ p.vb ∧
      (d' = { d with cur := d'.cur } ∨
        ∃ lz tz : Nat, lz + tz < 64 ∧
          d' = { d with cur := d'.cur, wv := true, lz := BitVec.ofNat 6 lz, tz := BitVec.ofNat 6 tz }) := by
  rw [xorGet, except_bind_eq_ok] at h
  obtain ⟨⟨b, c1⟩, hg, h⟩ := h
  obtain ⟨rfl, hc1, -⟩ := Payload.getBits_ok hg
  dsimp only at h
  split at h
  · cases h; exact ⟨by simp, hc1, .inl rfl⟩
  · rw [except_bind_eq_ok] at h
    obtain ⟨⟨b', c2⟩, hg, h⟩ := h
    obtain ⟨rfl, hc2, -⟩ := Payload.getBits_ok hg
    dsimp only at h
    split at h
    · unfold reuseGet at h
      split at h
      · cases h
      · rw [except_bind_eq_ok] at h
        obtain ⟨⟨y, c3⟩, hg, h⟩ := h
        obtain ⟨rfl, hc3, -⟩ := Payload.getBits_ok hg
        cases h
        exact ⟨by simp only; omega, hc3, .inl rfl⟩
    · unfold newWindowGet at h
      rw [except_bind_eq_ok] at h
      obtain ⟨⟨lz, c3⟩, hg, h⟩ := h
      obtain ⟨rfl, hc3, -⟩ := Payload.getBits_ok hg
      rw [except_bind_eq_ok] at h
      obtain ⟨⟨f, c4⟩, hg, h⟩ := h
      obtain ⟨rfl, hc4, -⟩ := Payload.getBits_ok hg
      dsimp only at h
      have hpos : 0 < if f = 0 then 64 else f.toNat := by
        split
        · omega
        · rename_i hf
          exact Nat.pos_of_ne_zero fun e => hf (BitVec.eq_of_toNat_eq (by simpa using e))
      generalize (if f = 0 then 64 else f.toNat) = mb at h hpos
      split at h
      · cases h
      · rename_i hmb
        rw [except_bind_eq_ok] at h
        obtain ⟨⟨y, c5⟩, hg, h⟩ := h
        obtain ⟨rfl, hc5, -⟩ := Payload.getBits_ok hg
        cases h
        exact ⟨by simp only; omega, hc5, .inr ⟨lz.toNat, 64 - lz.toNat - mb, by omega, rfl⟩⟩

/-- Everything a decoded sample does to the context: one more sample produced, the cursor moved on within the stream,
and the window left, unset or set to one that fits 64 bits. -/
theorem decodeSample_ok {c : Config} {p : Payload} {d d' : DecCtx} (hcur : d.cur ≤ p.vb)
    (h : decodeSample c p d = .ok d') :
    d'.act = d.act ∧ d'.mode = d.mode ∧ d'.n = d.n ∧ d'.i = d.i + 1 ∧ d.cur < d'.cur ∧ d'.cur ≤ p.vb ∧
      ((d'.wv = d.wv ∧ d'.lz = d.lz ∧ d'.tz = d.tz) ∨ d'.wv = false ∨
        ∃ lz tz : Nat, lz + tz < 64 ∧ d'.lz = BitVec.ofNat 6 lz ∧ d'.tz = BitVec.ofNat 6 tz) := by
  rw [decodeSample, except_bind_eq_ok] at h
  obtain ⟨⟨m, c1⟩, hg, h⟩ := h
  obtain ⟨k, mid, -, -, hmid, rfl, hc1, -⟩ := varbitGet_ok hcur hg
  dsimp only at h
  split at h
  · rw [except_bind_eq_ok] at h
    obtain ⟨⟨v, c2⟩, hg, h⟩ := h
    obtain ⟨rfl, hc2, -⟩ := Payload.getBits_ok hg
    cases h
    exact ⟨rfl, rfl, rfl, rfl, by simp only; omega, hc2, .inr (.inl rfl)⟩
  · rw [except_bind_eq_ok] at h
    obtain ⟨e, hv, h⟩ := h
    rw [valueGet, except_bind_eq_ok] at hv
    obtain ⟨⟨x, e'⟩, hx, hv⟩ := hv
    obtain ⟨hlt, hle, hd⟩ := xorGet_ok hx
    cases hv
    cases h
    rcases hd with hd | ⟨lz, tz, hs, hd⟩
    · rw [hd]; exact ⟨rfl, rfl, rfl, rfl, by simp only; omega, hle, .inl ⟨rfl, rfl, rfl⟩⟩
    · rw [hd]; exact ⟨rfl, rfl, rfl, rfl, by simp only; omega, hle, .inr (.inr ⟨lz, tz, hs, rfl, rfl⟩)⟩

end Sys2Proof.Machine
end

