-- ==== Sys2Proof/Laws/PerInstr.lean ====
section
/-! SUPPORT. A family of facts about every command as syntax: the fields of its word are its opcode, its count and its
context, and the reserved bits are 0 (30_encoding.md R300). -/

namespace Sys2Proof.Laws.FieldsOfWord

/-- The fields of the word of `i` (30_encoding.md R300). -/
def Statement (i : Instr) : Prop :=
  (encode i).op = i.opcode ∧ (encode i).n = i.nField ∧ (encode i).ctx = i.ctxField ∧
    (encode i).reservedZero = true

/-- The fields of a word put together from its parts. -/
theorem fields_of_parts (op : BitVec 8) (n : BitVec 7) (j : BitVec 4) :
    let w : CmdWord := 0#12 ++ j ++ 0#1 ++ n ++ op
    w.op = op ∧ w.n = n ∧ w.ctx = j ∧ w.reservedZero = true := by
  have hop := op.isLt
  have hn := n.isLt
  have hj := j.isLt
  have hw : (0#12 ++ j ++ 0#1 ++ n ++ op).toNat = j.toNat * 2 ^ 16 + n.toNat * 2 ^ 8 + op.toNat := by
    simp only [BitVec.toNat_append, BitVec.toNat_ofNat]
    simp only [Nat.zero_mod, Nat.zero_shiftLeft, Nat.zero_or, Nat.or_zero]
    rw [← Nat.shiftLeft_add_eq_or_of_lt hn, ← Nat.shiftLeft_add_eq_or_of_lt hop]
    simp only [Nat.shiftLeft_eq]
    omega
  refine ⟨?_, ?_, ?_, ?_⟩
  · apply BitVec.eq_of_toNat_eq
    simp only [CmdWord.op, BitVec.extractLsb'_toNat, hw, Nat.shiftRight_eq_div_pow]
    omega
  · apply BitVec.eq_of_toNat_eq
    simp only [CmdWord.n, BitVec.extractLsb'_toNat, hw, Nat.shiftRight_eq_div_pow]
    omega
  · apply BitVec.eq_of_toNat_eq
    simp only [CmdWord.ctx, BitVec.extractLsb'_toNat, hw, Nat.shiftRight_eq_div_pow]
    omega
  · simp only [CmdWord.reservedZero, Bool.and_eq_true, beq_iff_eq]
    constructor <;> apply BitVec.eq_of_toNat_eq <;>
      simp only [BitVec.extractLsb'_toNat, hw, Nat.shiftRight_eq_div_pow, BitVec.toNat_ofNat] <;> omega

theorem of_any (i : Instr) : Statement i := fields_of_parts i.opcode i.nField i.ctxField

theorem nop : Statement .nop := of_any _
theorem clear : Statement .clear := of_any _
theorem bsWbit : Statement .bsWbit := of_any _
theorem bsWbits (n : BitVec 7) : Statement (.bsWbits n) := of_any _
theorem bsWbyte : Statement .bsWbyte := of_any _
theorem bsWbytes (n : BitVec 7) : Statement (.bsWbytes n) := of_any _
theorem bsLen : Statement .bsLen := of_any _
theorem bsRdbyte : Statement .bsRdbyte := of_any _
theorem rdOpen (j : BitVec 4) : Statement (.rdOpen j) := of_any _
theorem rdPos (j : BitVec 4) : Statement (.rdPos j) := of_any _
theorem bsRbit (j : BitVec 4) : Statement (.bsRbit j) := of_any _
theorem bsRbits (n : BitVec 7) (j : BitVec 4) : Statement (.bsRbits n j) := of_any _
theorem bsRbyte (j : BitVec 4) : Statement (.bsRbyte j) := of_any _
theorem uvEnc : Statement .uvEnc := of_any _
theorem uvDec (j : BitVec 4) : Statement (.uvDec j) := of_any _
theorem vbEncU : Statement .vbEncU := of_any _
theorem vbEncS : Statement .vbEncS := of_any _
theorem vbDecU (j : BitVec 4) : Statement (.vbDecU j) := of_any _
theorem vbDecS (j : BitVec 4) : Statement (.vbDecS j) := of_any _
theorem vbSelU : Statement .vbSelU := of_any _
theorem vbSelS : Statement .vbSelS := of_any _
theorem zzMap : Statement .zzMap := of_any _
theorem zzUnmap : Statement .zzUnmap := of_any _
theorem appInit : Statement .appInit := of_any _
theorem appAppend : Statement .appAppend := of_any _
theorem iterInit (j : BitVec 4) : Statement (.iterInit j) := of_any _
theorem iterNext (j : BitVec 4) : Statement (.iterNext j) := of_any _
theorem chLoadb : Statement .chLoadb := of_any _
theorem chLen : Statement .chLen := of_any _
theorem chRdb : Statement .chRdb := of_any _

end Sys2Proof.Laws.FieldsOfWord
end

