-- ==== Sys2Proof/Tests/Slice0.lean ====
section
/-! SUPPORT. Checks of the model: the well-formedness smoke tests, one word per command written out from the spec's encoding
(30_encoding.md R300, R307), single steps with the results 95_test_vectors.md and the rules' own examples give, and
states that meet the hypotheses of the statements. -/

namespace Sys2Proof.Tests

set_option Elab.async false

open Sys2Proof.Machine

/-! ### Well-formedness: each check refuses something -/

theorem test_wf_wbits_65 : (Instr.bsWbits 65).wf Config.standard = false := by decide
theorem test_wf_wbits_64 : (Instr.bsWbits 64).wf Config.standard = true := by decide
theorem test_wf_wbytes_9 : (Instr.bsWbytes 9).wf Config.standard = false := by decide
theorem test_wf_rbits_75 : (Instr.bsRbits 75 0).wf Config.standard = false := by decide
theorem test_wf_open_ctx_2 : (Instr.rdOpen 2).wf Config.standard = false := by decide
theorem test_wf_next_ctx_15 : (Instr.iterNext 15).wf Config.standard = false := by decide

theorem test_config_standard : Config.standard.wf := by decide
theorem test_config_checks : ∀ c ∈ ([
      { Config.standard with hdrBytes := 9 }, { Config.standard with hdrBytes := 0 },
      { Config.standard with maxSamples := 65536 }, { Config.standard with maxSamples := 0 },
      { Config.standard with payloadCap := some 0 }, { Config.standard with widths := [64] },
      { Config.standard with widths := List.range 16 ++ [64] },
      { Config.standard with widths := [0, 3, 3, 64] }, { Config.standard with widths := [0, 3, 63] },
      { Config.standard with lzBits := 7 }, { Config.standard with lzBits := 0 },
      { Config.standard with mbBits := 5 }, { Config.standard with mbBits := 8 },
      { Config.standard with nDec := 0 }, { Config.standard with nDec := 17 }] : List Config), ¬c.wf := by
  decide

/-- 00_scope.md R2's own string for the default configuration. -/
theorem test_identity : Config.standard.identity = "RCE-BSA/1 HB2 LE K9 LZ5 MB6 ND2 FTSELECT" := by decide

/-- A configuration that fails R13 is refused. -/
theorem test_bad_config_refused :
    (match step { State.reset with cfg := { Config.standard with nDec := 17 } } with
      | .refused .malformedConfiguration => true | _ => false) = true := by decide

/-! ### Words written out from the spec's encodings -/

theorem test_decode_control :
    decodeTableWord 32 0x00000000 = some .nop ∧ decodeTableWord 32 0x00000001 = some .clear := by decide
theorem test_decode_bitstream_writers :
    decodeTableWord 32 0x00000010 = some .bsWbit ∧ decodeTableWord 32 0x00000C11 = some (.bsWbits 12) ∧
    decodeTableWord 32 0x00000012 = some .bsWbyte ∧ decodeTableWord 32 0x00000813 = some (.bsWbytes 8) ∧
    decodeTableWord 32 0x00000014 = some .bsLen ∧ decodeTableWord 32 0x00000015 = some .bsRdbyte := by decide
theorem test_decode_bitstream_readers :
    decodeTableWord 32 0x00010018 = some (.rdOpen 1) ∧ decodeTableWord 32 0x00010019 = some (.rdPos 1) ∧
    decodeTableWord 32 0x0001001A = some (.bsRbit 1) ∧ decodeTableWord 32 0x0001401B = some (.bsRbits 64 1) ∧
    decodeTableWord 32 0x0000001C = some (.bsRbyte 0) := by decide
theorem test_decode_uvarint :
    decodeTableWord 32 0x00000020 = some .uvEnc ∧ decodeTableWord 32 0x00010021 = some (.uvDec 1) := by decide
theorem test_decode_varbit :
    decodeTableWord 32 0x00000028 = some .vbEncU ∧ decodeTableWord 32 0x00000029 = some .vbEncS ∧
    decodeTableWord 32 0x0001002A = some (.vbDecU 1) ∧ decodeTableWord 32 0x0001002B = some (.vbDecS 1) ∧
    decodeTableWord 32 0x0000002C = some .vbSelU ∧ decodeTableWord 32 0x0000002D = some .vbSelS ∧
    decodeTableWord 32 0x0000002E = some .zzMap ∧ decodeTableWord 32 0x0000002F = some .zzUnmap := by decide
theorem test_decode_chunk :
    decodeTableWord 32 0x00000030 = some .appInit ∧ decodeTableWord 32 0x00000031 = some .appAppend ∧
    decodeTableWord 32 0x00010032 = some (.iterInit 1) ∧ decodeTableWord 32 0x00010033 = some (.iterNext 1) ∧
    decodeTableWord 32 0x00000034 = some .chLoadb ∧ decodeTableWord 32 0x00000035 = some .chLen ∧
    decodeTableWord 32 0x00000036 = some .chRdb := by decide
/-- 95_test_vectors.md section 2.1, rows 1 to 14. -/
theorem test_decode_illegal :
    ∀ w ∈ [0x02, 0x16, 0xFF, 0x8000, 0x100010, 0x80000010, 0x100, 0x4111, 0x913, 0x4B1B, 0x20018, 0xF0033,
      0x10010, 0x110], decodeTableWord 32 w = none := by decide
theorem test_encode :
    encode (.bsRbits 8 1) = 0x0001081B ∧ encode .appAppend = 0x00000031 ∧ encode (.iterNext 1) = 0x00010033 := by decide

/-! ### Single steps -/

/-- `s` after the command word `w` with operands `a` and `b`, in one step. -/
def issue (w : Nat) (a b : Word) (s : State) : State :=
  match step ({ s with opa := a, opb := b }.withFetchWord 32 w) with
  | .next t => t
  | _ => State.resetFor { Config.standard with nDec := 0 }

/-- The posted status, results and `END`. -/
def posted (s : State) : Status × Word × Word × Bool := (s.st, s.res0, s.res1, s.endFlag)

/-- After `BS_WBITS n=12 a=0xABC` on an empty store (41_bitstream.md R423). -/
def abc : State := { State.reset with payload := { mem := [(0, 0xAB), (1, 0xC0)], wlen := 2, wfill := 4 } }

/-- The same with context 0 open at bit 0 and context 1 at `VB`. -/
def reading : State := { abc with dec := [DecCtx.openRaw 0, DecCtx.openRaw 12] }

/-- `abc` in a store of two bytes. -/
def tight : State := { abc with cfg := { Config.standard with payloadCap := some 2 } }

/-- The payload of 44_appender.md R525's example after its two appends, as bytes (95_test_vectors.md section 3.1). -/
def twoSamples : Payload :=
  { mem := [(0, 0xF3), (1, 0xE8), (2, 0x1F), (3, 0xF8), (10, 0x65), (11, 0x00)].filter (·.2 ≠ 0)
    wlen := 12, wfill := 3 }

/-- The chunk of 44_appender.md R525's example with an iterator on context 0 (45_iterator.md R561). -/
def chunk : State :=
  { State.reset with
    payload := twoSamples, header := { hdr := 2, hlen := 2 }
    app := { Appender.initial with valid := true, cnt := 2, pt := 1010, pd := 10, pv := 0x3FF0000000000000 }
    dec := [DecCtx.openIter 2, DecCtx.initial] }

/-- The context of `chunk` after its first sample. -/
def afterFirst : DecCtx :=
  { DecCtx.openIter 2 with i := 1, cur := 81, pt := 1000, pv := 0x3FF0000000000000 }

/-- `chunk` with its iterator after the first sample. -/
def chunk1 : State := { chunk with dec := [afterFirst, DecCtx.initial] }

/-- `chunk` with its iterator at the end. -/
def chunkEnd : State :=
  { chunk with dec := [{ afterFirst with i := 2, cur := 91, pt := 1010, pd := 10 }, DecCtx.initial] }

/-- After `APP_INIT`. -/
def begun : State :=
  { State.reset with header := { hdr := 0, hlen := 2 }, app := Appender.begun }

theorem test_nop : posted (issue 0x00 1 2 abc) = (.ok, 0, 0, false) := by decide +kernel
theorem test_clear : (issue 0x01 0 0 reading).payload = Payload.empty ∧
    ((issue 0x01 0 0 reading).dec.map DecCtx.act) = [false, false] := by decide +kernel
/-- 41_bitstream.md R422: only `OPA[0]` counts, and the first bit is bit 7 of byte 0. -/
theorem test_bsWbit : (issue 0x10 1 0 State.reset).payload = { mem := [(0, 0x80)], wlen := 1, wfill := 1 } ∧
    posted (issue 0x10 0xFFFFFFFFFFFFFFFE 0 abc) = (.ok, 1, 13, false) := by decide +kernel
theorem test_bsWbits : (issue 0xC11 0xABC 0 State.reset).payload = abc.payload ∧
    posted (issue 0x11 0xFFFF 0 abc) = (.ok, 0, 12, false) := by decide +kernel
theorem test_bsWbyte : (issue 0x12 0x1FF 0 abc).payload =
    { mem := [(0, 0xAB), (1, 0xCF), (2, 0xF0)], wlen := 3, wfill := 4 } := by decide +kernel
theorem test_bsWbytes : (issue 0x313 0x112233 0 State.reset).payload =
    { mem := [(0, 0x11), (1, 0x22), (2, 0x33)], wlen := 3, wfill := 8 } := by decide +kernel
theorem test_capacity : posted (issue 0x511 0 0 tight) = (.capacityExceeded, 0, 0, false) ∧
    posted (issue 0x411 0 0 tight) = (.ok, 4, 16, false) := by decide +kernel
theorem test_bsLen : posted (issue 0x14 0 0 abc) = (.ok, 2, 4, false) := by decide +kernel
theorem test_bsRdbyte : posted (issue 0x15 1 0 abc) = (.ok, 0xC0, 0, false) ∧
    posted (issue 0x15 2 0 abc) = (.badIndex, 0, 0, false) := by decide +kernel
theorem test_rdOpen : posted (issue 0x10018 4 0 abc) = (.ok, 4, 12, false) ∧
    posted (issue 0x18 13 0 abc) = (.badIndex, 0, 0, false) := by decide +kernel
theorem test_rdPos : posted (issue 0x10019 0 0 reading) = (.ok, 12, 12, false) ∧
    posted (issue 0x19 0 0 abc) = (.noContext, 0, 0, false) := by decide +kernel
theorem test_bsRbit : posted (issue 0x1A 0 0 reading) = (.ok, 1, 1, false) ∧
    posted (issue 0x1001A 0 0 reading) = (.truncated, 0, 0, false) := by decide +kernel
theorem test_bsRbits : posted (issue 0x81B 0 0 reading) = (.ok, 0xAB, 8, false) ∧
    posted (issue 0x1001B 0 0 reading) = (.ok, 0, 12, false) := by decide +kernel
theorem test_bsRbyte : posted (issue 0x1C 0 0 { abc with dec := [DecCtx.openRaw 4] }) =
    (.ok, 0xBC, 12, false) := by decide +kernel
theorem test_uvEnc : (issue 0x20 300 0 State.reset).payload =
    { mem := [(0, 0xAC), (1, 0x02)], wlen := 2, wfill := 8 } := by decide +kernel
/-- 95_test_vectors.md section 2.3: nine 0xFF bytes, then 0x01, then 0x02. -/
theorem test_uvDec :
    let p (b : Byte) : Payload :=
      { mem := (List.range 9).map (fun k => (k, (0xFF : Byte))) ++ [(9, b)], wlen := 10, wfill := 8 }
    posted (issue 0x21 0 0 { reading with payload := p 1 }) = (.ok, 0xFFFFFFFFFFFFFFFF, 80, false) ∧
    posted (issue 0x21 0 0 { reading with payload := p 2 }) = (.overflow, 0, 0, false) := by decide +kernel
theorem test_vbEncU : posted (issue 0x28 64 0 State.reset) = (.ok, 13, 13, false) ∧
    (issue 0x28 64 0 State.reset).payload.mem = [(0, 0xE2)] := by decide +kernel
theorem test_vbEncS : (issue 0x29 0xFFFFFFFFFFFFFFFF 0 State.reset).payload =
    { mem := [(0, 0x88)], wlen := 1, wfill := 5 } := by decide +kernel
theorem test_vbDecU : posted (issue 0x2A 0 0
    { reading with payload := { mem := [(0, 0xE2)], wlen := 2, wfill := 5 } }) = (.ok, 64, 13, false) := by decide +kernel
theorem test_vbDecS : posted (issue 0x2B 0 0
    { reading with payload := { mem := [(0, 0x88)], wlen := 1, wfill := 5 } }) =
      (.ok, 0xFFFFFFFFFFFFFFFF, 5, false) := by decide +kernel
theorem test_vbSelU : posted (issue 0x2C 4096 0 State.reset) = (.ok, 5, 24, false) := by decide +kernel
theorem test_vbSelS : posted (issue 0x2D (-4) 0 State.reset) = (.ok, 1, 5, false) ∧
    posted (issue 0x2D 4 0 State.reset) = (.ok, 2, 9, false) := by decide +kernel
theorem test_zzMap : posted (issue 0x2E (-2) 0 State.reset) = (.ok, 3, 0, false) ∧
    posted (issue 0x2E 0x8000000000000000 0 State.reset) = (.ok, 0xFFFFFFFFFFFFFFFF, 0, false) := by decide +kernel
theorem test_zzUnmap : posted (issue 0x2F 4 0 State.reset) = (.ok, 2, 0, false) ∧
    posted (issue 0x2F 3 0 State.reset) = (.ok, -2, 0, false) := by decide +kernel
theorem test_appInit : (issue 0x30 0 0 reading).header = { hdr := 0, hlen := 2 } ∧
    (issue 0x30 0 0 reading).app.valid = true := by decide +kernel
/-- 44_appender.md R525's example: the first sample's 81 bits. -/
theorem test_appAppend_first : posted (issue 0x31 1000 0x3FF0000000000000 begun) = (.ok, 81, 81, false) := by decide +kernel
/-- 95_test_vectors.md section 3.1, row 4: a double-delta of 0 and a new window, 25 bits. -/
theorem test_appAppend_later :
    posted (issue 0x31 1020 0x4000000000000000 chunk) = (.ok, 25, 116, false) ∧
    ((issue 0x31 1020 0x4000000000000000 chunk).app.lz, (issue 0x31 1020 0x4000000000000000 chunk).app.tz) =
      (1, 52) := by decide +kernel
theorem test_appAppend_order : posted (issue 0x31 1010 0 chunk) = (.outOfOrder, 0, 0, false) ∧
    posted (issue 0x31 1010 0 State.reset) = (.noChunk, 0, 0, false) := by decide +kernel
theorem test_iterInit : posted (issue 0x10032 0 0 chunk) = (.ok, 2, 0, false) ∧
    posted (issue 0x32 0 0 State.reset) = (.truncated, 0, 0, false) := by decide +kernel
/-- 45_iterator.md R561's example. -/
theorem test_iterNext : posted (issue 0x33 0 0 chunk) = (.ok, 1000, 0x3FF0000000000000, false) ∧
    posted (issue 0x33 0 0 chunk1) = (.ok, 1010, 0x3FF0000000000000, false) := by decide +kernel
theorem test_iterNext_end : posted (issue 0x33 0 0 chunkEnd) = (.ok, 0, 0, true) ∧
    (issue 0x33 0 0 reading).dec.map DecCtx.act = [false, true] := by decide +kernel
theorem test_chLoadb : (issue 0x34 0x103 0 State.reset).header = { hdr := 3, hlen := 1 } ∧
    posted (issue 0x34 3 0 begun) = (.ok, 8, 8, false) := by decide +kernel
theorem test_chLoadb_big_endian :
    (issue 0x34 3 0 (State.resetFor { Config.standard with hdrOrder := .be })).header =
      { hdr := 0x300, hlen := 1 } := by decide +kernel
theorem test_chLen : posted (issue 0x35 0 0 begun) = (.ok, 2, 2, false) := by decide +kernel
theorem test_chRdb : posted (issue 0x36 2 0 chunk) = (.ok, 0xF3, 0, false) ∧
    posted (issue 0x36 14 0 chunk) = (.badIndex, 0, 0, false) := by decide +kernel

/-! ### The host's side (95_test_vectors.md section 2.9) -/

/-- One step with the host's next event `e`. -/
def act (e : HostEvent) (s : State) : State :=
  match step { s with host := [e] } with
  | .next t => t
  | _ => State.resetFor { Config.standard with nDec := 0 }

theorem test_accept : (act (.write 0 0xFFFFFFFF00000C11) State.reset).busy = true ∧
    (act (.write 0 0xFFFFFFFF00000C11) State.reset).readReg 0 = 0xC11 := by decide +kernel
theorem test_drop : (act (.write 0 0x14) { State.reset with busy := true, cmd := 0xC11 }).readReg 5 = 0x60 ∧
    (act (.write 0 0x14) { State.reset with busy := true, cmd := 0xC11 }).cmd = 0xC11 := by decide +kernel
theorem test_status_write : (act (.write 5 0x3F) { State.reset with ovr := true }).ovr = true ∧
    (act (.write 5 0x40) { State.reset with ovr := true }).ovr = false := by decide +kernel
/-- 60_exceptions.md R700, in the table's order. -/
theorem test_status_codes :
    [Status.ok, .outOfOrder, .truncated, .overflow, .limitExceeded, .illegalCommand, .noContext, .malformed,
      .capacityExceeded, .badIndex, .noChunk].map (BitVec.toNat ∘ Status.code) =
      [0, 1, 2, 3, 4, 8, 9, 10, 11, 12, 13] := by decide
theorem test_read_results : (act (.read 3) { State.reset with res0 := 5, res1 := 6 }).hostData = 5 ∧
    (act (.read 4) { State.reset with res0 := 5, res1 := 6 }).hostData = 6 := by decide
theorem test_cfg0 : State.reset.readReg 6 = 0x01658102 := by decide +kernel
theorem test_cfg_rest : State.reset.readReg 7 = 65535 ∧ State.reset.readReg 8 = 0 ∧
    State.reset.readReg 9 = 0x3819120C09060300 ∧ State.reset.readReg 10 = 0x40 := by decide +kernel
theorem test_reset_while_busy : (act .resetOn { reading with busy := true }).payload = Payload.empty ∧
    (act .resetOn { reading with busy := true }).busy = false := by decide +kernel

/-! ### States that meet the hypotheses of the statements

One theorem for each statement that has hypotheses, named after it: concrete states and operands that meet them together,
for each clause, at the ends of its range. -/

/-- The state an outcome goes on with. -/
def nextOf (o : Host.Outcome State Fault Refusal) (d : State) : State :=
  match o with
  | .next t => t
  | _ => d

/-- A block that runs the accepted word `w` while the host waits. -/
def running (w : CmdWord) : State := { State.reset with cmd := w, busy := true, host := [.await] }

/-- `s` with context 0 `d`, over a payload of exactly the bits `code`. -/
def onBits (code : List Bool) (d : DecCtx) : State :=
  { State.reset with payload := Payload.empty.append code, dec := [d, DecCtx.initial] }

/-- `p`'s stream holds `code` at `cur`, as a Boolean. -/
def holds (p : Payload) (cur : Nat) (code : List Bool) : Bool :=
  decide (cur + code.length ≤ p.vb) && decide (code = (List.range code.length).map fun k => p.streamBit (cur + k))

theorem codeAt_of_holds {p : Payload} {cur : Nat} {code : List Bool} (h : holds p cur code = true) :
    p.codeAt cur code := by
  simpa [holds, Payload.codeAt] using h

theorem witness_DecodeOfEncode :
    (Instr.bsRbits 64 1).wf Config.standard = true ∧ (Instr.bsWbytes 8).wf Config.standard = true ∧
    (Instr.iterNext 1).wf Config.standard = true := by decide
theorem witness_EncodeOfDecode : decode Config.standard 0x0001401B = .ok (.bsRbits 64 1) := rfl

/-- One word for each clause of the verdict, and words at the ends of `N` and `CTX`. -/
theorem witness_VerdictChecksInOrder :
    (∀ u ∈ [0x8000, 0x100000, 0xFFFFFFFF], ¬(u / 2 ^ 20 = 0 ∧ u / 2 ^ 15 % 2 = 0)) ∧
    (∀ u ∈ [0x02, 0x37, 0xFF], (u / 2 ^ 20 = 0 ∧ u / 2 ^ 15 % 2 = 0) ∧ u % 256 ∉ opcodes) ∧
    (∀ u ∈ [0x4111, 0x911, 0x913, 0x100], (u / 2 ^ 20 = 0 ∧ u / 2 ^ 15 % 2 = 0) ∧ u % 256 ∈ opcodes ∧
      (mostCount (u % 256) < u / 256 % 128 ↔ u ≠ 0x911)) ∧
    (∀ u ∈ [0x20018, 0x10010], (u / 2 ^ 20 = 0 ∧ u / 2 ^ 15 % 2 = 0) ∧ u % 256 ∈ opcodes ∧
      u / 256 % 128 ≤ mostCount (u % 256) ∧ ctxRange Config.standard (u % 256) ≤ u / 2 ^ 16 % 16) ∧
    (∀ u ∈ [0x0, 0x4011, 0x813, 0x10018, 0x1401B], legalWord Config.standard u) := by decide

theorem witness_IllegalWordChangesOnlyResults :
    (running 0x100000).cfg.wf ∧ (running 0x100000).completing [] ∧
    ¬legalWord (running 0x100000).cfg (running 0x100000).cmd.toNat := by
  unfold State.completing; decide
theorem witness_StepRunsDecodedCommand :
    (running 0xC11).cfg.wf ∧ (running 0xC11).completing [] ∧
    decode (running 0xC11).cfg (running 0xC11).cmd = .ok (.bsWbits 12) :=
  ⟨by decide, by unfold State.completing; decide, rfl⟩
theorem witness_OutOfRangeFieldsAreIllegal :
    (Instr.bsWbits 65).wf State.reset.cfg = false ∧ (Instr.bsWbytes 9).wf State.reset.cfg = false ∧
    (Instr.rdOpen 2).wf State.reset.cfg = false := by decide

theorem witness_CommandWriteAcceptedOrDropped :
    ∀ busy ∈ [false, true], let s := { State.reset with busy := busy, host := [.write 0 0xC11] }
      s.cfg.wf ∧ s.inReset = false ∧ s.host = .write 0 0xC11 :: [] ∧ s.busy = busy := by decide
theorem witness_StatusRegisterLayout : chunkEnd.inReset = false := by decide
theorem witness_StatusWriteClearsOnlyOverrun :
    let s := { State.reset with ovr := true, host := [.write 5 0x40] }
    s.cfg.wf ∧ s.inReset = false ∧ s.host = .write 5 0x40 :: [] := by decide
theorem witness_HostWritesReachOnlyOperands :
    ∀ index ∈ [(1 : BitVec 4), 2, 3, 15], let s := { State.reset with host := [.write index 7] }
      s.cfg.wf ∧ s.inReset = false ∧ s.host = .write index 7 :: [] ∧ index ≠ 0 ∧ index ≠ 5 := by decide
theorem witness_HostReadsReturnRegisters :
    let s := { chunk1 with host := [.read 15] }
    s.cfg.wf ∧ s.inReset = false ∧ s.host = .read 15 :: [] := by decide
theorem witness_ConfigurationRegistersReportParameters :
    (State.reset.cfg.wf ∧ State.reset.inReset = false ∧ State.reset.cfg.payloadCap = none) ∧
    (let s := State.resetFor { Config.standard with payloadCap := some (2 ^ 64 - 1) };
      s.cfg.wf ∧ s.inReset = false ∧ s.cfg.payloadCap = some (2 ^ 64 - 1) ∧ 2 ^ 64 - 1 < 2 ^ 64) ∧
    (∀ index ∈ [(11 : BitVec 4), 15], 11 ≤ index.toNat) ∧ 6 ≤ (6 : BitVec 4).toNat ∧
    ∃ t, step State.reset = .next t ∧ t.inReset = false :=
  ⟨by decide, by decide, by decide, by decide, _, rfl, by decide⟩
theorem witness_AssertedResetMasksHost :
    ∀ e ∈ [HostEvent.write 0 0xC11, .read 5, .await],
      let s := { State.reset with inReset := true, host := [e] }
      s.cfg.wf ∧ s.inReset = true ∧ s.host = e :: [] := by decide
theorem witness_ResetPulseGivesResetState :
    let s := { chunk with busy := true, host := [.resetOn, .resetOff, .await] }
    s.cfg.wf ∧ s.host = .resetOn :: .resetOff :: [.await] := by decide
/-- A block that runs the accepted word `w` while the host uses other registers before it waits. -/
def overlapped (w : CmdWord) : State :=
  { running w with host := [.write 1 7, .read 3, .write 0 0, .resetOff, .await, .read 3] }

/-- A legal word and an illegal one, and a host with nothing left to do. -/
theorem witness_AcceptedCommandCompletes :
    ((overlapped 0xC11).cfg.wf ∧ (overlapped 0xC11).busy = true ∧ (overlapped 0xC11).inReset = false) ∧
    .resetOn ∉ (overlapped 0xC11).host ∧ .resetOn ∉ ({ running 0xC11 with host := [] } : State).host ∧
    decode (overlapped 0xC11).cfg (overlapped 0xC11).cmd = .ok (.bsWbits 12) ∧
    ¬legalWord (overlapped 0x8000).cfg (overlapped 0x8000).cmd.toNat :=
  ⟨by decide, by decide, by decide, rfl, by decide⟩
theorem witness_StatementRunsItsCommand :
    let p : Statement := { instr := .appAppend, a := some 1000, b := some 0 }
    let s := { begun with host := p.events ++ [HostEvent.read 5] }
    s.cfg.wf ∧ s.inReset = false ∧ s.busy = false ∧ p.instr.wf s.cfg = true ∧
      s.host = p.events ++ [HostEvent.read 5] := by decide
theorem witness_ResetMeetsInvariant :
    Config.standard.wf ∧ { Config.standard with hdrBytes := 8, nDec := 16, payloadCap := some 1 }.wf :=
  ⟨by decide, by decide⟩

theorem witness_StepKeepsInvariant :
    (∀ s ∈ [State.reset, begun, abc, reading, tight, chunk, chunk1, chunkEnd], s.Inv) ∧
    ∃ t, step ({ begun with opa := 1000 }.withFetchWord 32 0x31) = .next t :=
  ⟨by decide +kernel, _, rfl⟩
theorem witness_StepKeepsConfiguration : ∃ t, step (running 0xC11) = .next t := ⟨_, rfl⟩

theorem witness_ErrorsRollBack :
    (∃ t, exec (.iterNext 0) reading = .next t ∧ t.st ≠ .ok ∧ t.st ≠ .illegalCommand) ∧
    (∃ t, exec (.iterInit 1) State.reset = .next t ∧ t.st ≠ .ok ∧ t.st ≠ .illegalCommand) ∧
    (∃ t, exec (.iterNext 2) reading = .next t ∧ t.st = .illegalCommand) ∧
    (∃ t, exec (.bsWbits 5) tight = .next t ∧ t.st ≠ .ok) :=
  ⟨⟨_, rfl, by decide⟩, ⟨_, rfl, by decide⟩, ⟨_, rfl, by decide⟩, ⟨_, rfl, by decide +kernel⟩⟩
theorem witness_ReadingCommandsKeepTheStore :
    (∃ t, exec (.bsRbits 12 0) reading = .next t ∧ t.st = .ok) ∧ (∃ t, exec (.iterNext 0) chunk = .next t ∧ t.st = .ok) ∧
    ∃ t, exec (.rdPos 0) reading = .next t ∧ t.st = .ok :=
  ⟨⟨_, rfl, by decide +kernel⟩, ⟨_, rfl, by decide +kernel⟩, _, rfl, by decide +kernel⟩
theorem witness_StreamIsAppendOnly :
    abc.payload.wf ∧ Instr.bsWbit ≠ .clear ∧ Instr.bsWbit ≠ .appInit ∧ ∃ t, exec .bsWbit abc = .next t :=
  ⟨by decide, by decide, by decide, _, rfl⟩
theorem witness_EndOnlyAtReachedCount : ∃ t, exec (.iterNext 0) chunkEnd = .next t ∧ t.endFlag = true :=
  ⟨_, rfl, by decide +kernel⟩
theorem witness_CompressorOwnsItsChunk :
    (∃ t, exec .appInit State.reset = .next t ∧ State.reset.app.valid = false ∧ t.app.valid = true) ∧
    (∃ t, exec .chLoadb chunk = .next t ∧ chunk.app.valid = true ∧ t.app.valid = false) ∧
    (∃ t, exec .appAppend begun = .next t ∧ t.st = .ok) ∧
    (∃ t, exec .bsWbit chunk = .next t) ∧ Instr.bsWbit ∉ [.appAppend, .appInit, .clear, .chLoadb] :=
  ⟨⟨_, rfl, by decide, by decide +kernel⟩, ⟨_, rfl, by decide, by decide +kernel⟩, ⟨_, rfl, by decide +kernel⟩,
    ⟨_, rfl⟩, by decide⟩

/-- Twelve bits in the store, one appended: byte 0 lies below the bits appended, byte 2 above them. -/
theorem witness_CommitAppendsOutInOrder :
    abc.payload.wf ∧ 0 < abc.payload.vb / 8 ∧ (abc.payload.vb + 1 + 7) / 8 ≤ 2 := by decide
/-- Room for exactly four bits and no more, and the counts at the ends of their ranges. -/
theorem witness_BitWritersAppendOperandBits :
    tight.storeWf ∧ tight.hasRoom 4 ∧ ¬tight.hasRoom 5 ∧ (64 : BitVec 7).toNat ≤ 64 ∧ 64 < (65 : BitVec 7).toNat ∧
    (8 : BitVec 7).toNat ≤ 8 ∧ 8 < (9 : BitVec 7).toNat := by decide
theorem witness_ByteCommandsAreBitGroups : (0 : BitVec 7).toNat ≤ 8 ∧ (8 : BitVec 7).toNat ≤ 8 := by decide
theorem witness_StoreInspection :
    ({ abc with latA := 1 } : State).latA.toNat < abc.payload.wlen ∧
    abc.payload.wlen ≤ ({ abc with latA := 2 } : State).latA.toNat := by decide
theorem witness_ReadersOpenAndReport :
    (1 : BitVec 4).toNat < reading.cfg.nDec ∧ ({ abc with latA := 12 } : State).latA.toNat ≤ abc.payload.vb ∧
    abc.payload.vb < ({ abc with latA := 13 } : State).latA.toNat ∧ (reading.ctx 1).act = true ∧
    (abc.ctx 1).act = false := by decide
/-- Context 0 reads at most twelve bits; context 1, at `VB`, none. -/
theorem witness_RawReadersReturnStreamBits :
    (1 : BitVec 4).toNat < reading.cfg.nDec ∧ (12 : BitVec 7).toNat ≤ 64 ∧
    (reading.ctx 0).act = true ∧ (reading.ctx 0).cur + 12 ≤ reading.payload.vb ∧
    reading.payload.vb < (reading.ctx 0).cur + 13 ∧ reading.payload.vb < (reading.ctx 1).cur + 1 ∧
    (reading.ctx 1).cur + 0 ≤ reading.payload.vb ∧ (abc.ctx 0).act = false := by decide

theorem witness_UvarintEncoderWritesMinimalCode :
    State.reset.storeWf ∧ State.reset.hasRoom 80 ∧ tight.storeWf ∧ ¬tight.hasRoom 8 := by decide
/-- Nine bytes of 0xFF and then a tenth: 1 is read, 2 overflows; with nine bytes only, the tenth is missing. -/
theorem witness_UvarintDecoderReadsBytes :
    let p (b : Byte) : Payload :=
      { mem := (List.range 9).map (fun k => (k, (0xFF : Byte))) ++ [(9, b)], wlen := 10, wfill := 8 }
    let q : Payload := { mem := (List.range 9).map (fun k => (k, (0xFF : Byte))), wlen := 9, wfill := 8 }
    (0 : BitVec 4).toNat < reading.cfg.nDec ∧ (abc.ctx 0).act = false ∧ (reading.ctx 0).act = true ∧
    (reading.ctx 0).cur = 0 ∧
    (∀ i < 9, 128 ≤ (p 1).byteAt 0 i ∧ 128 ≤ (p 2).byteAt 0 i ∧ 128 ≤ q.byteAt 0 i) ∧
    0 + 8 * (9 + 1) ≤ (p 1).vb ∧ (p 1).byteAt 0 9 = 1 ∧
    0 + 8 * (9 + 1) ≤ (p 2).vb ∧ 1 < (p 2).byteAt 0 9 ∧ q.vb < 0 + 8 * (9 + 1) := by decide +kernel
theorem witness_SelectorsReportSmallestBucket : State.reset.cfg.wf := by decide
theorem witness_VarbitEncodersUseSmallestBucket : tight.cfg.wf ∧ tight.storeWf := by decide

/-- Bucket 2's 64 in full; two bits of a prefix; bucket 2's prefix with five of its six value bits; the escape
bucket's 64 bits. -/
theorem witness_VarbitDecodersReadNamedBucket :
    let c := Config.standard
    let full := onBits (varbitCode c 8 64) (DecCtx.openRaw 0)
    let mid := onBits [true, true] (DecCtx.openRaw 0)
    let short := onBits (bucketCode c 2 ++ List.replicate 5 true) (DecCtx.openRaw 0)
    (full.cfg.wf ∧ (0 : BitVec 4).toNat < full.cfg.nDec ∧ (full.ctx 1).act = false) ∧
    ((full.ctx 0).act = true ∧ 8 < full.cfg.k ∧ (64 : Word).toNat < 2 ^ full.cfg.width 8 ∧
      full.payload.codeAt (full.ctx 0).cur (varbitCode full.cfg 8 64)) ∧
    ((mid.ctx 0).act = true ∧ 2 < mid.cfg.k - 1 ∧ (mid.ctx 0).cur + 2 = mid.payload.vb ∧
      mid.payload.codeAt (mid.ctx 0).cur (List.replicate 2 true)) ∧
    ((short.ctx 0).act = true ∧ 2 < short.cfg.k ∧ short.payload.codeAt (short.ctx 0).cur (bucketCode short.cfg 2) ∧
      short.payload.vb < (short.ctx 0).cur + (bucketCode short.cfg 2).length + short.cfg.width 2) := by
  refine ⟨by decide +kernel, ⟨by decide +kernel, by decide, by decide, codeAt_of_holds (by decide +kernel)⟩,
    ⟨by decide +kernel, by decide, by decide +kernel, codeAt_of_holds (by decide +kernel)⟩,
    by decide +kernel, by decide, codeAt_of_holds (by decide +kernel), by decide +kernel⟩

theorem witness_CodecsRoundTrip :
    ∃ t u, abc.Inv ∧ (0 : BitVec 4).toNat < abc.cfg.nDec ∧ exec .uvEnc abc = .next t ∧ t.st = .ok ∧
      t.payload.vb < 2 ^ 64 ∧
      exec (.rdOpen 0) (t.withOperands (BitVec.ofNat 64 abc.payload.vb) 0) = .next u :=
  ⟨_, _, by decide, by decide, rfl, by decide +kernel, by decide +kernel, rfl⟩

theorem witness_ClearMatchesReset : reading.dec.length = reading.cfg.nDec := by decide
/-- No chunk; a full chunk; equal timestamps. -/
theorem witness_AppendRefusalsInOrder :
    State.reset.app.valid = false ∧
    (let s := { chunk with app := { chunk.app with cnt := 65535 } };
      s.app.valid = true ∧ s.app.cnt.toNat = s.cfg.maxSamples) ∧
    (let s := { chunk with latA := 1010 };
      s.app.valid = true ∧ s.app.cnt.toNat ≠ s.cfg.maxSamples ∧ s.app.cnt.toNat ≠ 0 ∧
      s.latA.toInt ≤ s.app.pt.toInt) := by decide
theorem witness_FirstSampleIsRaw :
    begun.cfg.wf ∧ begun.storeWf ∧ begun.app.valid = true ∧ begun.app.cnt = 0 := by decide
/-- `chunk` with `n` samples in it and the next timestamp's smallest delta in `OPA`. -/
def growing (n : Word) : State := { chunk with latA := 1011, app := { chunk.app with cnt := n } }

/-- After one sample, and one below the limit. -/
theorem witness_LaterSamplesAreDeltas :
    ((growing 1).cfg.wf ∧ (growing 1).storeWf ∧ (growing 1).app.valid = true ∧ (growing 1).app.cnt ≠ 0 ∧
      (growing 1).app.cnt.toNat ≠ (growing 1).cfg.maxSamples ∧
      (growing 1).app.pt.toInt < (growing 1).latA.toInt) ∧
    (growing 65534).app.cnt ≠ 0 ∧ (growing 65534).app.cnt.toNat ≠ (growing 65534).cfg.maxSamples :=
  ⟨by decide +kernel, by decide +kernel, by decide +kernel⟩
theorem witness_SteadySeriesIsNearlyFree :
    let s := { chunk with latA := 1020, latB := 0x3FF0000000000000 }
    s.cfg.wf ∧ s.storeWf ∧ s.app.valid = true ∧ s.app.cnt ≠ 0 ∧ s.app.cnt.toNat ≠ s.cfg.maxSamples ∧
    s.app.pt.toInt < s.latA.toInt ∧ s.latB = s.app.pv ∧ s.app.cnt ≠ 1 ∧ s.latA - s.app.pt = s.app.pd := by
  decide +kernel
theorem witness_SampleLengthIsBounded :
    begun.cfg.widths = Config.standard.widths ∧ begun.cfg.lzBits = 5 ∧ begun.cfg.mbBits = 6 ∧ begun.payload.wf ∧
    ∃ t, exec .appAppend begun = .next t ∧ t.st = .ok :=
  ⟨by decide, by decide, by decide, by decide, _, rfl, by decide +kernel⟩

theorem witness_IterInitLatchesCount :
    (1 : BitVec 4).toNat < chunk.cfg.nDec ∧ chunk.cfg.hdrBytes ≤ chunk.header.hlen ∧
    (let s := { chunk with header := { hdr := 2, hlen := 1 } }; s.header.hlen < s.cfg.hdrBytes) := by decide
theorem witness_IterNextEndsOrRefuses :
    (0 : BitVec 4).toNat < chunkEnd.cfg.nDec ∧ (chunkEnd.ctx 0).act = true ∧ (chunkEnd.ctx 0).mode = .iter ∧
    (chunkEnd.ctx 0).i = (chunkEnd.ctx 0).n ∧ (chunkEnd.ctx 1).act = false ∧ (reading.ctx 0).mode = .raw := by decide
/-- 44_appender.md R525's example: timestamp 1000 in bucket 4, value 1.0. -/
theorem witness_IterNextReadsFirstSample :
    chunk.cfg.wf ∧ (0 : BitVec 4).toNat < chunk.cfg.nDec ∧ (chunk.ctx 0).act = true ∧
    (chunk.ctx 0).mode = .iter ∧ (chunk.ctx 0).i = 0 ∧ (chunk.ctx 0).n ≠ 0 ∧ 4 < chunk.cfg.k ∧
    (2000 : Word).toNat < 2 ^ chunk.cfg.width 4 ∧
    chunk.payload.codeAt (chunk.ctx 0).cur (varbitCode chunk.cfg 4 2000 ++ msbBits 0x3FF0000000000000 64) :=
  ⟨by decide, by decide, by decide, by decide, by decide, by decide, by decide, by decide,
    codeAt_of_holds (by decide +kernel)⟩

/-- An iterator context in mid-chunk, with and without a window. -/
def midway (wv : Bool) : DecCtx := { DecCtx.openIter 3 with i := 1, wv := wv, lz := 8, tz := 48 }

/-- The second sample of 44_appender.md R525's example; then a reused window of eight bits; then a new window of all 64
bits, its width field 0. -/
theorem witness_IterNextReadsLaterSample :
    (chunk1.cfg.wf ∧ (0 : BitVec 4).toNat < chunk1.cfg.nDec ∧ (chunk1.ctx 0).act = true ∧
      (chunk1.ctx 0).mode = .iter ∧ (chunk1.ctx 0).i ≠ 0 ∧ (chunk1.ctx 0).i ≠ (chunk1.ctx 0).n ∧
      2 < chunk1.cfg.k ∧ (20 : Word).toNat < 2 ^ chunk1.cfg.width 2 ∧
      DecodedValue chunk1.cfg (chunk1.ctx 0) [false] (chunk1.ctx 0) ∧
      chunk1.payload.codeAt (chunk1.ctx 0).cur (varbitCode chunk1.cfg 2 20 ++ [false])) ∧
    (let field := [true, false] ++ msbBits 0xA5 (64 - 8 - 48);
      let s := onBits (varbitCode Config.standard 0 0 ++ field) (midway true);
      (s.ctx 0).i ≠ 0 ∧ (s.ctx 0).i ≠ (s.ctx 0).n ∧
      s.payload.codeAt (s.ctx 0).cur (varbitCode s.cfg 0 0 ++ field) ∧
      ∃ d, DecodedValue s.cfg (s.ctx 0) field d) ∧
    (let field := [true, true] ++ msbBits (BitVec.ofNat 64 0) 5 ++ msbBits (BitVec.ofNat 64 0) 6 ++ msbBits 1 64;
      let s := onBits (varbitCode Config.standard 0 0 ++ field) (midway false);
      s.payload.codeAt (s.ctx 0).cur (varbitCode s.cfg 0 0 ++ field) ∧
      ∃ d, DecodedValue s.cfg (s.ctx 0) field d) := by
  refine ⟨⟨by decide, by decide, by decide, by decide, by decide, by decide, by decide, by decide, .unchanged,
    codeAt_of_holds (by decide +kernel)⟩, ⟨by decide +kernel, by decide +kernel, codeAt_of_holds (by decide +kernel), _,
    .reuse 0xA5 rfl (by decide)⟩, codeAt_of_holds (by decide +kernel), _, .window 0 0 64 1 (by decide) (by decide) (by decide)
    (by decide) (by decide)⟩

/-- A reuse with no window; windows of 65 bits and more. -/
theorem witness_IterNextFailuresCloseContext :
    let c := Config.standard
    let ts := varbitCode c 0 0
    let reuse := onBits (ts ++ [true, false]) (midway false)
    let wide (lz f : Nat) :=
      onBits (ts ++ [true, true] ++ msbBits (BitVec.ofNat 64 lz) 5 ++ msbBits (BitVec.ofNat 64 f) 6) (midway false)
    (reuse.cfg.wf ∧ (0 : BitVec 4).toNat < reuse.cfg.nDec ∧ (reuse.ctx 0).act = true ∧
      (reuse.ctx 0).mode = .iter ∧ (reuse.ctx 0).i ≠ (reuse.ctx 0).n ∧ 0 < reuse.cfg.k ∧
      (0 : Word).toNat < 2 ^ reuse.cfg.width 0 ∧ (reuse.ctx 0).i ≠ 0 ∧ (reuse.ctx 0).wv = false ∧
      reuse.payload.codeAt (reuse.ctx 0).cur (ts ++ [true, false])) ∧
    (∀ x ∈ [(1, 0), (2, 63), (31, 34)], x.1 < 2 ^ c.lzBits ∧ x.2 < 2 ^ c.mbBits ∧
      64 < x.1 + (if x.2 = 0 then 64 else x.2) ∧
      (wide x.1 x.2).payload.codeAt 0 (ts ++ [true, true] ++ msbBits (BitVec.ofNat 64 x.1) c.lzBits ++
        msbBits (BitVec.ofNat 64 x.2) c.mbBits)) := by
  refine ⟨⟨by decide +kernel, by decide, by decide +kernel, by decide +kernel, by decide +kernel, by decide, by decide,
    by decide +kernel, by decide +kernel, codeAt_of_holds (by decide +kernel)⟩, ?_⟩
  intro x hx
  simp only [List.mem_cons, List.not_mem_nil, or_false] at hx
  rcases hx with rfl | rfl | rfl <;>
    exact ⟨by decide, by decide, by decide, codeAt_of_holds (by decide +kernel)⟩

/-- The payload is `code` cut at bit `n`, with context `d` at its start: what a clause on truncation asks. -/
def cutsAt (d : DecCtx) (code : List Bool) (n : Nat) : Bool :=
  let s := onBits (code.take n) d
  decide (n < code.length ∧ (s.ctx 0).act = true ∧ (s.ctx 0).mode = .iter ∧ (s.ctx 0).i ≠ (s.ctx 0).n ∧
    (s.ctx 0).cur + n = s.payload.vb) && holds s.payload (s.ctx 0).cur (code.take n)

/-- A timestamp of three prefix and six value bits, then a first value, a window's two fields (of a window that is too wide),
a reused window of eight bits, and a new window of 64 bits, each cut at both ends of each of its parts. -/
theorem witness_IterNextFailuresCloseContext_cuts :
    let ts := varbitCode Config.standard 2 40
    let reuse := [true, false] ++ msbBits 0xA5 8
    let new := [true, true] ++ msbBits (BitVec.ofNat 64 0) 5 ++ msbBits (BitVec.ofNat 64 0) 6 ++ msbBits 1 64
    (40 : Word).toNat < 2 ^ Config.standard.width 2 ∧ (DecCtx.openIter 1).i = 0 ∧
    (midway false).i ≠ 0 ∧ (midway true).i ≠ 0 ∧
    (∀ n ∈ [0, 2, 3, 8, 9, 72], cutsAt (DecCtx.openIter 1) (ts ++ msbBits 0x3FF0000000000000 64) n = true) ∧
    (∀ n ∈ [0, 2, 3, 8, 9, 10, 11, 15, 16, 21], cutsAt (midway false)
      (ts ++ [true, true] ++ msbBits (BitVec.ofNat 64 31) 5 ++ msbBits (BitVec.ofNat 64 63) 6) n = true) ∧
    (∃ d, DecodedValue Config.standard (midway true) reuse d) ∧
    (∀ n ∈ [11, 18], cutsAt (midway true) (ts ++ reuse) n = true) ∧
    (∃ d, DecodedValue Config.standard (midway false) new d) ∧
    (∀ n ∈ [22, 85], cutsAt (midway false) (ts ++ new) n = true) :=
  ⟨by decide, by decide, by decide, by decide, by decide +kernel, by decide +kernel, ⟨_, .reuse 0xA5 rfl (by decide)⟩,
    by decide +kernel, ⟨_, .window 0 0 64 1 (by decide) (by decide) (by decide) (by decide) (by decide)⟩,
    by decide +kernel⟩

theorem Except.ok_of_toBool {α : Type} {x : Except Status α} (h : x.toBool = true) : ∃ a, x = .ok a := by
  cases x with
  | ok a => exact ⟨a, rfl⟩
  | error _ => cases h

/-- The cut of 45_iterator.md R573 inside the meaningful bits of a new window: `Truncated`, and the context is closed. -/
theorem test_iterNext_truncated :
    let s := onBits ((varbitCode Config.standard 2 40 ++ [true, true] ++ msbBits (BitVec.ofNat 64 31) 5 ++
      msbBits (BitVec.ofNat 64 33) 6 ++ msbBits 1 33).take 54) (midway false)
    posted (issue 0x33 0 0 s) = (.truncated, 0, 0, false) ∧
    ((issue 0x33 0 0 s).dec.map DecCtx.act) = [false, false] := by decide +kernel

theorem witness_AppendsKeepDecodedSamples :
    twoSamples.wf ∧ ∃ d, decodeSample Config.standard twoSamples (DecCtx.openIter 2) = .ok d :=
  ⟨by decide, Except.ok_of_toBool (by decide +kernel)⟩

/-- A header with its last byte missing, and a complete one with an empty payload. -/
theorem witness_LoadFillsHeaderThenPayload :
    (let s := { State.reset with header := { hdr := 3, hlen := 1 } };
      s.cfg.wf ∧ s.storeWf ∧ s.payload.wlen = 0 ∧ s.header.hlen < s.cfg.hdrBytes) ∧
    (begun.cfg.wf ∧ begun.storeWf ∧ ¬(begun.payload.wlen = 0 ∧ begun.header.hlen < begun.cfg.hdrBytes)) := by decide
theorem witness_HeaderByteOrder :
    1 < Config.standard.hdrBytes ∧ Config.standard.hdrOrder = .le ∧
    ({ Config.standard with hdrOrder := .be } : Config).hdrOrder = .be := by decide
theorem witness_ImageIsHeaderThenPayload :
    ({ chunk with latA := 2 } : State).image[2]? = some 0xF3 ∧ chunk.image[13]? = some 0 ∧
    chunk.image[14]? = none ∧ 1 < chunk.header.hlen ∧ 11 < chunk.payload.wlen := by decide +kernel

/-- The state after one successful `APP_APPEND` for each sample, if all succeed. -/
def appends : State → List (Word × Word) → Option State
  | s, [] => some s
  | s, (a, b) :: rest =>
    let u := nextOf (exec .appAppend (s.withOperands a b)) s
    if u.st = .ok then appends u rest else none

theorem appendsAll_of : ∀ (xs : List (Word × Word)) (s : State) (h : (appends s xs).isSome = true),
    AppendsAll s xs ((appends s xs).get h)
  | [], _, _ => rfl
  | (a, b) :: rest, s, h => by
    by_cases hu : (nextOf (exec .appAppend (s.withOperands a b)) s).st = .ok
    · have e : appends s ((a, b) :: rest) = appends (nextOf (exec .appAppend (s.withOperands a b)) s) rest :=
        if_pos hu
      have h' := e ▸ h
      refine ⟨_, rfl, hu, ?_⟩
      have all := appendsAll_of rest _ h'
      simp only [← e] at all
      exact all
    · have e : appends s ((a, b) :: rest) = none := if_neg hu
      rw [e] at h
      cases h

/-- The state after one successful `CH_LOADB` for each byte, if all succeed. -/
def loads : State → List Byte → Option State
  | s, [] => some s
  | s, b :: rest =>
    let u := nextOf (exec .chLoadb (s.withOperands (b.setWidth 64) 0)) s
    if u.st = .ok then loads u rest else none

theorem loadsAll_of : ∀ (bs : List Byte) (s : State) (h : (loads s bs).isSome = true),
    LoadsAll s bs ((loads s bs).get h)
  | [], _, _ => rfl
  | b :: rest, s, h => by
    by_cases hu : (nextOf (exec .chLoadb (s.withOperands (b.setWidth 64) 0)) s).st = .ok
    · have e : loads s (b :: rest) = loads (nextOf (exec .chLoadb (s.withOperands (b.setWidth 64) 0)) s) rest :=
        if_pos hu
      have h' := e ▸ h
      refine ⟨_, rfl, hu, ?_⟩
      have all := loadsAll_of rest _ h'
      simp only [← e] at all
      exact all
    · have e : loads s (b :: rest) = none := if_neg hu
      rw [e] at h
      cases h

/-- The samples of 44_appender.md R525's example. -/
def samples : List (Word × Word) := [(1000, 0x3FF0000000000000), (1010, 0x3FF0000000000000)]

/-- After `APP_INIT` from reset. -/
def fresh : State := nextOf (exec .appInit State.reset) State.reset

theorem samples_append : (appends fresh samples).isSome = true := by decide +kernel

/-- After the two appends. -/
def full : State := (appends fresh samples).get samples_append

/-- After `CLEAR`. -/
def cleared : State := nextOf (exec .clear full) full

theorem image_loads : (loads cleared full.image).isSome = true := by decide +kernel

/-- A list of bytes less its last `k`. -/
@[irreducible] def lessLast (bs : List Byte) (k : Nat) : List Byte := bs.take (bs.length - k)

theorem lessLast_eq (bs : List Byte) (k : Nat) : lessLast bs k = bs.take (bs.length - k) := by rw [lessLast]

theorem lessLast_all (bs : List Byte) : lessLast bs bs.length = [] := by
  rw [lessLast, Nat.sub_self, List.take_zero]

theorem cut_loads : (loads cleared (lessLast full.image 1)).isSome = true := by decide +kernel

/-- After loading the image less its last byte. -/
def cutLoaded : State := (loads cleared (lessLast full.image 1)).get cut_loads

theorem cut_loadsAll : LoadsAll cleared (lessLast full.image 1) cutLoaded :=
  loadsAll_of (lessLast full.image 1) cleared cut_loads

theorem none_loadsAll : LoadsAll cleared (lessLast full.image full.image.length) cleared :=
  (congrArg (LoadsAll cleared · cleared) (lessLast_all full.image)).mpr rfl

theorem exec_iterInit_nextOf (j : BitVec 4) (s d : State) :
    exec (.iterInit j) s = .next (nextOf (exec (.iterInit j) s) d) := rfl

theorem witness_ChunkRoundTrip :
    State.reset.Inv ∧ (1 : BitVec 4).toNat < State.reset.cfg.nDec ∧ exec .appInit State.reset = .next fresh ∧
    AppendsAll fresh samples full :=
  ⟨by decide, by decide, rfl, appendsAll_of _ _ _⟩
theorem witness_ReloadedImageIterates :
    State.reset.Inv ∧ (1 : BitVec 4).toNat < State.reset.cfg.nDec ∧ exec .appInit State.reset = .next fresh ∧
    AppendsAll fresh samples full ∧ exec .clear full = .next cleared ∧
    LoadsAll cleared full.image ((loads cleared full.image).get image_loads) :=
  ⟨by decide, by decide, rfl, appendsAll_of _ _ _, rfl, loadsAll_of _ _ _⟩
/-- One byte cut off, and the whole image cut off (`lessLast_eq`): the first iterates, the second lacks its header. -/
theorem witness_TruncatedImageNeverMisleads :
    State.reset.Inv ∧ (1 : BitVec 4).toNat < State.reset.cfg.nDec ∧ exec .appInit State.reset = .next fresh ∧
    AppendsAll fresh samples full ∧ exec .clear full = .next cleared ∧ 0 < 1 ∧ 1 ≤ full.image.length ∧
    (LoadsAll cleared (lessLast full.image 1) cutLoaded ∧
      exec (.iterInit 1) cutLoaded = .next (nextOf (exec (.iterInit 1) cutLoaded) cleared) ∧
      (nextOf (exec (.iterInit 1) cutLoaded) cleared).st = .ok) ∧
    LoadsAll cleared (lessLast full.image full.image.length) cleared ∧
    exec (.iterInit 1) cleared = .next (nextOf (exec (.iterInit 1) cleared) cleared) ∧
    (nextOf (exec (.iterInit 1) cleared) cleared).st = .truncated := by
  refine ⟨by decide, by decide, rfl, appendsAll_of _ _ _, rfl, by decide, by decide +kernel,
    ⟨cut_loadsAll, exec_iterInit_nextOf _ _ _,
      by decide +kernel⟩, none_loadsAll, exec_iterInit_nextOf _ _ _, by decide +kernel⟩

end Sys2Proof.Tests
end

section
/-! The frame of a command and the cases of a step; no step changes the configuration (00_scope.md R10). -/

namespace Sys2Proof.Machine

/-! ### What no command changes -/

/-- What no command writes: the parameters, the registers the host alone writes, the reset line, the host's own side,
and the number of contexts (10_state.md R101, R102, R104). -/
structure State.HostSideKept (s t : State) : Prop where
  cfg : t.cfg = s.cfg
  cmd : t.cmd = s.cmd
  opa : t.opa = s.opa
  opb : t.opb = s.opb
  latA : t.latA = s.latA
  latB : t.latB = s.latB
  ovr : t.ovr = s.ovr
  inReset : t.inReset = s.inReset
  host : t.host = s.host
  hostData : t.hostData = s.hostData
  decLength : t.dec.length = s.dec.length

theorem State.HostSideKept.refl (s : State) : s.HostSideKept s := by constructor <;> rfl

theorem State.HostSideKept.post {s t : State} (h : s.HostSideKept t) (st : Status) (r0 r1 : Word) (e : Bool) :
    s.HostSideKept (t.post st r0 r1 e) := { h with }

theorem State.HostSideKept.withStore {s t : State} (h : s.HostSideKept t) (p : Payload) (hd : Header) (a : Appender) :
    s.HostSideKept { t with payload := p, header := hd, app := a } := { h with }

theorem State.hostSideKept_setCtx (s : State) (j : BitVec 4) (d : DecCtx) : s.HostSideKept (s.setCtx j d) :=
  { State.HostSideKept.refl s with decLength := by simp }

theorem State.hostSideKept_closeAll (s : State) : s.HostSideKept s.closeAll :=
  { State.HostSideKept.refl s with decLength := by simp }

theorem State.hostSideKept_cleared (s : State) : s.HostSideKept s.cleared :=
  s.hostSideKept_closeAll.withStore _ _ _

theorem State.hostSideKept_disowned (s : State) : s.HostSideKept s.disowned :=
  (State.HostSideKept.refl s).withStore _ _ _

theorem State.hostSideKept_raise (s : State) (closes : Option (BitVec 4)) (e : Status) :
    s.HostSideKept (s.raise closes e) := by
  cases closes with
  | none => exact (State.HostSideKept.refl s).post _ _ _ _
  | some j =>
    rw [State.raise_some]
    split
    · exact (State.HostSideKept.refl s).post _ _ _ _
    · exact (s.hostSideKept_setCtx _ _).post _ _ _ _

/-! ### The pending state of a command -/

/-- If a command hands on a pending state, that state has the host's side of `s` (00_scope.md R24). -/
def State.PendingKeeps (s : State) (r : Except Status Done) : Prop := ∀ d, r = .ok d → s.HostSideKept d.pending

theorem State.PendingKeeps.of_error (s : State) (e : Status) : s.PendingKeeps (.error e) := by
  intro _ h
  cases h

theorem State.PendingKeeps.of_ok {s : State} {d : Done} (h : s.HostSideKept d.pending) : s.PendingKeeps (.ok d) := by
  rintro _ ⟨⟩
  exact h

theorem State.PendingKeeps.of_returns {s p : State} (h : s.HostSideKept p) (r0 r1 : Word) :
    s.PendingKeeps (returns p r0 r1) := .of_ok h

theorem State.PendingKeeps.of_written {s p : State} (h : s.HostSideKept p) (out : List Bool) :
    s.PendingKeeps (written p out) := .of_ok h

/-- What a command checks or reads first has no say in what its end keeps. -/
theorem State.PendingKeeps.bind {α : Type} {s : State} {x : Except Status α} {f : α → Except Status Done}
    (h : ∀ a, s.PendingKeeps (f a)) : s.PendingKeeps (x >>= f) := by
  intro d hd
  obtain ⟨a, -, ha⟩ := except_bind_eq_ok.mp hd
  exact h a d ha

theorem State.PendingKeeps.ite {s : State} {c : Prop} [Decidable c] {x y : Except Status Done}
    (hx : s.PendingKeeps x) (hy : s.PendingKeeps y) : s.PendingKeeps (if c then x else y) := by
  split
  · exact hx
  · exact hy

theorem State.PendingKeeps.of_rawRead (s : State) (j : BitVec 4) (n : Nat) : s.PendingKeeps (s.rawRead j n) :=
  .bind fun _ => .bind fun _ => .bind fun _ => .of_returns (s.hostSideKept_setCtx _ _) _ _

/-! ### Commands as transactions -/

/-- The context that an error of the command closes (60_exceptions.md R712, 41_bitstream.md R435). -/
def errorCloses : Instr → Option (BitVec 4)
  | .iterInit j | .iterNext j => some j
  | _ => none

/-- Every command runs as one transaction, and what it hands on keeps the host's side (30_encoding.md R305). -/
theorem exec_eq_run (i : Instr) (s : State) : ∃ r, exec i s = s.run (errorCloses i) r ∧ s.PendingKeeps r := by
  have same := State.HostSideKept.refl s
  have moved (j : BitVec 4) (d : DecCtx) : s.HostSideKept (s.setCtx j d) := s.hostSideKept_setCtx j d
  cases i with
  | nop | bsLen | vbSelU | vbSelS | zzMap | zzUnmap | chLen => exact ⟨_, rfl, .of_returns same _ _⟩
  | bsWbit | bsWbyte | uvEnc | vbEncU | vbEncS => exact ⟨_, rfl, .of_written same _⟩
  | bsWbits | bsWbytes => exact ⟨_, rfl, .bind fun _ => .of_written same _⟩
  | bsRdbyte => exact ⟨_, rfl, .ite (.of_error s _) (.of_returns same _ _)⟩
  | chRdb => exact ⟨_, rfl, .ite (.of_returns same _ _) (.ite (.of_returns same _ _) (.of_error s _))⟩
  | rdPos => exact ⟨_, rfl, .bind fun _ => .bind fun _ => .of_returns same _ _⟩
  | bsRbit | bsRbyte => exact ⟨_, rfl, .of_rawRead s _ _⟩
  | bsRbits => exact ⟨_, rfl, .bind fun _ => .of_rawRead s _ _⟩
  | uvDec j | vbDecU j | vbDecS j =>
    exact ⟨_, rfl, .bind fun _ => .bind fun _ => .bind fun _ => .of_returns (moved j _) _ _⟩
  | rdOpen j | iterInit j =>
    exact ⟨_, rfl, .bind fun _ => .ite (.of_error s _) (.of_returns (moved j _) _ _)⟩
  | iterNext j =>
    exact ⟨_, rfl, .bind fun _ => .bind fun _ => .ite (.of_error s _) <| .ite (.of_ok same) <|
      .bind fun _ => .of_returns (moved j _) _ _⟩
  | clear => exact ⟨_, rfl, .of_returns s.hostSideKept_cleared _ _⟩
  | appInit => exact ⟨_, rfl, .of_returns (s.hostSideKept_closeAll.withStore _ _ _) _ _⟩
  | appAppend => exact ⟨_, rfl, .bind fun _ => .of_written (same.withStore _ _ _) _⟩
  | chLoadb =>
    exact ⟨_, rfl, .ite (.of_written (s.hostSideKept_disowned.withStore _ _ _) _)
      (.of_written s.hostSideKept_disowned _)⟩

/-- The completion of a transaction, by commit or by roll-back, keeps the host's side. -/
theorem State.hostSideKept_complete {s : State} {r : Except Status Done} (closes : Option (BitVec 4))
    (h : s.PendingKeeps r) : s.HostSideKept (s.complete closes r) := by
  rcases s.complete_cases closes r with ⟨e, -, he⟩ | ⟨d, hd, -, he⟩ <;> rw [he]
  · exact s.hostSideKept_raise closes e
  · exact ((h d hd).withStore _ _ _).post _ _ _ _

/-- Every command ends in a next state that keeps the host's side (70_reset_and_hazards.md R820). -/
theorem exec_keeps_hostSide (i : Instr) (s : State) : ∃ t, exec i s = .next t ∧ s.HostSideKept t := by
  obtain ⟨r, hr, hk⟩ := exec_eq_run i s
  exact ⟨_, hr, State.hostSideKept_complete _ hk⟩

/-- The run of an accepted word, legal or not, ends in a next state that keeps the host's side. -/
theorem State.runCommand_keeps_hostSide (s : State) : ∃ t, s.runCommand = .next t ∧ s.HostSideKept t := by
  unfold State.runCommand
  split
  · exact exec_keeps_hostSide _ s
  · exact ⟨_, rfl, s.hostSideKept_raise none _⟩

/-! ### What a step can do -/

/-- Everything a step that answers can be: the completion of the running command, an idle step, or the host's oldest
event (notes/assumptions/1.md). -/
theorem step_cases {s t : State} (h : step s = .next t) :
    s.cfg.wf ∧
      ((∃ rest, s.completing rest ∧ { s with host := rest }.runCommand = .next t) ∨
        (s.busy && !s.inReset) = false ∧ s.host = [] ∧ t = s ∨
        ∃ e rest, s.host = e :: rest ∧ (e = .await → (s.busy && !s.inReset) = false) ∧
          t = { s with host := rest }.hostAct e) := by
  unfold step at h
  split at h
  case isFalse => cases h
  case isTrue hwf =>
    refine ⟨hwf, ?_⟩
    unfold State.advance at h
    split at h
    next hhost =>
      split at h
      next hrun =>
        obtain ⟨hb, hr⟩ : s.busy = true ∧ s.inReset = false := by simpa using hrun
        exact .inl ⟨[], ⟨hb, hr, .inr ⟨hhost, rfl⟩⟩, by rwa [← hhost]⟩
      next hidle =>
        cases h
        exact .inr (.inl ⟨by simpa using hidle, hhost, rfl⟩)
    next rest hhost =>
      split at h
      next hrun =>
        obtain ⟨hb, hr⟩ : s.busy = true ∧ s.inReset = false := by simpa using hrun
        exact .inl ⟨rest, ⟨hb, hr, .inl hhost⟩, h⟩
      next hidle =>
        cases h
        exact .inr (.inr ⟨.await, rest, hhost, fun _ => by simpa using hidle, rfl⟩)
    next e rest hne hhost =>
      cases h
      exact .inr (.inr ⟨e, rest, hhost, fun he => absurd he hne, rfl⟩)

/-! ### The configuration -/

@[simp] theorem State.writeReg_cfg (s : State) (index : BitVec 4) (v : Word) : (s.writeReg index v).cfg = s.cfg := by
  unfold State.writeReg State.writeCmd
  split
  · rfl
  · split
    · split <;> rfl
    all_goals rfl

/-- No register access and no change of the reset line changes the configuration (10_state.md R106,
70_reset_and_hazards.md R800). -/
@[simp] theorem State.hostAct_cfg (s : State) (e : HostEvent) : (s.hostAct e).cfg = s.cfg := by
  cases e with
  | write index v => exact s.writeReg_cfg index v
  | read index => rfl
  | await => rfl
  | resetOn => rfl
  | resetOff => rfl

/-- Settles O20, by the cases of a step: a completion keeps the host's side, an idle step everything, and a host
event the configuration. -/
theorem stepKeepsConfiguration : Obligations.StepKeepsConfiguration := by
  intro s t h
  obtain ⟨-, ⟨rest, -, hrun⟩ | ⟨-, -, rfl⟩ | ⟨e, rest, -, -, rfl⟩⟩ := step_cases h
  · obtain ⟨u, hu, hkept⟩ := State.runCommand_keeps_hostSide { s with host := rest }
    rw [hu] at hrun
    cases hrun
    exact hkept.cfg
  · rfl
  · exact State.hostAct_cfg { s with host := rest } e

end Sys2Proof.Machine
end

section
/-! Everything a command can hand to its completion (30_encoding.md R305): the one walk through the thirty meanings from
which the invariant and the frames of the commands follow. -/

namespace Sys2Proof

/-! ### The kinds of command -/

/-- Commands that report on the operands, the store or a cursor and change nothing but the results. -/
def Instr.reports : Instr → Bool
  | .nop | .bsLen | .bsRdbyte | .rdPos _ | .vbSelU | .vbSelS | .zzMap | .zzUnmap | .chLen | .chRdb => true
  | _ => false

/-- Commands that append bits to the payload and change nothing else. -/
def Instr.putsBits : Instr → Bool
  | .bsWbit | .bsWbits _ | .bsWbyte | .bsWbytes _ | .uvEnc | .vbEncU | .vbEncS => true
  | _ => false

/-- The context that a command reads a value through, moving its cursor alone. -/
def Instr.readsThrough : Instr → Option (BitVec 4)
  | .bsRbit j | .bsRbits _ j | .bsRbyte j | .uvDec j | .vbDecU j | .vbDecS j => some j
  | _ => none

end Sys2Proof

namespace Sys2Proof.Machine

/-! ### The checks that pass -/

theorem State.ctxWithin_ok {s : State} {j : BitVec 4} {u : Unit} (h : s.ctxWithin j = .ok u) :
    j.toNat < s.cfg.nDec := by
  by_contra hj
  rw [State.ctxWithin_of_ge (by omega)] at h
  cases h

theorem State.need_ok {s : State} {j : BitVec 4} {d : DecCtx} (h : s.need j = .ok d) :
    (s.ctx j).act = true ∧ d = s.ctx j := by
  by_cases ha : (s.ctx j).act = true
  · rw [State.need_open ha] at h
    cases h
    exact ⟨ha, rfl⟩
  · rw [State.need_closed (by simpa using ha)] at h
    cases h

/-- What `APP_APPEND` has found when it does not refuse its sample (44_appender.md R525). -/
theorem State.appendable_ok {s : State} {t : Word} {u : Unit} (h : s.appendable t = .ok u) :
    s.app.valid = true ∧ s.app.cnt.toNat ≠ s.cfg.maxSamples ∧ ¬(s.app.cnt ≠ 0 ∧ t.sle s.app.pt) := by
  unfold State.appendable at h
  split at h
  · cases h
  · split at h
    · cases h
    · split at h
      · cases h
      · exact ⟨by simpa using ‹¬(!s.app.valid) = true›, ‹_›, ‹_›⟩

/-! ### The states that commands of the chunk hand on -/

/-- The new chunk of `APP_INIT` (44_appender.md R520). -/
def State.newChunk (s : State) : State :=
  { s.closeAll with
    payload := Payload.empty, header := { hdr := 0, hlen := s.cfg.hdrBytes }, app := Appender.begun }

/-- The sample that `APP_APPEND` encodes: its bits and the compressor after them, its count apart
(44_appender.md R526 to R530). -/
def State.encoded (s : State) : List Bool × Appender :=
  encodeSample s.cfg s.app s.operandValue s.operandPattern

/-- The chunk of `APP_APPEND` before its bits are appended (44_appender.md R523, R525). -/
def State.counted (s : State) : State :=
  { s with
    app := { s.encoded.2 with cnt := s.app.cnt + 1 }
    header := { s.header with hdr := s.app.cnt + 1 } }

/-- The chunk of `CH_LOADB` with one header byte more (46_chunk_image.md R600). -/
def State.headerLoaded (s : State) : State :=
  { s.disowned with
    header := { hdr := setHeaderByte s.cfg s.header.hdr s.header.hlen s.operandByte
                hlen := s.header.hlen + 1 } }

/-! ### What a command answers -/

/-- `s.Answers i r`: the command `i` may hand `r` to its completion in the state `s`, with what it has checked. -/
inductive State.Answers (s : State) : Instr → Except Status Done → Prop
  | error {i : Instr} (e : Status) : s.Answers i (.error e)
  | report {i : Instr} (h : i.reports = true) (r0 r1 : Word) : s.Answers i (returns s r0 r1)
  | put {i : Instr} (h : i.putsBits = true) (out : List Bool) : s.Answers i (written s out)
  | read {i : Instr} {j : BitVec 4} (h : i.readsThrough = some j) (hopen : (s.ctx j).act = true) (v : Word) {cur : Nat}
      (hcur : (s.ctx j).cur ≤ s.payload.vb → cur ≤ s.payload.vb) : s.Answers i (s.readDone j (s.ctx j) v cur)
  | openRaw {j : BitVec 4} (hj : j.toNat < s.cfg.nDec) (hq : s.operandIndex ≤ s.payload.vb) :
      s.Answers (.rdOpen j)
        (returns (s.setCtx j (DecCtx.openRaw s.operandIndex)) s.latA (BitVec.ofNat 64 s.payload.vb))
  | openIter {j : BitVec 4} (hj : j.toNat < s.cfg.nDec) (hh : s.cfg.hdrBytes ≤ s.header.hlen) :
      s.Answers (.iterInit j) (returns (s.setCtx j (DecCtx.openIter s.header.hdr)) s.header.hdr 0)
  | ended {j : BitVec 4} (hopen : (s.ctx j).act = true) (hmode : (s.ctx j).mode = .iter)
      (hi : (s.ctx j).i = (s.ctx j).n) : s.Answers (.iterNext j) s.endOfSequence
  | sample {j : BitVec 4} (hopen : (s.ctx j).act = true) (hmode : (s.ctx j).mode = .iter)
      (hi : (s.ctx j).i ≠ (s.ctx j).n) {d : DecCtx} (hd : decodeSample s.cfg s.payload (s.ctx j) = .ok d) :
      s.Answers (.iterNext j) (returns (s.setCtx j d) d.pt d.pv)
  | cleared : s.Answers .clear (returns s.cleared 0 0)
  | newChunk : s.Answers .appInit (returns s.newChunk 0 0)
  | append (h : s.appendable s.operandValue = .ok ()) : s.Answers .appAppend (written s.counted s.encoded.1)
  | loadHeader (h : s.payload.wlen = 0 ∧ s.header.hlen < s.cfg.hdrBytes) :
      s.Answers .chLoadb (written s.headerLoaded [])
  | loadPayload (h : ¬(s.payload.wlen = 0 ∧ s.header.hlen < s.cfg.hdrBytes)) :
      s.Answers .chLoadb (written s.disowned (putBits (s.operandByte.setWidth 64) 8))

/-- A command that checks or reads before it goes on answers that error, or what it answers after. -/
theorem State.Answers.bind {α : Type} {s : State} {i : Instr} {x : Except Status α} {f : α → Except Status Done}
    (h : ∀ a, x = .ok a → s.Answers i (f a)) : s.Answers i (x >>= f) := by
  cases x with
  | error e => exact .error e
  | ok a => exact h a rfl

theorem State.Answers.ite {s : State} {i : Instr} {c : Prop} [Decidable c] {x y : Except Status Done}
    (hx : c → s.Answers i x) (hy : ¬c → s.Answers i y) : s.Answers i (if c then x else y) := by
  split
  · exact hx ‹_›
  · exact hy ‹_›

/-- `need(j)`: past it the context is the open `D[j]`. -/
theorem State.Answers.need {s : State} {i : Instr} {j : BitVec 4} {f : DecCtx → Except Status Done}
    (h : (s.ctx j).act = true → s.Answers i (f (s.ctx j))) : s.Answers i (s.need j >>= f) :=
  .bind fun _ hd => by
    obtain ⟨hopen, rfl⟩ := State.need_ok hd
    exact h hopen

theorem State.Answers.rawRead {s : State} {i : Instr} {j : BitVec 4} (h : i.readsThrough = some j) (n : Nat) :
    s.Answers i (s.rawRead j n) :=
  .bind fun _ _ => .need fun hopen => .bind fun _ hg => .read h hopen _ fun _ => (Payload.getBits_ok hg).2.1

/-- The varbit readers, whose value is the magnitude read or its image under `f` (43_varbit.md R492, R493). -/
theorem State.Answers.varbitRead {s : State} {i : Instr} {j : BitVec 4} (h : i.readsThrough = some j)
    (f : Word → Word) :
    s.Answers i (do
      s.ctxWithin j
      let c ← s.need j
      let (m, cur) ← varbitGet s.cfg s.payload c.cur
      s.readDone j c (f m) cur) :=
  .bind fun _ _ => .need fun hopen => .bind fun _ hg => .read h hopen _ fun hcur => by
    obtain ⟨_, _, -, -, -, -, hle, -⟩ := varbitGet_ok hcur hg
    exact hle

/-- Every command runs as one transaction over one of these answers (30_encoding.md R305). -/
theorem exec_answers (i : Instr) (s : State) : ∃ r, exec i s = s.run (errorCloses i) r ∧ s.Answers i r := by
  cases i with
  | nop | bsLen | vbSelU | vbSelS | zzMap | zzUnmap | chLen => exact ⟨_, rfl, .report rfl _ _⟩
  | bsRdbyte => exact ⟨_, rfl, .ite (fun _ => .error _) fun _ => .report rfl _ _⟩
  | chRdb =>
    exact ⟨_, rfl, .ite (fun _ => .report rfl _ _) fun _ => .ite (fun _ => .report rfl _ _) fun _ => .error _⟩
  | rdPos j => exact ⟨_, rfl, .bind fun _ _ => .bind fun _ _ => .report rfl _ _⟩
  | bsWbit | bsWbyte | uvEnc | vbEncU | vbEncS => exact ⟨_, rfl, .put rfl _⟩
  | bsWbits | bsWbytes => exact ⟨_, rfl, .bind fun _ _ => .put rfl _⟩
  | bsRbit | bsRbyte => exact ⟨_, rfl, .rawRead rfl _⟩
  | bsRbits => exact ⟨_, rfl, .bind fun _ _ => .rawRead rfl _⟩
  | uvDec j =>
    exact ⟨_, rfl, .bind fun _ _ => .need fun hopen => .bind fun _ hg =>
      .read rfl hopen _ fun _ => (uvarintGetFuel_ok hg).2.2⟩
  | vbDecU j => exact ⟨_, rfl, .varbitRead rfl id⟩
  | vbDecS j => exact ⟨_, rfl, .varbitRead rfl unzz⟩
  | rdOpen j =>
    exact ⟨_, rfl, .bind fun _ hj => .ite (fun _ => .error _) fun hq =>
      .openRaw (State.ctxWithin_ok hj) (Nat.le_of_not_gt hq)⟩
  | iterInit j =>
    exact ⟨_, rfl, .bind fun _ hj => .ite (fun _ => .error _) fun hh =>
      .openIter (State.ctxWithin_ok hj) (Nat.le_of_not_gt hh)⟩
  | iterNext j =>
    exact ⟨_, rfl, .bind fun _ _ => .need fun hopen => .ite (fun _ => .error _) fun hmode =>
      .ite (.ended hopen (not_not.mp hmode)) fun hi => .bind fun _ hd => .sample hopen (not_not.mp hmode) hi hd⟩
  | clear => exact ⟨_, rfl, .cleared⟩
  | appInit => exact ⟨_, rfl, .newChunk⟩
  | appAppend => exact ⟨_, rfl, .bind fun _ h => .append h⟩
  | chLoadb => exact ⟨_, rfl, .ite .loadHeader .loadPayload⟩

end Sys2Proof.Machine
end

section
/-! The invariant of the block (10_state.md R110 to R114): the reset state meets it and every step keeps it. -/

namespace Sys2Proof.Machine

/-! ### The payload store -/

/-- The commit of a bit list keeps the store's form and adds its length to `VB` (20_memory.md R202). -/
theorem Payload.append_wf {p : Payload} (h : p.wf) (out : List Bool) :
    (p.append out).wf ∧ (p.append out).vb = p.vb + out.length := by
  induction out generalizing p with
  | nil => exact ⟨h, rfl⟩
  | cons b out ih =>
    obtain ⟨hwf, hvb, -, -⟩ := Payload.appendBit_spec h b
    obtain ⟨hwf', hvb'⟩ := ih hwf
    exact ⟨hwf', by rw [Payload.append_cons, hvb', hvb, List.length_cons]; omega⟩

/-- A bit list that fits leaves the store well formed and within its capacity (20_memory.md R203). -/
theorem State.storeWf_append {s : State} {out : List Bool} (h : s.storeWf) (hfit : s.fits out = true) :
    State.storeWf { s with payload := s.payload.append out } := by
  obtain ⟨hp, hroom⟩ := h
  obtain ⟨hwf, hvb⟩ := Payload.append_wf hp out
  refine ⟨hwf, fun cap hcap => ?_⟩
  show (s.payload.append out).vb + 0 ≤ 8 * cap
  rcases (s.fits_iff out).mp hfit with rfl | hfit
  · exact hroom cap hcap
  · have := hfit cap hcap
    omega

/-! ### Header bytes -/

theorem headerBit_add_le {c : Config} {h : Nat} (hh : h < c.hdrBytes) : headerBit c h + 8 ≤ 8 * c.hdrBytes := by
  unfold headerBit
  split <;> omega

/-- Different header bytes share no bit of `HDR` (20_memory.md R211). -/
theorem headerBit_apart {c : Config} {h k : Nat} (hh : h < c.hdrBytes) (hk : k < c.hdrBytes) (hne : k ≠ h) :
    headerBit c k + 8 ≤ headerBit c h ∨ headerBit c h + 8 ≤ headerBit c k := by
  unfold headerBit
  split <;> omega

/-- The mask of one byte. -/
theorem byteMask_getLsbD (k : Nat) : (0xFF#64).getLsbD k = decide (k < 8) := by
  rw [show 0xFF#64 = (BitVec.allOnes 8).setWidth 64 from rfl, BitVec.getLsbD_setWidth, BitVec.getLsbD_allOnes,
    ← Bool.decide_and]
  exact decide_eq_decide.mpr (by omega)

theorem setHeaderByte_getLsbD (c : Config) (hdr : Word) (h : Nat) (b : Byte) {q : Nat} (hq : q < 64) :
    (setHeaderByte c hdr h b).getLsbD q =
      if headerBit c h ≤ q ∧ q < headerBit c h + 8 then b.getLsbD (q - headerBit c h) else hdr.getLsbD q := by
  simp only [setHeaderByte, BitVec.getLsbD_or, BitVec.getLsbD_and, BitVec.getLsbD_not, BitVec.getLsbD_shiftLeft,
    BitVec.getLsbD_setWidth, byteMask_getLsbD]
  by_cases hlo : q < headerBit c h
  · simp [hq, hlo, show ¬headerBit c h ≤ q by omega]
  · by_cases hhi : q < headerBit c h + 8
    · simp [hq, hlo, hhi, show headerBit c h ≤ q by omega, show q - headerBit c h < 8 by omega,
        show q - headerBit c h < 64 by omega]
    · simp [hq, hlo, hhi, show ¬q - headerBit c h < 8 by omega, show 8 ≤ q - headerBit c h by omega]

/-- Setting a header byte sets that byte and leaves the others (20_memory.md R211). -/
theorem headerByte_setHeaderByte {c : Config} (hc : c.hdrBytes ≤ 8) (hdr : Word) {h k : Nat} (b : Byte)
    (hh : h < c.hdrBytes) (hk : k < c.hdrBytes) :
    headerByte c (setHeaderByte c hdr h b) k = if k = h then b else headerByte c hdr k := by
  have hle := headerBit_add_le hk
  apply BitVec.eq_of_getLsbD_eq
  intro q hq
  rw [headerByte, BitVec.getLsbD_extractLsb', setHeaderByte_getLsbD _ _ _ _ (by omega)]
  by_cases e : k = h
  · subst e
    simp [hq]
  · have := headerBit_apart hh hk e
    rw [if_neg (by omega), if_neg e, headerByte, BitVec.getLsbD_extractLsb']

/-- `HDR` is below `2^(8·HDR_BYTES)` exactly when the bits the register does not have are 0. -/
theorem toNat_le_hdrMax_iff (c : Config) (hdr : Word) :
    hdr.toNat ≤ c.hdrMax ↔ ∀ q, 8 * c.hdrBytes ≤ q → hdr.getLsbD q = false := by
  have hpos : 0 < 2 ^ (8 * c.hdrBytes) := Nat.two_pow_pos _
  have hlt : hdr.toNat ≤ c.hdrMax ↔ hdr.toNat < 2 ^ (8 * c.hdrBytes) := by
    unfold Config.hdrMax
    omega
  rw [hlt]
  constructor
  · intro h q hq
    exact Nat.testBit_eq_false_of_lt (h.trans_le (Nat.pow_le_pow_right (by omega) hq))
  · intro h
    exact Nat.lt_pow_two_of_testBit _ fun q hq => h q hq

theorem setHeaderByte_le_hdrMax {c : Config} {hdr : Word} {h : Nat} (b : Byte) (hh : h < c.hdrBytes)
    (hle : hdr.toNat ≤ c.hdrMax) : (setHeaderByte c hdr h b).toNat ≤ c.hdrMax := by
  rw [toNat_le_hdrMax_iff] at hle ⊢
  intro q hq
  have := headerBit_add_le hh
  by_cases h64 : q < 64
  · rw [setHeaderByte_getLsbD _ _ _ _ h64, if_neg (by omega)]
    exact hle q hq
  · exact BitVec.getLsbD_of_ge _ _ (by omega)

@[simp] theorem headerByte_zero (c : Config) (k : Nat) : headerByte c 0 k = 0 := by
  simp [headerByte]

/-- A header of all zeros is well formed at any length it may have. -/
theorem Header.wf_zero {c : Config} {n : Nat} (h : n ≤ c.hdrBytes) : Header.wf c { hdr := 0, hlen := n } :=
  ⟨h, Nat.zero_le _, fun k _ _ => headerByte_zero c k⟩

/-! ### The compressor -/

/-- `A`'s window leaves a bit between its zeros (44_appender.md R530). -/
def Appender.windowOk (c : Config) (a : Appender) : Prop :=
  a.wv = true → a.lz.toNat ≤ c.lzMax ∧ a.lz.toNat + a.tz.toNat < 64

/-- Counts of zeros of a word are held in six bits without loss. -/
theorem toNat_ofNat_six {n : Nat} (h : n < 64) : (BitVec.ofNat 6 n).toNat = n := by
  rw [BitVec.toNat_ofNat]
  exact Nat.mod_eq_of_lt h

theorem valuePut_keeps {c : Config} {a : Appender} (h : a.windowOk c) (v : Word) :
    (valuePut c a v).2.valid = a.valid ∧ (valuePut c a v).2.windowOk c := by
  rcases valuePut_cases c a v with e | ⟨lz, tz, hlz, hsum, e⟩ <;> rw [e]
  · exact ⟨rfl, h⟩
  · refine ⟨rfl, fun _ => ?_⟩
    rw [toNat_ofNat_six (by omega), toNat_ofNat_six (by omega)]
    exact ⟨hlz, hsum⟩

/-- Encoding a sample keeps `A.VALID` and a window that fits 64 bits (44_appender.md R526 to R530). -/
theorem encodeSample_keeps {c : Config} {a : Appender} (h : a.windowOk c) (t v : Word) :
    (encodeSample c a t v).2.valid = a.valid ∧ (encodeSample c a t v).2.windowOk c := by
  unfold encodeSample
  split
  · exact ⟨rfl, nofun⟩
  · exact valuePut_keeps h v

/-- `MAX_SAMPLES` fits the count register (00_scope.md R13). -/
theorem maxSamples_lt {c : Config} (h : c.wf) : c.maxSamples < 2 ^ 64 := by
  obtain ⟨⟨-, hbytes⟩, ⟨-, hmax⟩, -⟩ := h
  have hpow : 2 ^ (8 * c.hdrBytes) ≤ 2 ^ 64 := Nat.pow_le_pow_right (by omega) (by omega)
  unfold Config.hdrMax at hmax
  omega

/-- The count after a sample that `APP_APPEND` takes is in range: the limit was not reached (44_appender.md R524). -/
theorem State.cnt_succ_le {s : State} (hcfg : s.cfg.wf) (hcnt : s.app.cnt.toNat ≤ s.cfg.maxSamples)
    (hlimit : s.app.cnt.toNat ≠ s.cfg.maxSamples) : (s.app.cnt + 1).toNat ≤ s.cfg.maxSamples := by
  have := maxSamples_lt hcfg
  bv_omega

/-! ### The decompressor contexts -/

/-- A closed context meets its invariant over any store. -/
theorem DecCtx.wf_closed {vb : Nat} {d : DecCtx} (h : d.act = false) : d.wf vb := by
  intro ha
  rw [h] at ha
  cases ha

theorem DecCtx.wf_mono {vb vb' : Nat} {d : DecCtx} (h : d.wf vb) (hle : vb ≤ vb') : d.wf vb' := fun ha => by
  obtain ⟨hcur, hi, hw⟩ := h ha
  exact ⟨hcur.trans hle, hi, hw⟩

theorem DecCtx.wf_openRaw {vb q : Nat} (h : q ≤ vb) : (DecCtx.openRaw q).wf vb :=
  fun _ => ⟨h, Nat.le_refl _, nofun⟩

theorem DecCtx.wf_openIter (vb : Nat) (n : Word) : (DecCtx.openIter n).wf vb :=
  fun _ => ⟨Nat.zero_le _, Nat.zero_le _, nofun⟩

theorem DecCtx.wf_withCur {vb cur : Nat} {d : DecCtx} (h : d.wf vb) (hcur : d.cur ≤ vb → cur ≤ vb) :
    DecCtx.wf vb { d with cur := cur } := fun ha => by
  obtain ⟨hc, hi, hw⟩ := h ha
  exact ⟨hcur hc, hi, hw⟩

/-- A sample that decodes leaves a context with its cursor in the store and its count in range, when the count was
not reached (45_iterator.md R561 to R565). -/
theorem DecCtx.wf_decodeSample {c : Config} {p : Payload} {d d' : DecCtx} (h : d.wf p.vb) (hopen : d.act = true)
    (hi : d.i ≠ d.n) (hd : decodeSample c p d = .ok d') : d'.wf p.vb := by
  obtain ⟨hcur, hle, hw⟩ := h hopen
  obtain ⟨-, -, hn', hi', -, hcur', hwin⟩ := decodeSample_ok hcur hd
  refine fun _ => ⟨hcur', ?_, fun hwv => ?_⟩
  · have hne : d.i.toNat ≠ d.n.toNat := fun e => hi (BitVec.eq_of_toNat_eq e)
    rw [hn', hi']
    bv_omega
  · rcases hwin with ⟨ewv, elz, etz⟩ | hoff | ⟨lz, tz, hsum, elz, etz⟩
    · rw [elz, etz]
      exact hw (ewv ▸ hwv)
    · rw [hoff] at hwv
      cases hwv
    · rw [elz, etz, toNat_ofNat_six (by omega), toNat_ofNat_six (by omega)]
      exact hsum

/-! ### The invariant, by the parts an operation changes -/

/-- An open context is one of the list, so it meets its invariant. -/
theorem State.Inv.ctx_wf {s : State} (h : s.Inv) (j : BitVec 4) : (s.ctx j).wf s.payload.vb := by
  obtain ⟨-, -, -, -, -, hctx, -⟩ := h
  by_cases hj : j.toNat < s.dec.length
  · have e : s.ctx j = s.dec[j.toNat] := by simp [State.ctx, List.getD_eq_getElem?_getD, hj]
    rw [e]
    exact hctx _ (List.getElem_mem hj)
  · refine DecCtx.wf_closed ?_
    by_contra ha
    exact hj (State.lt_of_open (by simpa using ha))

theorem State.Inv.setCtx {s : State} (h : s.Inv) (j : BitVec 4) {d : DecCtx} (hd : d.wf s.payload.vb) :
    (s.setCtx j d).Inv := by
  obtain ⟨hcfg, hstore, hhdr, happ, hlen, hctx, hbusy⟩ := h
  refine ⟨hcfg, hstore, hhdr, happ, by rw [State.setCtx_dec, List.length_set]; exact hlen, fun e he => ?_, hbusy⟩
  rcases List.mem_or_eq_of_mem_set he with he | rfl
  · exact hctx e he
  · exact hd

theorem State.Inv.post {s : State} (h : s.Inv) (st : Status) (r0 r1 : Word) (e : Bool) : (s.post st r0 r1 e).Inv := by
  obtain ⟨hcfg, hstore, hhdr, happ, hlen, hctx, -⟩ := h
  exact ⟨hcfg, hstore, hhdr, happ, hlen, hctx, fun _ => rfl⟩

/-- `raise` keeps the invariant: it closes a context at most (60_exceptions.md R712). -/
theorem State.Inv.raise {s : State} (h : s.Inv) (closes : Option (BitVec 4)) (e : Status) : (s.raise closes e).Inv := by
  cases closes with
  | none => exact h.post _ _ _ _
  | some j =>
    rw [State.raise_some]
    split
    · exact h.post _ _ _ _
    · exact (h.setCtx j (DecCtx.wf_closed rfl)).post _ _ _ _

/-- The commit of a bit list that fits: open contexts stay below the longer stream's end. -/
theorem State.Inv.append {s : State} {out : List Bool} (h : s.Inv) (hfit : s.fits out = true) :
    State.Inv { s with payload := s.payload.append out } := by
  obtain ⟨hcfg, hstore, hhdr, happ, hlen, hctx, hbusy⟩ := h
  have ⟨hp, _⟩ := hstore
  obtain ⟨-, hvb⟩ := Payload.append_wf hp out
  exact ⟨hcfg, State.storeWf_append hstore hfit, hhdr, happ, hlen,
    fun d hd => DecCtx.wf_mono (hctx d hd) (by rw [hvb]; omega), hbusy⟩

theorem State.Inv.complete_written {s p : State} (hs : s.Inv) (hp : p.Inv) (closes : Option (BitVec 4))
    (out : List Bool) : (s.complete closes (written p out)).Inv := by
  rw [State.complete_written]
  split
  · exact (hp.append ‹_›).post _ _ _ _
  · exact hs.raise _ _

/-- Emptying the store and closing every context keeps the invariant, whatever the chunk that stands there after. -/
theorem State.Inv.emptied {s : State} (h : s.Inv) {hd : Header} {a : Appender} (hhdr : hd.wf s.cfg)
    (happ : a.wf s.cfg hd) : State.Inv { s.closeAll with payload := Payload.empty, header := hd, app := a } := by
  obtain ⟨hcfg, -, -, -, hlen, -, hbusy⟩ := h
  refine ⟨hcfg, ⟨Payload.empty_wf, fun cap _ => Nat.zero_le _⟩, hhdr, happ, by simpa using hlen, ?_, hbusy⟩
  intro d hmem
  obtain ⟨e, -, rfl⟩ := List.mem_map.mp hmem
  exact DecCtx.wf_closed rfl

theorem Appender.wf_initial (c : Config) (h : Header) : Appender.initial.wf c h := ⟨Nat.zero_le _, nofun, nofun⟩

theorem State.Inv.cleared {s : State} (h : s.Inv) : s.cleared.Inv :=
  h.emptied (Header.wf_zero (Nat.zero_le _)) (Appender.wf_initial _ _)

theorem State.Inv.newChunk {s : State} (h : s.Inv) : s.newChunk.Inv :=
  h.emptied (Header.wf_zero (Nat.le_refl _)) ⟨Nat.zero_le _, fun _ => ⟨rfl, rfl⟩, nofun⟩

theorem State.Inv.disowned {s : State} (h : s.Inv) : s.disowned.Inv := by
  obtain ⟨hcfg, hstore, hhdr, ⟨hcnt, -, hwin⟩, hlen, hctx, hbusy⟩ := h
  exact ⟨hcfg, hstore, hhdr, ⟨hcnt, nofun, hwin⟩, hlen, hctx, hbusy⟩

/-- A loaded header byte is inside the register, and the bytes still absent stay 0 (10_state.md R112). -/
theorem State.Inv.headerLoaded {s : State} (h : s.Inv) (hlt : s.header.hlen < s.cfg.hdrBytes) :
    s.headerLoaded.Inv := by
  obtain ⟨hcfg, hstore, ⟨-, hmax, hzero⟩, ⟨hcnt, -, hwin⟩, hlen, hctx, hbusy⟩ := h
  have ⟨⟨_, hb⟩, _⟩ := hcfg
  refine ⟨hcfg, hstore, ⟨hlt, setHeaderByte_le_hdrMax _ hlt hmax, fun k hk hge => ?_⟩, ⟨hcnt, nofun, hwin⟩,
    hlen, hctx, hbusy⟩
  have hge' : s.header.hlen + 1 ≤ k := hge
  show headerByte s.cfg (setHeaderByte s.cfg s.header.hdr s.header.hlen s.operandByte) k = 0
  rw [headerByte_setHeaderByte hb _ _ hlt hk, if_neg (by omega)]
  exact hzero k hk (Nat.le_of_succ_le hge')

/-- A sample taken leaves `HDR` = `A.CNT`, one higher and still in range (44_appender.md R523, R524). -/
theorem State.Inv.counted {s : State} (h : s.Inv) (hok : s.appendable s.operandValue = .ok ()) : s.counted.Inv := by
  obtain ⟨hcfg, hstore, -, ⟨hcnt, hown, hwin⟩, hlen, hctx, hbusy⟩ := h
  have ⟨_, ⟨_, hmax⟩, _⟩ := hcfg
  obtain ⟨hvalid, hlimit, -⟩ := State.appendable_ok hok
  obtain ⟨hfull, -⟩ := hown hvalid
  have hle := State.cnt_succ_le hcfg hcnt hlimit
  obtain ⟨-, hwin'⟩ := encodeSample_keeps (a := s.app) hwin s.operandValue s.operandPattern
  refine ⟨hcfg, hstore, ⟨hfull.le, hle.trans hmax, fun k hk hge => ?_⟩, ⟨hle, fun _ => ⟨hfull, rfl⟩, hwin'⟩,
    hlen, hctx, hbusy⟩
  have hgek : s.header.hlen ≤ k := hge
  have hkc : k < s.cfg.hdrBytes := hk
  omega

/-! ### Commands -/

@[simp] theorem State.complete_endOfSequence (s : State) (closes : Option (BitVec 4)) :
    s.complete closes s.endOfSequence = s.post .ok 0 0 true := rfl

/-- Whatever a command answers, its completion keeps the invariant. -/
theorem State.Answers.complete_inv {s : State} {i : Instr} {r : Except Status Done} (h : s.Answers i r) (hs : s.Inv)
    (closes : Option (BitVec 4)) : (s.complete closes r).Inv := by
  cases h with
  | error e => exact hs.raise _ _
  | report _ r0 r1 => exact hs.post _ _ _ _
  | put _ out => exact hs.complete_written hs _ _
  | read _ _ v hcur => exact (hs.setCtx _ (DecCtx.wf_withCur (hs.ctx_wf _) hcur)).post _ _ _ _
  | openRaw _ hq => exact (hs.setCtx _ (DecCtx.wf_openRaw hq)).post _ _ _ _
  | openIter _ _ => exact (hs.setCtx _ (DecCtx.wf_openIter _ _)).post _ _ _ _
  | ended _ _ _ => exact hs.post _ _ _ _
  | sample hopen _ hi hd => exact (hs.setCtx _ (DecCtx.wf_decodeSample (hs.ctx_wf _) hopen hi hd)).post _ _ _ _
  | cleared => exact hs.cleared.post _ _ _ _
  | newChunk => exact hs.newChunk.post _ _ _ _
  | append hok => exact hs.complete_written (hs.counted hok) _ _
  | loadHeader hh => exact hs.complete_written (hs.headerLoaded hh.2) _ _
  | loadPayload _ => exact hs.complete_written hs.disowned _ _

theorem exec_inv {i : Instr} {s t : State} (hs : s.Inv) (h : exec i s = .next t) : t.Inv := by
  obtain ⟨r, hr, ha⟩ := exec_answers i s
  rw [hr] at h
  cases h
  exact ha.complete_inv hs _

theorem State.runCommand_inv {s t : State} (hs : s.Inv) (h : s.runCommand = .next t) : t.Inv := by
  unfold State.runCommand at h
  split at h
  · exact exec_inv hs h
  · cases h
    exact hs.raise _ _

/-! ### Reset and the host -/

/-- The reset state of a well-formed configuration: an empty store, no header, every context closed. -/
theorem State.resetFor_inv {c : Config} (h : c.wf) : (State.resetFor c).Inv := by
  refine ⟨h, ⟨Payload.empty_wf, fun cap _ => Nat.zero_le _⟩, Header.wf_zero (Nat.zero_le _),
    Appender.wf_initial _ _, List.length_replicate, fun d hd => ?_, fun _ => rfl⟩
  obtain ⟨-, rfl⟩ := List.mem_replicate.mp hd
  exact DecCtx.wf_closed rfl

/-- A host write reaches no more of the invariant than `BUSY`, and that only outside reset. -/
theorem State.Inv.writeReg {s : State} (h : s.Inv) (index : BitVec 4) (v : Word) : (s.writeReg index v).Inv := by
  unfold State.writeReg State.writeCmd
  split
  · exact h
  next hreset =>
    have ⟨hcfg, hstore, hhdr, happ, hlen, hctx, _⟩ := h
    split
    · split
      · exact h
      · exact ⟨hcfg, hstore, hhdr, happ, hlen, hctx, fun e => absurd e hreset⟩
    all_goals exact h

theorem State.Inv.hostAct {s : State} (h : s.Inv) (e : HostEvent) : (s.hostAct e).Inv := by
  cases e with
  | write index v => exact h.writeReg index v
  | read index => exact h
  | await => exact h
  | resetOn =>
    obtain ⟨hcfg, hstore, hhdr, happ, hlen, hctx, hbusy⟩ := State.resetFor_inv h.1
    exact ⟨hcfg, hstore, hhdr, happ, hlen, hctx, fun _ => rfl⟩
  | resetOff =>
    obtain ⟨hcfg, hstore, hhdr, happ, hlen, hctx, -⟩ := h
    exact ⟨hcfg, hstore, hhdr, happ, hlen, hctx, nofun⟩

/-- Settles O19, by the cases of a step: the accepted word's run, an idle step, or a host event. -/
theorem stepKeepsInvariant : Obligations.StepKeepsInvariant := by
  intro s t hs h
  obtain ⟨-, ⟨rest, -, hrun⟩ | ⟨-, -, rfl⟩ | ⟨e, rest, -, -, rfl⟩⟩ := step_cases h
  · exact State.runCommand_inv (s := { s with host := rest }) hs hrun
  · exact hs
  · exact State.Inv.hostAct (s := { s with host := rest }) hs e

/-- Settles O18. -/
theorem resetMeetsInvariant : Obligations.ResetMeetsInvariant :=
  ⟨fun _ h => State.resetFor_inv h, by decide⟩

end Sys2Proof.Machine
end

section
/-! What the end of a command leaves in the flags: `BUSY` clear after every command, `END` set by an exhausted iterator
alone (10_state.md R104, R115). -/

namespace Sys2Proof.Machine

@[simp] theorem State.raise_busy (s : State) (closes : Option (BitVec 4)) (e : Status) :
    (s.raise closes e).busy = false := rfl

@[simp] theorem State.raise_endFlag (s : State) (closes : Option (BitVec 4)) (e : Status) :
    (s.raise closes e).endFlag = false := rfl

/-- Every completion posts, so it clears `BUSY` (30_encoding.md R306). -/
@[simp] theorem State.complete_busy (s : State) (closes : Option (BitVec 4)) (r : Except Status Done) :
    (s.complete closes r).busy = false := by
  rcases s.complete_cases closes r with ⟨e, -, he⟩ | ⟨d, -, -, he⟩ <;> rw [he]
  · exact s.raise_busy closes e
  · rfl

@[simp] theorem State.complete_written_endFlag (s p : State) (closes : Option (BitVec 4)) (out : List Bool) :
    (s.complete closes (written p out)).endFlag = false := by
  rw [State.complete_written]
  split <;> rfl

/-- Settles O21: the command's end keeps the host's side and posts. -/
theorem commandsLeaveHostSideAlone : Obligations.CommandsLeaveHostSideAlone := by
  intro i s
  obtain ⟨r, hr, hk⟩ := exec_eq_run i s
  obtain ⟨hcfg, hcmd, hopa, hopb, hlatA, hlatB, hovr, hreset, hhost, hdata, hdec⟩ :=
    State.hostSideKept_complete (errorCloses i) hk
  exact ⟨_, hr, State.complete_busy _ _ _, hcfg, hcmd, hopa, hopb, hlatA, hlatB, hovr, hreset, hhost, hdata, hdec⟩

/-- The one answer whose completion sets `END` is that of an `ITER_NEXT` at its count (45_iterator.md R562). -/
theorem State.Answers.ended_of_endFlag {s : State} {i : Instr} {r : Except Status Done} {closes : Option (BitVec 4)}
    (h : s.Answers i r) (he : (s.complete closes r).endFlag = true) :
    r = s.endOfSequence ∧ ∃ j : BitVec 4, i = .iterNext j ∧ (s.ctx j).act = true ∧ (s.ctx j).mode = .iter ∧
      (s.ctx j).i = (s.ctx j).n := by
  cases h with
  | ended hopen hmode hi => exact ⟨rfl, _, rfl, hopen, hmode, hi⟩
  | error | report | read | openRaw | openIter | sample | cleared | newChunk => cases he
  | put | append | loadHeader | loadPayload =>
    rw [State.complete_written_endFlag] at he
    cases he

/-- Settles O25. -/
theorem endOnlyAtReachedCount : Obligations.EndOnlyAtReachedCount := by
  intro i s t h hend
  obtain ⟨r, hr, ha⟩ := exec_answers i s
  rw [hr] at h
  cases h
  obtain ⟨rfl, j, hij, hopen, hmode, hi⟩ := ha.ended_of_endFlag hend
  exact ⟨j, hij, hopen, hmode, hi, State.complete_endOfSequence _ _⟩

end Sys2Proof.Machine
end

section
/-! The host registers: what the host reads and what its accesses change (10_state.md R100 to R107), and the reset table
(R130). -/

namespace Sys2Proof.Machine

/-! ### Reads -/

section
variable {s : State} (h : s.inReset = false)
include h

theorem State.readReg_cmd : s.readReg 0 = s.cmd.setWidth 64 := by simp [State.readReg, h]
theorem State.readReg_opa : s.readReg 1 = s.opa := by simp [State.readReg, h]
theorem State.readReg_opb : s.readReg 2 = s.opb := by simp [State.readReg, h]
theorem State.readReg_res0 : s.readReg 3 = s.res0 := by simp [State.readReg, h]
theorem State.readReg_res1 : s.readReg 4 = s.res1 := by simp [State.readReg, h]
theorem State.readReg_status : s.readReg 5 = s.statusWord := by simp [State.readReg, h]
theorem State.readReg_cfg0 : s.readReg 6 = cfg0 s.cfg := by simp [State.readReg, h]
theorem State.readReg_cfgMaxs : s.readReg 7 = cfgMaxs s.cfg := by simp [State.readReg, h]
theorem State.readReg_cfgPcap : s.readReg 8 = cfgPcap s.cfg := by simp [State.readReg, h]
theorem State.readReg_cfgBwlo : s.readReg 9 = cfgBwlo s.cfg := by simp [State.readReg, h]
theorem State.readReg_cfgBwhi : s.readReg 10 = cfgBwhi s.cfg := by simp [State.readReg, h]

/-- Registers 11 to 15 are reserved and read 0 (10_state.md R100). -/
theorem State.readReg_reserved {index : BitVec 4} (hi : 11 ≤ index.toNat) : s.readReg index = 0 := by
  obtain ⟨n, hn⟩ := Nat.exists_eq_add_of_le' hi
  simp [State.readReg, h, hn]

end

/-- The registers from 6 up depend on the configuration alone (10_state.md R106). -/
theorem State.readReg_of_cfg {s t : State} (hs : s.inReset = false) (ht : t.inReset = false) (hcfg : t.cfg = s.cfg)
    {index : BitVec 4} (hi : 6 ≤ index.toNat) : t.readReg index = s.readReg index := by
  obtain ⟨n, hn⟩ := Nat.exists_eq_add_of_le' hi
  unfold State.readReg
  rw [hs, ht, hcfg, hn]
  match n with
  | 0 | 1 | 2 | 3 | 4 => rfl
  | n + 5 => rfl

/-! ### Writes -/

section
variable {s : State} (h : s.inReset = false) (v : Word)
include h

theorem State.writeReg_cmd_idle (hb : s.busy = false) : s.writeReg 0 v = s.accept (v.setWidth 32) := by
  simp [State.writeReg, State.writeCmd, h, hb]

theorem State.writeReg_cmd_busy (hb : s.busy = true) : s.writeReg 0 v = { s with ovr := true } := by
  simp [State.writeReg, State.writeCmd, h, hb]

theorem State.writeReg_opa : s.writeReg 1 v = { s with opa := v } := by simp [State.writeReg, h]
theorem State.writeReg_opb : s.writeReg 2 v = { s with opb := v } := by simp [State.writeReg, h]
theorem State.writeReg_status : s.writeReg 5 v = s.writeStatus v := by simp [State.writeReg, h]

end

/-- Writes of the read-only and the reserved registers have no effect (10_state.md R100, R103, R106). -/
theorem State.writeReg_readOnly (s : State) {index : BitVec 4} (v : Word) (h0 : index ≠ 0) (h1 : index ≠ 1)
    (h2 : index ≠ 2) (h5 : index ≠ 5) : s.writeReg index v = s := by
  unfold State.writeReg
  split
  · rfl
  · split
    case h_1 e => exact absurd (BitVec.eq_of_toNat_eq e) h0
    case h_2 e => exact absurd (BitVec.eq_of_toNat_eq e) h1
    case h_3 e => exact absurd (BitVec.eq_of_toNat_eq e) h2
    case h_4 e => exact absurd (BitVec.eq_of_toNat_eq e) h5
    case h_5 => rfl

/-! ### The step of an access -/

/-- A step in which the host does not wait is the host's oldest event (notes/assumptions/1.md). -/
theorem step_hostEvent {s : State} {e : HostEvent} {rest : List HostEvent} (hwf : s.cfg.wf) (hhost : s.host = e :: rest)
    (he : e ≠ .await) : step s = .next ({ s with host := rest }.hostAct e) := by
  rw [step, if_pos hwf, State.advance, hhost]
  cases e with
  | await => exact absurd rfl he
  | write | read | resetOn | resetOff => rfl

/-- Settles O8: an idle block accepts the word, a busy one drops it. -/
theorem commandWriteAcceptedOrDropped : Obligations.CommandWriteAcceptedOrDropped := by
  intro s v rest hwf hreset hhost
  have hstep := step_hostEvent hwf hhost nofun
  refine ⟨fun hb => ?_, fun hb => ?_, State.readReg_cmd hreset⟩
  · rw [hstep, State.hostAct, State.writeReg_cmd_idle (s := { s with host := rest }) hreset v hb]
    rfl
  · rw [hstep, State.hostAct, State.writeReg_cmd_busy (s := { s with host := rest }) hreset v hb]

/-- Settles O10. -/
theorem statusWriteClearsOnlyOverrun : Obligations.StatusWriteClearsOnlyOverrun := by
  intro s v rest hwf hreset hhost
  have hovr : (s.ovr && !v.getLsbD 6) = if v.getLsbD 6 then false else s.ovr := by
    cases v.getLsbD 6 <;> simp
  rw [step_hostEvent hwf hhost nofun, State.hostAct, State.writeReg_status (s := { s with host := rest }) hreset v,
    State.writeStatus, hovr]

/-- Settles O11, by the register written: `OPA`, `OPB`, or one that ignores writes. -/
theorem hostWritesReachOnlyOperands : Obligations.HostWritesReachOnlyOperands := by
  intro s index v rest hwf hreset hhost h0 h5
  rw [step_hostEvent hwf hhost nofun, State.hostAct]
  by_cases h1 : index = 1
  · subst h1
    exact congrArg _ (State.writeReg_opa (s := { s with host := rest }) hreset v)
  · by_cases h2 : index = 2
    · subst h2
      exact congrArg _ (State.writeReg_opb (s := { s with host := rest }) hreset v)
    · rw [State.writeReg_readOnly _ v h0 h1 h2 h5, if_neg h1, if_neg h2]

/-- Settles O60. -/
theorem hostReadsReturnRegisters : Obligations.HostReadsReturnRegisters := by
  intro s hwf hreset
  exact ⟨State.readReg_opa hreset, State.readReg_opb hreset, State.readReg_res0 hreset, State.readReg_res1 hreset,
    fun _ _ hhost => step_hostEvent hwf hhost nofun⟩

/-! ### The status register -/

/-- The number of a word written as two fields. -/
theorem toNat_append_eq_add {m n : Nat} (x : BitVec m) (y : BitVec n) :
    (x ++ y).toNat = x.toNat * 2 ^ n + y.toNat := by
  rw [BitVec.toNat_append, ← Nat.shiftLeft_add_eq_or_of_lt y.isLt, Nat.shiftLeft_eq]

theorem toNat_ofBool_eq_ite (b : Bool) : (BitVec.ofBool b).toNat = if b then 1 else 0 := by
  cases b <;> rfl

/-- `STATUS` as a number, field by field (10_state.md R104). -/
theorem State.statusWord_toNat (s : State) :
    s.statusWord.toNat = s.st.code.toNat + (if s.endFlag then 16 else 0) + (if s.busy then 32 else 0) +
      (if s.ovr then 64 else 0) := by
  simp only [State.statusWord, toNat_append_eq_add, toNat_ofBool_eq_ite, BitVec.toNat_ofNat]
  split <;> split <;> split <;> omega

/-- Settles O9. -/
theorem statusRegisterLayout : Obligations.StatusRegisterLayout := by
  refine ⟨by decide, fun s hreset => ⟨?_, ?_⟩⟩
  · rw [State.readReg_status hreset, State.statusWord_toNat]
  · cases s.st <;> decide

/-! ### The configuration registers -/

/-- `CFG0` as a number: the fields of 10_state.md R106, none of which a legal parameter overflows. -/
theorem cfg0_toNat {c : Config} (h : c.wf) :
    (cfg0 c).toNat =
      c.hdrBytes + 16 * (if c.hdrOrder = .be then 1 else 0) + 32 * (if c.firstTs = .escape then 1 else 0) +
        2 ^ 8 * (c.nDec - 1) + 2 ^ 12 * (c.k - 1) + 2 ^ 16 * c.lzBits + 2 ^ 20 * c.mbBits + 2 ^ 24 := by
  obtain ⟨⟨-, hhdr⟩, -, -, ⟨-, hk⟩, -, -, ⟨-, hlz⟩, ⟨-, hmb⟩, ⟨-, hdec⟩⟩ := h
  simp only [cfg0, toNat_append_eq_add, toNat_ofBool_eq_ite, BitVec.toNat_ofNat, decide_eq_true_eq]
  split <;> split <;> omega

theorem cfgMaxs_toNat {c : Config} (h : c.wf) : (cfgMaxs c).toNat = c.maxSamples := by
  rw [cfgMaxs, BitVec.toNat_ofNat]
  exact Nat.mod_eq_of_lt (maxSamples_lt h)

/-- The bucket widths rise to 64, so each fits its byte (00_scope.md R13). -/
theorem getD_widths_le {c : Config} (h : c.wf) (k : Nat) : c.widths.getD k 0 ≤ 64 := by
  obtain ⟨-, -, -, -, hrise, hlast, -⟩ := h
  by_cases hk : k < c.widths.length
  · rw [List.getD_eq_getElem _ _ hk]
    have hle := (hrise.imp Nat.le_of_lt).rel_getLast (List.getElem_mem hk)
    have hne : c.widths ≠ [] := List.ne_nil_of_length_pos (by omega)
    rw [List.getLast?_eq_getLast_of_ne_nil hne, Option.some.injEq] at hlast
    omega
  · rw [List.getD_eq_default _ _ (by omega)]
    omega

/-- Byte `i` of eight bucket bytes is the byte of bucket `k + i`. -/
theorem bucketBytes_byte (c : Config) (k : Nat) {i : Nat} (hi : i < 8) :
    (bucketBytes c k).toNat / 2 ^ (8 * i) % 256 = (bucketByte c (k + i)).toNat := by
  simp only [bucketBytes, toNat_append_eq_add]
  interval_cases i
  · rw [Nat.add_zero k]
    omega
  all_goals omega

theorem bucketBytes_width {c : Config} (h : c.wf) (k : Nat) {i : Nat} (hi : i < 8) :
    (bucketBytes c k).toNat / 2 ^ (8 * i) % 256 = c.widths.getD (k + i) 0 := by
  have := getD_widths_le h (k + i)
  rw [bucketBytes_byte c k hi, bucketByte, BitVec.toNat_ofNat]
  omega

/-- Settles O12, register by register; that a step keeps the registers follows from its keeping the configuration. -/
theorem configurationRegistersReportParameters : Obligations.ConfigurationRegistersReportParameters := by
  intro s hwf hreset
  refine ⟨?_, ?_, fun hcap => ?_, fun cap hcap hlt => ?_, fun k hk => ⟨?_, ?_⟩, fun index hi => ?_,
    fun index v hi => ?_, fun t index hstep ht hi => ?_⟩
  · rw [State.readReg_cfg0 hreset, cfg0_toNat hwf]
  · rw [State.readReg_cfgMaxs hreset, cfgMaxs_toNat hwf]
  · rw [State.readReg_cfgPcap hreset, cfgPcap, hcap]
    rfl
  · rw [State.readReg_cfgPcap hreset, cfgPcap, hcap]
    exact Nat.mod_eq_of_lt hlt
  · rw [State.readReg_cfgBwlo hreset, cfgBwlo, bucketBytes_width hwf 0 hk, Nat.zero_add]
  · rw [State.readReg_cfgBwhi hreset, cfgBwhi, bucketBytes_width hwf 8 hk]
  · exact State.readReg_reserved hreset hi
  · have hne (n : BitVec 4) (hn : n.toNat < 6) : index ≠ n := fun e => by subst e; omega
    exact s.writeReg_readOnly v (hne 0 (by decide)) (hne 1 (by decide)) (hne 2 (by decide)) (hne 5 (by decide))
  · exact State.readReg_of_cfg hreset ht (stepKeepsConfiguration s t hstep) hi

/-! ### The reset table -/

/-- Settles O15. -/
theorem resetHoldsTableValues : Obligations.ResetHoldsTableValues := fun _ =>
  ⟨rfl, rfl, rfl, rfl, rfl, rfl, rfl, rfl, rfl, rfl, rfl, rfl, rfl, rfl, rfl, List.length_replicate,
    fun _ hd => List.eq_of_mem_replicate hd⟩

end Sys2Proof.Machine
end

section
/-! The header bytes and the image as commands report them, and the stream as commands append to it (20_memory.md R202,
R210, R211). -/

namespace Sys2Proof.Machine

/-! ### The header and the image -/

/-- Header byte `h` is the byte of `HDR` from the bit where it starts (20_memory.md R211). -/
theorem headerByte_toNat (c : Config) (hdr : Word) (h : Nat) :
    (headerByte c hdr h).toNat = hdr.toNat / 2 ^ headerBit c h % 256 := by
  rw [headerByte, BitVec.extractLsb'_toNat, Nat.shiftRight_eq_div_pow]

/-- Settles O55: the bit a header byte starts at is counted from the low or the high end. -/
theorem headerByteOrder : Obligations.HeaderByteOrder := by
  intro c hdr h _
  refine ⟨fun ho => ?_, fun ho => ?_⟩ <;> rw [headerByte_toNat, headerBit, ho]

@[simp] theorem State.image_length (s : State) : s.image.length = s.header.hlen + s.payload.wlen := by
  simp [State.image]

theorem State.image_header (s : State) {k : Nat} (hk : k < s.header.hlen) :
    s.image[k]? = some (headerByte s.cfg s.header.hdr k) := by
  rw [State.image, List.getElem?_append_left (by simpa using hk)]
  simp [hk]

theorem State.image_payload (s : State) {k : Nat} (hk : k < s.payload.wlen) :
    s.image[s.header.hlen + k]? = some (s.payload.byte k) := by
  rw [State.image, List.getElem?_append_right (by simp)]
  simp [hk]

/-- `CH_RDB` reads the image at its operand (46_chunk_image.md R602). -/
theorem exec_chRdb (s : State) :
    exec .chRdb s =
      .next (s.image[s.latA.toNat]?.elim (s.post .badIndex 0 0 false) fun b => s.post .ok (b.setWidth 64) 0 false) := by
  show execChRdb s = _
  unfold execChRdb State.operandIndex
  split
  next hk =>
    rw [s.image_header hk]
    rfl
  next hk =>
    obtain ⟨k, hidx⟩ := Nat.exists_eq_add_of_le (Nat.le_of_not_gt hk)
    rw [hidx]
    split
    next hlt =>
      rw [s.image_payload (by omega), Nat.add_sub_cancel_left]
      rfl
    next hge =>
      rw [List.getElem?_eq_none (by rw [s.image_length]; omega)]
      rfl

/-- Settles O56: both commands report the image, whose bytes are the header's and then the payload's. -/
theorem imageIsHeaderThenPayload : Obligations.ImageIsHeaderThenPayload := by
  refine ⟨by decide, by decide, fun s => ⟨s.image_length, ?_, fun b hb => ?_, fun hn => ?_,
    fun _ hk => s.image_header hk, fun _ hk => s.image_payload hk⟩⟩
  · rw [s.image_length]
    rfl
  · rw [exec_chRdb, hb, Option.elim_some]
  · rw [exec_chRdb, hn, Option.elim_none]

/-! ### The commit of a bit list -/

theorem Payload.appendBit_bits {p : Payload} (h : p.wf) (b : Bool) : (p.appendBit b).bits = p.bits ++ [b] := by
  obtain ⟨-, hvb, hbit, -⟩ := Payload.appendBit_spec h b
  have hold : (List.range p.vb).map (p.appendBit b).streamBit = p.bits :=
    List.map_congr_left fun q hq => by rw [hbit, if_neg (List.mem_range.mp hq).ne]
  rw [Payload.bits, hvb, List.range_succ, List.map_append, hold, List.map_singleton, hbit, if_pos rfl]

/-- The commit appends `OUT` in order and changes no bit before it (20_memory.md R202). -/
theorem Payload.append_bits {p : Payload} (h : p.wf) (out : List Bool) : (p.append out).bits = p.bits ++ out := by
  induction out generalizing p with
  | nil => simp
  | cons b out ih =>
    obtain ⟨hwf, -⟩ := Payload.appendBit_spec h b
    rw [Payload.append_cons, ih hwf, Payload.appendBit_bits h, List.append_assoc, List.singleton_append]

/-- The commit changes no byte but those that hold the new bits (20_memory.md R202). -/
theorem Payload.append_read {p : Payload} (h : p.wf) (out : List Bool) {a : Nat}
    (ha : a < p.vb / 8 ∨ (p.vb + out.length + 7) / 8 ≤ a) : (p.append out).mem.read a = p.mem.read a := by
  induction out generalizing p with
  | nil => rfl
  | cons b out ih =>
    obtain ⟨hwf, hvb, -, hread⟩ := Payload.appendBit_spec h b
    rw [List.length_cons] at ha
    rw [Payload.append_cons, ih hwf (by omega), hread a (by omega)]

/-- Settles O27. -/
theorem commitAppendsOutInOrder : Obligations.CommitAppendsOutInOrder := by
  intro p out h
  obtain ⟨hwf, hvb⟩ := Payload.append_wf h out
  refine ⟨hwf, hvb, Payload.append_bits h out, fun a ha => ?_⟩
  rcases ha with rfl | ha
  · rfl
  · exact Payload.append_read h out ha

@[simp] theorem State.raise_payload (s : State) (closes : Option (BitVec 4)) (e : Status) :
    (s.raise closes e).payload = s.payload := by
  cases closes with
  | none => rfl
  | some j =>
    rw [State.raise_some]
    split <;> rfl

/-- A command that hands on the store it found and some bits leaves that store with bits appended, or with none. -/
theorem State.complete_written_payload {s p : State} (h : p.payload = s.payload) (closes : Option (BitVec 4))
    (out : List Bool) : ∃ new, (s.complete closes (written p out)).payload = s.payload.append new := by
  rw [State.complete_written]
  split
  · exact ⟨out, by rw [State.post_payload, h]⟩
  · exact ⟨[], s.raise_payload _ _⟩

/-- Every command but the two that empty the store ends with some bits appended to it (20_memory.md R202). -/
theorem State.Answers.complete_payload {s : State} {i : Instr} {r : Except Status Done} (h : s.Answers i r)
    (hclear : i ≠ .clear) (hinit : i ≠ .appInit) (closes : Option (BitVec 4)) :
    ∃ new, (s.complete closes r).payload = s.payload.append new := by
  cases h with
  | error e => exact ⟨[], s.raise_payload _ _⟩
  | report | read | openRaw | openIter | ended | sample => exact ⟨[], rfl⟩
  | put | append | loadHeader | loadPayload => exact State.complete_written_payload (by rfl) _ _
  | cleared => exact absurd rfl hclear
  | newChunk => exact absurd rfl hinit

/-- Settles O24: the bits that a command appends go after those already there. -/
theorem streamIsAppendOnly : Obligations.StreamIsAppendOnly := by
  intro i s t hp hclear hinit h
  obtain ⟨r, hr, ha⟩ := exec_answers i s
  rw [hr] at h
  cases h
  obtain ⟨new, hnew⟩ := ha.complete_payload hclear hinit (errorCloses i)
  exact ⟨new, by rw [hnew, Payload.append_bits hp]⟩

end Sys2Proof.Machine
end

section
/-! What reading leaves unchanged: a reader changes its context alone, an inspection command nothing but the results
(20_memory.md R216). -/

namespace Sys2Proof

/-! ### The kinds of command exclude each other -/

theorem Instr.reports_excludes {i : Instr} (h : i.reports = true) : i.putsBits = false ∧ i.readsThrough = none := by
  cases i with
  | nop | bsLen | bsRdbyte | rdPos | vbSelU | vbSelS | zzMap | zzUnmap | chLen | chRdb => exact ⟨rfl, rfl⟩
  | _ => cases h

theorem Instr.readsThrough_excludes {i : Instr} {j : BitVec 4} (h : i.readsThrough = some j) :
    i.reports = false ∧ i.putsBits = false := by
  cases i with
  | bsRbit | bsRbits | bsRbyte | uvDec | vbDecU | vbDecS => exact ⟨rfl, rfl⟩
  | _ => cases h

theorem Instr.errorCloses_of_reports {i : Instr} (h : i.reports = true) : Machine.errorCloses i = none := by
  cases i with
  | iterInit | iterNext => cases h
  | _ => rfl

theorem Instr.errorCloses_of_readsThrough {i : Instr} {j : BitVec 4} (h : i.readsThrough = some j) :
    Machine.errorCloses i = none := by
  cases i with
  | iterInit | iterNext => cases h
  | _ => rfl

end Sys2Proof

namespace Sys2Proof.Machine

/-! ### What a reader answers and leaves -/

/-- An inspection command raises or returns, with nothing pending (20_memory.md R216). -/
theorem State.Answers.of_reports {s : State} {i : Instr} {r : Except Status Done} (h : s.Answers i r)
    (hi : i.reports = true) : (∃ e, r = .error e) ∨ ∃ r0 r1, r = returns s r0 r1 := by
  obtain ⟨hput, hread⟩ := Instr.reports_excludes hi
  cases h with
  | error e => exact .inl ⟨e, rfl⟩
  | report _ r0 r1 => exact .inr ⟨r0, r1, rfl⟩
  | put hp => simp [hp] at hput
  | read hp => simp [hp] at hread
  | openRaw | openIter | ended | sample | cleared | newChunk | append | loadHeader | loadPayload => cases hi

/-- A raw reader raises, or moves its context's cursor (41_bitstream.md R432 to R434). -/
theorem State.Answers.of_readsThrough {s : State} {i : Instr} {j : BitVec 4} {r : Except Status Done}
    (h : s.Answers i r) (hi : i.readsThrough = some j) :
    (∃ e, r = .error e) ∨ ∃ v cur, r = s.readDone j (s.ctx j) v cur := by
  obtain ⟨hreport, hput⟩ := Instr.readsThrough_excludes hi
  cases h with
  | error e => exact .inl ⟨e, rfl⟩
  | read hj _ v =>
    cases hi.symm.trans hj
    exact .inr ⟨v, _, rfl⟩
  | report hp => simp [hp] at hreport
  | put hp => simp [hp] at hput
  | openRaw | openIter | ended | sample | cleared | newChunk | append | loadHeader | loadPayload => cases hi

/-- An iterator raises, ends, or moves its context on by a sample (45_iterator.md R561). -/
theorem State.Answers.of_iterNext {s : State} {j : BitVec 4} {r : Except Status Done}
    (h : s.Answers (.iterNext j) r) :
    (∃ e, r = .error e) ∨ r = s.endOfSequence ∨ ∃ d, r = returns (s.setCtx j d) d.pt d.pv := by
  cases h with
  | error e => exact .inl ⟨e, rfl⟩
  | ended => exact .inr (.inl rfl)
  | sample => exact .inr (.inr ⟨_, rfl⟩)
  | report hp | put hp | read hp => cases hp

/-- A raw reader changes its context's cursor and the results alone; one that raises leaves the cursor too. -/
theorem exec_readsThrough_eq_post {i : Instr} {j : BitVec 4} {s t : State} (hi : i.readsThrough = some j)
    (h : exec i s = .next t) :
    ∃ cur, t = (s.setCtx j { s.ctx j with cur := cur }).post t.st t.res0 t.res1 false := by
  obtain ⟨r, hr, ha⟩ := exec_answers i s
  rw [hr, Instr.errorCloses_of_readsThrough hi] at h
  cases h
  rcases ha.of_readsThrough hi with ⟨e, rfl⟩ | ⟨v, cur, rfl⟩
  · exact ⟨(s.ctx j).cur, by rw [s.setCtx_ctx]; rfl⟩
  · exact ⟨cur, rfl⟩

/-- `ITER_NEXT` changes its context and the results alone, closing the context when it raises. -/
theorem exec_iterNext_eq_post {j : BitVec 4} {s t : State} (h : exec (.iterNext j) s = .next t) :
    ∃ d, t = (s.setCtx j d).post t.st t.res0 t.res1 t.endFlag := by
  obtain ⟨r, hr, ha⟩ := exec_answers (.iterNext j) s
  rw [hr] at h
  cases h
  rcases ha.of_iterNext with ⟨e, rfl⟩ | rfl | ⟨d, rfl⟩
  · rw [State.complete_error, errorCloses, State.raise_some]
    split
    · exact ⟨s.ctx j, by rw [s.setCtx_ctx]; rfl⟩
    · exact ⟨{ s.ctx j with act := false }, rfl⟩
  · exact ⟨s.ctx j, by rw [s.setCtx_ctx]; rfl⟩
  · exact ⟨d, rfl⟩

/-- An inspection command changes the results alone, whether it raises or returns. -/
theorem exec_reports_eq_post {i : Instr} {s t : State} (hi : i.reports = true) (h : exec i s = .next t) :
    t = s.post t.st t.res0 t.res1 false := by
  obtain ⟨r, hr, ha⟩ := exec_answers i s
  rw [hr, Instr.errorCloses_of_reports hi] at h
  cases h
  rcases ha.of_reports hi with ⟨e, rfl⟩ | ⟨r0, r1, rfl⟩ <;> rfl

/-! ### Inspecting again -/

section
variable (s : State) (st : Status) (r0 r1 : Word) (e : Bool)

/-- Results posted before make no difference to a command that checks first, if they make none to what follows. -/
theorem State.complete_post_bind {α : Type} (x : Except Status α) {f g : α → Except Status Done}
    (h : ∀ a, (s.post st r0 r1 e).complete none (f a) = s.complete none (g a)) :
    (s.post st r0 r1 e).complete none (x >>= f) = s.complete none (x >>= g) := by
  cases x with
  | error err => rfl
  | ok a => exact h a

theorem State.complete_post_ite {c : Prop} [Decidable c] {x y x' y' : Except Status Done}
    (hx : (s.post st r0 r1 e).complete none x = s.complete none x')
    (hy : (s.post st r0 r1 e).complete none y = s.complete none y') :
    (s.post st r0 r1 e).complete none (if c then x else y) = s.complete none (if c then x' else y') := by
  split
  · exact hx
  · exact hy

/-- An inspection command reads nothing of the results posted before it. -/
theorem exec_post_of_reports {i : Instr} (hi : i.reports = true) : exec i (s.post st r0 r1 e) = exec i s := by
  cases i with
  | nop | bsLen | vbSelU | vbSelS | zzMap | zzUnmap | chLen => rfl
  | bsRdbyte => exact congrArg Host.Outcome.next (s.complete_post_ite st r0 r1 e rfl rfl)
  | chRdb =>
    exact congrArg Host.Outcome.next
      (s.complete_post_ite st r0 r1 e rfl (s.complete_post_ite st r0 r1 e rfl rfl))
  | rdPos j =>
    exact congrArg Host.Outcome.next (s.complete_post_bind st r0 r1 e (s.ctxWithin j) fun _ =>
      s.complete_post_bind st r0 r1 e (s.need j) fun _ => rfl)
  | _ => cases hi

end

/-- Settles O23: by the three kinds of reader; an inspection command runs the same from the state it left. -/
theorem readingCommandsKeepTheStore : Obligations.ReadingCommandsKeepTheStore := by
  refine ⟨fun j n s t i hi h => ?_, fun j s t h => exec_iterNext_eq_post h, fun j s t i hi h => ?_⟩
  · have hreads : i.readsThrough = some j := by fin_cases hi <;> rfl
    exact exec_readsThrough_eq_post hreads h
  · have hreports : i.reports = true := by fin_cases hi <;> rfl
    have ht := exec_reports_eq_post hreports h
    refine ⟨ht, ?_⟩
    rw [ht, exec_post_of_reports _ _ _ _ _ hreports, h, ← ht]

end Sys2Proof.Machine
end

section
/-! The command word (30_encoding.md R300 to R307): its fields as numbers, the opcode map read both ways, and what the
decode verdict answers. -/

namespace Sys2Proof

/-! ### The fields of a word -/

theorem CmdWord.op_toNat (w : CmdWord) : w.op.toNat = w.toNat % 256 := by
  simp [CmdWord.op]

theorem CmdWord.n_toNat (w : CmdWord) : w.n.toNat = w.toNat / 256 % 128 := by
  simp [CmdWord.n, Nat.shiftRight_eq_div_pow]

theorem CmdWord.ctx_toNat (w : CmdWord) : w.ctx.toNat = w.toNat / 2 ^ 16 % 16 := by
  simp [CmdWord.ctx, Nat.shiftRight_eq_div_pow]

/-- Check 1 of R303 by numbers. -/
theorem CmdWord.reservedZero_iff (w : CmdWord) :
    w.reservedZero = true ↔ w.toNat / 2 ^ 20 = 0 ∧ w.toNat / 2 ^ 15 % 2 = 0 := by
  have hw := w.isLt
  simp only [CmdWord.reservedZero, Bool.and_eq_true, beq_iff_eq, BitVec.toNat_eq, BitVec.extractLsb'_toNat,
    BitVec.toNat_ofNat, Nat.shiftRight_eq_div_pow]
  omega

/-- The three fields are all that tells one word with zero reserved bits from another. -/
theorem CmdWord.eq_of_fields {v w : CmdWord} (hv : v.reservedZero = true) (hw : w.reservedZero = true)
    (hop : v.op = w.op) (hn : v.n = w.n) (hctx : v.ctx = w.ctx) : v = w := by
  rw [CmdWord.reservedZero_iff] at hv hw
  rw [BitVec.toNat_eq, CmdWord.op_toNat, CmdWord.op_toNat] at hop
  rw [BitVec.toNat_eq, CmdWord.n_toNat, CmdWord.n_toNat] at hn
  rw [BitVec.toNat_eq, CmdWord.ctx_toNat, CmdWord.ctx_toNat] at hctx
  apply BitVec.eq_of_toNat_eq
  omega

/-! ### The opcode map -/

/-- Any count and context that `i` has are `n` and `j`. -/
def Instr.CarriesFields (i : Instr) (n : BitVec 7) (j : BitVec 4) : Prop :=
  (∀ p ∈ i.count?, p.1 = n) ∧ ∀ k ∈ i.ctx?, k = j

/-- The opcode map answers exactly the commands with that opcode and those fields (R307). -/
theorem opcodeMap_eq_some_iff {op : BitVec 8} {n : BitVec 7} {j : BitVec 4} {i : Instr} :
    opcodeMap op n j = some i ↔ op = i.opcode ∧ i.CarriesFields n j := by
  constructor
  · intro h
    unfold opcodeMap at h
    split at h
    case h_31 => cases h
    all_goals
      rename_i hop
      cases h
      exact ⟨BitVec.eq_of_toNat_eq hop, by simp [Instr.CarriesFields, Instr.count?, Instr.ctx?]⟩
  · rintro ⟨rfl, hn, hj⟩
    cases i with
    | bsWbits m | bsWbytes m => obtain rfl : m = n := hn _ rfl; rfl
    | rdOpen k | rdPos k | bsRbit k | bsRbyte k | uvDec k | vbDecU k | vbDecS k | iterInit k | iterNext k =>
      obtain rfl : k = j := hj _ rfl; rfl
    | bsRbits m k =>
      obtain rfl : m = n := hn _ rfl
      obtain rfl : k = j := hj _ rfl
      rfl
    | _ => rfl

theorem Instr.opcode_mem (i : Instr) : i.opcode.toNat ∈ Machine.opcodes := by
  cases i <;> simp [Instr.opcode, Machine.opcodes]

/-- Check 2 of R303 by numbers: the opcode map has a command for the opcodes of R307 and no other. -/
theorem opcodeMap_isSome_iff (op : BitVec 8) (n : BitVec 7) (j : BitVec 4) :
    (∃ i, opcodeMap op n j = some i) ↔ op.toNat ∈ Machine.opcodes := by
  constructor
  · rintro ⟨i, h⟩
    rw [(opcodeMap_eq_some_iff.mp h).1]
    exact i.opcode_mem
  · have hall : ∀ x ∈ Machine.opcodes, ∃ i, opcodeMap (BitVec.ofNat 8 x) n j = some i := by
      intro x hx
      fin_cases hx <;> exact ⟨_, rfl⟩
    simpa using hall op.toNat

/-! ### The ranges of the fields -/

/-- Check 3 of R303 by numbers: a command without a count has 0 for its largest `N`. -/
theorem countLegal_iff (i : Instr) (n : BitVec 7) :
    countLegal i n = true ↔ n.toNat ≤ Machine.mostCount i.opcode.toNat := by
  cases i with
  | bsWbits | bsWbytes | bsRbits => exact decide_eq_true_iff
  | _ => exact beq_iff_eq.trans (BitVec.toNat_eq.trans Nat.le_zero.symm)

/-- Check 4 of R303 by numbers: a command without a context has one value of `CTX`. -/
theorem ctxLegal_iff (c : Config) (i : Instr) (j : BitVec 4) :
    ctxLegal c i j = true ↔ j.toNat < Machine.ctxRange c i.opcode.toNat := by
  cases i with
  | rdOpen | rdPos | bsRbit | bsRbits | bsRbyte | uvDec | vbDecU | vbDecS | iterInit | iterNext =>
    exact decide_eq_true_iff
  | _ => exact beq_iff_eq.trans (BitVec.toNat_eq.trans Nat.lt_one_iff.symm)

/-- For a command that carries the word's fields, check 3 asks a legal count and the `N` field of the command's own
word. -/
theorem countLegal_iff_of_carries {i : Instr} {n : BitVec 7} {j : BitVec 4} (h : i.CarriesFields n j) :
    countLegal i n = true ↔ n = i.nField ∧ i.countOk = true := by
  obtain ⟨hn, -⟩ := h
  unfold countLegal Instr.nField Instr.countOk
  cases hc : i.count? with
  | none => simp
  | some p => simp [hn p hc]

/-- Check 4 likewise, for the context. -/
theorem ctxLegal_iff_of_carries {i : Instr} {n : BitVec 7} {j : BitVec 4} (c : Config) (h : i.CarriesFields n j) :
    ctxLegal c i j = true ↔ j = i.ctxField ∧ i.ctxOk c = true := by
  obtain ⟨-, hj⟩ := h
  unfold ctxLegal Instr.ctxField Instr.ctxOk
  cases hc : i.ctx? with
  | none => simp
  | some k => simp [hj k hc]

/-- A command carries the fields of its own word. -/
theorem Instr.carriesFields_own (i : Instr) : i.CarriesFields i.nField i.ctxField := by
  constructor <;> intro x hx
  · rw [Instr.nField, Option.mem_def.mp hx]; rfl
  · rw [Instr.ctxField, Option.mem_def.mp hx]; rfl

/-! ### The verdict -/

section
variable {c : Config} {w : CmdWord}

theorem decode_of_reserved (h : w.reservedZero ≠ true) : decode c w = .error .reservedBits := by
  simp [decode, h]

theorem decode_of_unknown (hr : w.reservedZero = true) (hop : w.op.toNat ∉ Machine.opcodes) :
    decode c w = .error .unknownOpcode := by
  rw [← opcodeMap_isSome_iff w.op w.n w.ctx, not_exists] at hop
  simp [decode, hr, Option.eq_none_iff_forall_ne_some.mpr hop]

/-- Past the first two checks the verdict is what the last two say of the command in the map. -/
theorem decode_of_known (hr : w.reservedZero = true) {i : Instr} (hi : opcodeMap w.op w.n w.ctx = some i) :
    decode c w =
      if countLegal i w.n = true then
        if ctxLegal c i w.ctx = true then .ok i else .error .contextOutOfRange
      else .error .countOutOfRange := by
  cases hn : countLegal i w.n <;> cases hj : ctxLegal c i w.ctx <;> simp [decode, hr, hi, hn, hj]

/-- A word decodes to a command exactly when it is made of the command's fields and the command is well formed. -/
theorem decode_eq_ok_iff {i : Instr} :
    decode c w = .ok i ↔
      w.reservedZero = true ∧ w.op = i.opcode ∧ w.n = i.nField ∧ w.ctx = i.ctxField ∧ i.wf c = true := by
  constructor
  · intro h
    by_cases hr : w.reservedZero = true
    case neg => rw [decode_of_reserved hr] at h; cases h
    by_cases hop : w.op.toNat ∈ Machine.opcodes
    case neg => rw [decode_of_unknown hr hop] at h; cases h
    obtain ⟨k, hk⟩ := (opcodeMap_isSome_iff w.op w.n w.ctx).mpr hop
    obtain ⟨hopcode, hfields⟩ := opcodeMap_eq_some_iff.mp hk
    rw [decode_of_known hr hk] at h
    split at h
    case isFalse => cases h
    case isTrue hn =>
      split at h
      case isFalse => cases h
      case isTrue hj =>
        cases h
        obtain ⟨hn, hcount⟩ := (countLegal_iff_of_carries hfields).mp hn
        obtain ⟨hj, hctx⟩ := (ctxLegal_iff_of_carries c hfields).mp hj
        exact ⟨hr, hopcode, hn, hj, Bool.and_eq_true_iff.mpr ⟨hcount, hctx⟩⟩
  · rintro ⟨hr, hop, hn, hj, hwf⟩
    obtain ⟨hcount, hctx⟩ := Bool.and_eq_true_iff.mp hwf
    have hfields : i.CarriesFields w.n w.ctx := by rw [hn, hj]; exact i.carriesFields_own
    rw [decode_of_known hr (opcodeMap_eq_some_iff.mpr ⟨hop, hfields⟩),
      if_pos ((countLegal_iff_of_carries hfields).mpr ⟨hn, hcount⟩),
      if_pos ((ctxLegal_iff_of_carries c hfields).mpr ⟨hj, hctx⟩)]

end

/-- Settles O2: the fields of the word are the command's own. -/
theorem decodeOfEncode : Obligations.DecodeOfEncode := by
  intro c i hwf
  obtain ⟨hop, hn, hctx, hr⟩ := Laws.FieldsOfWord.of_any i
  exact decode_eq_ok_iff.mpr ⟨hr, hop, hn, hctx, hwf⟩

/-- Settles O3: the word and its command's word have the same fields. -/
theorem encodeOfDecode : Obligations.EncodeOfDecode := by
  intro c w i h
  obtain ⟨hr, hop, hn, hctx, hwf⟩ := decode_eq_ok_iff.mp h
  obtain ⟨hop', hn', hctx', hr'⟩ := Laws.FieldsOfWord.of_any i
  exact ⟨hwf, CmdWord.eq_of_fields hr' hr (hop'.trans hop.symm) (hn'.trans hn.symm) (hctx'.trans hctx.symm)⟩

/-- Settles O4: the checks as the verdict nests them, each turned into numbers. -/
theorem verdictChecksInOrder : Obligations.VerdictChecksInOrder := by
  intro c w
  dsimp only
  rw [← CmdWord.reservedZero_iff, ← CmdWord.op_toNat, ← CmdWord.n_toNat, ← CmdWord.ctx_toNat]
  refine ⟨decode_of_reserved, fun hr => ⟨decode_of_unknown hr, fun hop => ?_⟩⟩
  obtain ⟨i, hi⟩ := (opcodeMap_isSome_iff w.op w.n w.ctx).mpr hop
  rw [decode_of_known hr hi, (opcodeMap_eq_some_iff.mp hi).1]
  refine ⟨fun hn => ?_, fun hn => ?_⟩
  · rw [if_neg (by rw [countLegal_iff]; omega)]
  · rw [if_pos ((countLegal_iff i w.n).mpr hn)]
    refine ⟨fun hj => ?_, fun hj => ?_⟩
    · rw [if_neg (by rw [ctxLegal_iff]; omega)]
    · exact ⟨i, if_pos ((ctxLegal_iff c i w.ctx).mpr hj), rfl⟩

/-- A word that fails one of the four checks does not decode (R303). -/
theorem decode_of_not_legalWord {c : Config} {w : CmdWord} (h : ¬Machine.legalWord c w.toNat) :
    ∃ e, decode c w = .error e := by
  obtain ⟨hreserved, hrest⟩ := verdictChecksInOrder c w
  by_cases hr : w.toNat / 2 ^ 20 = 0 ∧ w.toNat / 2 ^ 15 % 2 = 0
  case neg => exact ⟨_, hreserved hr⟩
  obtain ⟨hunknown, hrest⟩ := hrest hr
  by_cases hop : w.toNat % 256 ∈ Machine.opcodes
  case neg => exact ⟨_, hunknown hop⟩
  obtain ⟨hcount, hrest⟩ := hrest hop
  by_cases hn : w.toNat / 256 % 128 ≤ Machine.mostCount (w.toNat % 256)
  case neg => exact ⟨_, hcount (Nat.lt_of_not_le hn)⟩
  obtain ⟨hctx, -⟩ := hrest hn
  exact ⟨_, hctx (Nat.le_of_not_lt fun hj => h ⟨hr, hop, hn, hj⟩)⟩

/-- Settles O1, by evaluation of the decoder on the words. -/
theorem writtenOutWordsDecode : Obligations.WrittenOutWordsDecode := by
  unfold Obligations.WrittenOutWordsDecode
  and_intros <;> rfl

end Sys2Proof
end

section
/-! The run of an accepted word (30_encoding.md R303, R305, R308) and of an assembler statement (R310). -/

namespace Sys2Proof.Machine

/-! ### The accepted word -/

theorem State.runCommand_of_decode {s : State} {i : Instr} (h : decode s.cfg s.cmd = .ok i) :
    s.runCommand = exec i s := by
  rw [State.runCommand, h]

theorem State.runCommand_of_illegal {s : State} (h : ¬legalWord s.cfg s.cmd.toNat) :
    s.runCommand = .next (s.post .illegalCommand 0 0 false) := by
  obtain ⟨e, he⟩ := decode_of_not_legalWord h
  rw [State.runCommand, he]
  rfl

/-- The step of a running command that nothing holds up is the command's run (notes/assumptions/1.md). -/
theorem step_completing {s : State} {rest : List HostEvent} (hwf : s.cfg.wf) (h : s.completing rest) :
    step s = { s with host := rest }.runCommand := by
  obtain ⟨hbusy, hreset, hhost⟩ := h
  rw [step, if_pos hwf, State.advance]
  rcases hhost with hhost | ⟨hhost, rfl⟩
  · simp [hhost, hbusy, hreset]
  · have hs : { s with host := [] } = s := by rw [← hhost]
    rw [hs, hhost]
    simp [hbusy, hreset]

/-- Settles O6. -/
theorem stepRunsDecodedCommand : Obligations.StepRunsDecodedCommand := fun s rest _ hwf h hi =>
  (step_completing hwf h).trans (State.runCommand_of_decode (s := { s with host := rest }) hi)

/-- Settles O5. -/
theorem illegalWordChangesOnlyResults : Obligations.IllegalWordChangesOnlyResults := fun s rest hwf h hill =>
  (step_completing hwf h).trans (State.runCommand_of_illegal (s := { s with host := rest }) hill)

/-! ### The checks that the meanings repeat -/

/-- A transaction that checks its count first raises `IllegalCommand` on one out of range. -/
theorem State.run_countWithin_of_lt (s : State) {n : BitVec 7} {most : Nat} (h : most < n.toNat)
    (f : Unit → Except Status Done) :
    s.run none (countWithin n most >>= f) = .next (s.post .illegalCommand 0 0 false) := by
  rw [countWithin_of_lt h]
  rfl

/-- A transaction that checks its context first raises `IllegalCommand` on one there is not, and closes none
(60_exceptions.md R712). -/
theorem State.run_ctxWithin_of_ge {s : State} {j : BitVec 4} (h : s.cfg.nDec ≤ j.toNat) (closes : Option (BitVec 4))
    (f : Unit → Except Status Done) :
    s.run closes (s.ctxWithin j >>= f) = .next (s.post .illegalCommand 0 0 false) := by
  rw [State.ctxWithin_of_ge h]
  cases closes <;> rfl

theorem exec_of_count_outOfRange {i : Instr} (h : i.countOk = false) (s : State) :
    exec i s = .next (s.post .illegalCommand 0 0 false) := by
  cases i with
  | bsWbits n | bsWbytes n | bsRbits n j =>
    exact s.run_countWithin_of_lt (Nat.lt_of_not_le (of_decide_eq_false h)) _
  | _ => cases h

theorem exec_of_ctx_outOfRange {i : Instr} {s : State} (hcount : i.countOk = true) (hctx : i.ctxOk s.cfg = false) :
    exec i s = .next (s.post .illegalCommand 0 0 false) := by
  cases i with
  | rdOpen j | rdPos j | bsRbit j | bsRbyte j | uvDec j | vbDecU j | vbDecS j | iterInit j | iterNext j =>
    exact State.run_ctxWithin_of_ge (Nat.le_of_not_lt (of_decide_eq_false hctx)) _ _
  | bsRbits n j =>
    show s.run none (countWithin n 64 >>= fun _ => s.rawRead j n.toNat) = _
    rw [countWithin_of_le (of_decide_eq_true hcount), except_ok_bind]
    exact State.run_ctxWithin_of_ge (Nat.le_of_not_lt (of_decide_eq_false hctx)) _ _
  | _ => cases hctx

/-- Settles O7: the count is checked before the context. -/
theorem outOfRangeFieldsAreIllegal : Obligations.OutOfRangeFieldsAreIllegal := by
  intro i s h
  cases hcount : i.countOk with
  | false => exact exec_of_count_outOfRange hcount s
  | true => exact exec_of_ctx_outOfRange hcount (by rwa [Instr.wf, hcount, Bool.true_and] at h)

/-! ### The host sequence of a statement -/

/-- A run whose first step goes on is the run from there. -/
theorem run_succ {M : Host.Core} {s t : M.State} (h : M.step s = .next t) (k : Nat) : M.run (k + 1) s = M.run k t := by
  rw [Host.Core.run, h]

theorem run_one (M : Host.Core) (s : M.State) : M.run 1 s = M.step s := by
  rw [Host.Core.run]
  cases M.step s <;> rfl

/-- What an operand write of a statement leaves in `OPA`, when there is one (R310). -/
theorem State.optional_writeReg_opa {s : State} (h : s.inReset = false) (a : Option Word) (rest : List HostEvent) :
    a.elim { s with host := rest } ({ s with host := rest }.writeReg 1) =
      { s with host := rest, opa := a.getD s.opa } := by
  cases a with
  | none => rfl
  | some v => exact State.writeReg_opa (s := { s with host := rest }) h v

theorem State.optional_writeReg_opb {s : State} (h : s.inReset = false) (b : Option Word) (rest : List HostEvent) :
    b.elim { s with host := rest } ({ s with host := rest }.writeReg 2) =
      { s with host := rest, opb := b.getD s.opb } := by
  cases b with
  | none => rfl
  | some v => exact State.writeReg_opb (s := { s with host := rest }) h v

/-- A run through a register write that the host may leave out. -/
theorem run_optional_write {s t : State} {index : BitVec 4} {a : Option Word} {rest : List HostEvent} (hwf : s.cfg.wf)
    (hhost : s.host = (a.map (HostEvent.write index)).toList ++ rest)
    (ht : a.elim { s with host := rest } ({ s with host := rest }.writeReg index) = t) (k : Nat) :
    core.run ((a.map (HostEvent.write index)).toList.length + k) s = core.run k t := by
  cases a with
  | none =>
    obtain rfl : s.host = rest := hhost
    exact congrArg₂ (core.run · ·) (Nat.zero_add k) ht
  | some v =>
    have hstep : step s = .next t := (step_hostEvent hwf hhost nofun).trans (congrArg _ ht)
    exact (congrArg (core.run · s) (Nat.add_comm 1 k)).trans (run_succ (M := core) hstep k)

/-- The operand writes of a statement (R310). -/
theorem run_operand_writes {s : State} (hwf : s.cfg.wf) (hreset : s.inReset = false) {a b : Option Word}
    {rest : List HostEvent}
    (hhost : s.host = (a.map (HostEvent.write 1)).toList ++ ((b.map (HostEvent.write 2)).toList ++ rest)) (k : Nat) :
    core.run ((a.map (HostEvent.write 1)).toList.length + ((b.map (HostEvent.write 2)).toList.length + k)) s =
      core.run k { s with host := rest, opa := a.getD s.opa, opb := b.getD s.opb } := by
  refine (run_optional_write hwf hhost (State.optional_writeReg_opa hreset a _) _).trans ?_
  exact run_optional_write (s := { s with host := _, opa := a.getD s.opa }) hwf rfl
    (State.optional_writeReg_opb (s := { s with opa := a.getD s.opa }) hreset b rest) k

/-- The write of a well-formed command's word to an idle block and the wait after it run the command on the operands
that stand in `OPA` and `OPB` (10_state.md R101). -/
theorem run_write_cmd_await {s : State} (hwf : s.cfg.wf) (hreset : s.inReset = false) (hidle : s.busy = false)
    {i : Instr} (hi : i.wf s.cfg = true) {rest : List HostEvent}
    (hhost : s.host = .write 0 ((encode i).setWidth 64) :: .await :: rest) :
    core.run 2 s =
      exec i { s with host := rest, cmd := encode i, latA := s.opa, latB := s.opb, busy := true } := by
  obtain ⟨haccept, -, -⟩ := commandWriteAcceptedOrDropped s _ _ hwf hreset hhost
  have hstep := haccept hidle
  rw [BitVec.setWidth_setWidth_of_le _ (by omega), BitVec.setWidth_eq] at hstep
  refine (run_succ (M := core) hstep 1).trans ((run_one core _).trans ?_)
  exact stepRunsDecodedCommand
    { s with host := .await :: rest, cmd := encode i, latA := s.opa, latB := s.opb, busy := true } rest i hwf
    ⟨rfl, hreset, .inl rfl⟩ (decodeOfEncode s.cfg i hi)

/-- Settles O17: the operand writes, then the command's word and the wait. -/
theorem statementRunsItsCommand : Obligations.StatementRunsItsCommand := by
  intro s p rest hwf hreset hidle hi hhost
  rw [Statement.events, List.append_assoc, List.append_assoc] at hhost
  rw [Statement.events, List.append_assoc, List.length_append, List.length_append]
  refine (run_operand_writes hwf hreset hhost 2).trans ?_
  exact run_write_cmd_await
    (s := { s with
      host := .write 0 ((encode p.instr).setWidth 64) :: .await :: rest
      opa := p.a.getD s.opa
      opb := p.b.getD s.opb }) hwf hreset hidle hi rfl

end Sys2Proof.Machine
end

section
/-! The byte commands as bit groups (30_encoding.md R311, 41_bitstream.md R425). -/

namespace Sys2Proof.Machine

/-- `PutBits` reads the low `n` bits of its value alone. -/
theorem putBits_congr {v w : Word} {n : Nat} (h : ∀ k < n, v.getLsbD k = w.getLsbD k) : putBits v n = putBits w n := by
  induction n with
  | zero => rfl
  | succ n ih => rw [putBits, putBits, h n n.lt_succ_self, ih fun k hk => h k (Nat.lt_succ_of_lt hk)]

/-- A group of `m + n` bits is its high `m` bits and then its low `n`. -/
theorem putBits_add (v : Word) (m n : Nat) : putBits v (m + n) = putBits (v >>> n) m ++ putBits v n := by
  induction m with
  | zero => rw [Nat.zero_add, putBits, List.nil_append]
  | succ m ih => rw [Nat.succ_add, putBits, putBits, ih, BitVec.getLsbD_ushiftRight, Nat.add_comm n m, List.cons_append]

/-- The bits of the byte of `v` from bit `q` are the low bits of `v` shifted there. -/
theorem putBits_byte (v : Word) (q : Nat) :
    putBits ((v.extractLsb' q 8).setWidth 64) 8 = putBits (v >>> q) 8 :=
  putBits_congr fun k hk => by simp [hk, show k < 64 by omega]

/-- The bytes of an operand, first byte first, are its bits in order (41_bitstream.md R425). -/
theorem State.operandBytesBits_eq_putBits (s : State) (n : Nat) : s.operandBytesBits n = putBits s.latA (8 * n) := by
  induction n with
  | zero => rfl
  | succ n ih =>
    have hfirst : s.operandByteAt (n + 1) 0 = s.latA.extractLsb' (8 * n) 8 := rfl
    have hrest (i : Nat) : s.operandByteAt (n + 1) (i + 1) = s.operandByteAt n i := by
      simp only [State.operandByteAt, Nat.add_sub_add_right]
    calc s.operandBytesBits (n + 1)
        = putBits ((s.operandByteAt (n + 1) 0).setWidth 64) 8 ++ s.operandBytesBits n := by
          simp only [State.operandBytesBits, List.range_succ_eq_map, List.flatMap_cons, List.flatMap_map, hrest]
      _ = putBits (s.latA >>> (8 * n)) 8 ++ putBits s.latA (8 * n) := by rw [hfirst, putBits_byte, ih]
      _ = putBits s.latA (8 * (n + 1)) := by rw [← putBits_add, Nat.mul_succ, Nat.add_comm]

theorem exec_bsWbits_of_le {n : BitVec 7} (h : n.toNat ≤ 64) (s : State) :
    exec (.bsWbits n) s = s.run none (written s (putBits s.latA n.toNat)) :=
  congrArg (fun x => s.run none (x >>= fun _ => written s (putBits s.latA n.toNat))) (countWithin_of_le h)

theorem exec_bsRbits_of_le {n : BitVec 7} (h : n.toNat ≤ 64) (j : BitVec 4) (s : State) :
    exec (.bsRbits n j) s = s.run none (s.rawRead j n.toNat) :=
  congrArg (fun x => s.run none (x >>= fun _ => s.rawRead j n.toNat)) (countWithin_of_le h)

theorem exec_bsWbytes_of_le {n : BitVec 7} (h : n.toNat ≤ 8) (s : State) :
    exec (.bsWbytes n) s = s.run none (written s (s.operandBytesBits n.toNat)) :=
  congrArg (fun x => s.run none (x >>= fun _ => written s (s.operandBytesBits n.toNat))) (countWithin_of_le h)

/-- `BS_WBYTE` writes the low eight bits of its operand (41_bitstream.md R424). -/
theorem exec_bsWbyte (s : State) : exec .bsWbyte s = s.run none (written s (putBits s.latA 8)) := by
  have h : putBits (s.operandByte.setWidth 64) 8 = putBits s.latA 8 := by
    rw [State.operandByte, putBits_byte, BitVec.ushiftRight_zero]
  exact congrArg (fun out => s.run none (written s out)) h

/-- Settles O29: the two commands of each pair run one transaction. -/
theorem byteCommandsAreBitGroups : Obligations.ByteCommandsAreBitGroups := by
  refine ⟨fun s => ?_, fun s j => ?_, fun s n hn => ?_⟩
  · rw [exec_bsWbyte, exec_bsWbits_of_le (by decide)]
    rfl
  · rw [exec_bsRbits_of_le (by decide)]
    rfl
  · have hlen : (8 * n).toNat = 8 * n.toNat := by
      rw [BitVec.toNat_mul]
      exact Nat.mod_eq_of_lt (show 8 * n.toNat < 128 by omega)
    rw [exec_bsWbytes_of_le hn, exec_bsWbits_of_le (by omega), hlen, State.operandBytesBits_eq_putBits]

end Sys2Proof.Machine
end

section
/-! The control commands (40_control.md): each appends nothing, so its completion posts what it pends. -/

namespace Sys2Proof.Machine

theorem exec_nop (s : State) : exec .nop s = .next (s.post .ok 0 0 false) :=
  congrArg Host.Outcome.next (s.complete_returns s none 0 0)

theorem exec_clear (s : State) : exec .clear s = .next (s.cleared.post .ok 0 0 false) :=
  congrArg Host.Outcome.next (s.complete_returns s.cleared none 0 0)

/-- Settles O40: what `CLEAR` pends is the record the statement writes out. -/
theorem nopAndClear : Obligations.NopAndClear :=
  ⟨rfl, rfl, fun s => ⟨exec_nop s, exec_clear s⟩⟩

end Sys2Proof.Machine
end

section
/-! The bit-stream unit (41_bitstream.md R420 to R434): the words of its writers, the appends they make, what inspection
reports, and the reading of a bit group. -/

namespace Sys2Proof

/-! ### Words -/

/-- The word of a command without a context: its opcode below its count (30_encoding.md R300). -/
theorem encode_of_no_ctx {i : Instr} (h : i.ctx? = none) :
    encode i = i.opcode.setWidth 32 ||| (i.nField.setWidth 32 <<< 8) := by
  have hctx : i.ctxField = 0#4 := by rw [Instr.ctxField, h, Option.getD_none]
  rw [encode, hctx]
  ext k hk
  simp only [BitVec.getElem_append, BitVec.getElem_or, BitVec.getElem_shiftLeft, BitVec.getElem_setWidth,
    BitVec.getElem_zero]
  by_cases h8 : k < 8
  · simp [h8]
  · by_cases h15 : k - 8 < 7
    · simp [h8, h15, BitVec.getLsbD_of_ge i.opcode k (by omega)]
    · simp [h8, h15, BitVec.getLsbD_of_ge i.opcode k (by omega), BitVec.getLsbD_of_ge i.nField (k - 8) (by omega)]

end Sys2Proof

namespace Sys2Proof.Machine

/-! ### Appending -/

/-- A transaction that appends to the store it found answers as `Appends` says (41_bitstream.md R426, 20_memory.md
R202, R203). -/
theorem State.appends_written {s p : State} (h : s.storeWf) (hcfg : p.cfg = s.cfg) (hpay : p.payload = s.payload)
    (out : List Bool) : Appends (s.run none (written p out)) s p out := by
  obtain ⟨hwf, hroom⟩ := h
  have hfits : p.fits out = true ↔ s.hasRoom out.length := by
    have hsame : p.hasRoom out.length ↔ s.hasRoom out.length := by rw [State.hasRoom, hcfg, hpay]
    rw [State.fits_iff, hsame, or_iff_right_of_imp]
    rintro rfl
    exact hroom
  obtain ⟨hwf', -, hbits, hread⟩ := commitAppendsOutInOrder s.payload out hwf
  rw [State.run, State.complete_written, hpay]
  refine ⟨fun hr => ⟨_, by rw [if_pos (hfits.mpr hr)], hwf', hbits, hread⟩, fun hr => ?_⟩
  rw [if_neg (hfits.not.mpr hr), State.raise_none]

/-- Settles O28: each writer appends the low bits of its operand, unless its count is out of range. -/
theorem bitWritersAppendOperandBits : Obligations.BitWritersAppendOperandBits := by
  intro s h
  have appends (v : Word) (n : Nat) : Appends (s.run none (written s (putBits v n))) s s (msbBits v n) :=
    putBits_eq_msbBits v n ▸ s.appends_written h rfl rfl _
  refine ⟨rfl, rfl, ?_, exec_bsWbyte s ▸ appends _ _, fun n => ⟨encode_of_no_ctx rfl, encode_of_no_ctx rfl,
    fun hn => exec_bsWbits_of_le hn s ▸ appends _ _, fun hn => s.run_countWithin_of_lt hn _, fun hn => ?_,
    fun hn => s.run_countWithin_of_lt hn _⟩⟩
  · have hbit : [s.latA.getLsbD 0] = putBits s.operandBit 1 := by simp [putBits, State.operandBit]
    rw [hbit]
    exact s.appends_written h rfl rfl _
  · rw [exec_bsWbytes_of_le hn, State.operandBytesBits_eq_putBits]
    exact appends _ _

/-! ### Inspection -/

/-- Settles O30. -/
theorem storeInspection : Obligations.StoreInspection := by
  refine ⟨rfl, rfl, fun s => ⟨rfl, fun h => ?_, fun h => ?_⟩⟩
  · exact congrArg (s.run none) (if_neg (Nat.not_le.mpr h))
  · exact congrArg (s.run none) (if_pos h)

/-! ### Readers -/

/-- A transaction that checks a context that exists goes on. -/
theorem State.run_ctxWithin_of_lt {s : State} {j : BitVec 4} (h : j.toNat < s.cfg.nDec)
    (f : Unit → Except Status Done) : s.run none (s.ctxWithin j >>= f) = s.run none (f ()) := by
  rw [State.ctxWithin_of_lt h, except_ok_bind]

theorem State.run_need_open {s : State} {j : BitVec 4} (h : (s.ctx j).act = true)
    (f : DecCtx → Except Status Done) : s.run none (s.need j >>= f) = s.run none (f (s.ctx j)) := by
  rw [State.need_open h, except_ok_bind]

theorem State.run_need_closed {s : State} {j : BitVec 4} (h : (s.ctx j).act = false)
    (f : DecCtx → Except Status Done) : s.run none (s.need j >>= f) = .next (s.post .noContext 0 0 false) := by
  rw [State.need_closed h]
  rfl

/-- Settles O31. -/
theorem readersOpenAndReport : Obligations.ReadersOpenAndReport := by
  intro s j hj
  refine ⟨fun h => ?_, fun h => ?_, fun h => ?_, fun h => ?_⟩
  · exact (State.run_ctxWithin_of_lt hj _).trans (congrArg (s.run none) (if_neg (Nat.not_lt.mpr h)))
  · exact (State.run_ctxWithin_of_lt hj _).trans (congrArg (s.run none) (if_pos h))
  · exact (State.run_ctxWithin_of_lt hj _).trans (State.run_need_open h _)
  · exact (State.run_ctxWithin_of_lt hj _).trans (State.run_need_closed h _)

/-- The transaction of every raw reader: `D[j]`, a value read at its cursor by `get`, and the image under `f` of that
value (41_bitstream.md R432 to R434, 42_uvarint.md R465, 43_varbit.md R492, R493). -/
def State.readThrough (s : State) (j : BitVec 4) (get : Nat → Except Status (Word × Nat)) (f : Word → Word) :
    Except Status Done := do
  s.ctxWithin j
  let c ← s.need j
  let (v, cur) ← get c.cur
  s.readDone j c (f v) cur

theorem exec_bsRbit (j : BitVec 4) (s : State) :
    exec (.bsRbit j) s = s.run none (s.readThrough j (s.payload.getBits · 1) id) := rfl

theorem exec_bsRbyte (j : BitVec 4) (s : State) :
    exec (.bsRbyte j) s = s.run none (s.readThrough j (s.payload.getBits · 8) id) := rfl

theorem exec_bsRbits {n : BitVec 7} (h : n.toNat ≤ 64) (j : BitVec 4) (s : State) :
    exec (.bsRbits n j) s = s.run none (s.readThrough j (s.payload.getBits · n.toNat) id) :=
  exec_bsRbits_of_le h j s

theorem exec_uvDec (j : BitVec 4) (s : State) :
    exec (.uvDec j) s = s.run none (s.readThrough j (uvarintGet s.payload) id) := rfl

theorem exec_vbDecU (j : BitVec 4) (s : State) :
    exec (.vbDecU j) s = s.run none (s.readThrough j (varbitGet s.cfg s.payload) id) := rfl

theorem exec_vbDecS (j : BitVec 4) (s : State) :
    exec (.vbDecS j) s = s.run none (s.readThrough j (varbitGet s.cfg s.payload) unzz) := rfl

section
variable {s : State} {j : BitVec 4} {get : Nat → Except Status (Word × Nat)} {f : Word → Word}

/-- A raw reader raises `NoContext` on a closed context (41_bitstream.md R427). -/
theorem State.run_readThrough_closed (hj : j.toNat < s.cfg.nDec) (h : (s.ctx j).act = false) :
    s.run none (s.readThrough j get f) = .next (s.post .noContext 0 0 false) :=
  (State.run_ctxWithin_of_lt hj _).trans (State.run_need_closed h _)

/-- A raw reader raises what its read raises. -/
theorem State.run_readThrough_error (hj : j.toNat < s.cfg.nDec) (h : (s.ctx j).act = true) {e : Status}
    (hget : get (s.ctx j).cur = .error e) : s.run none (s.readThrough j get f) = .next (s.post e 0 0 false) := by
  refine (State.run_ctxWithin_of_lt hj _).trans ((State.run_need_open h _).trans ?_)
  rw [hget]
  rfl

/-- A raw reader whose read succeeds returns the value and leaves the cursor past it. -/
theorem State.run_readThrough_ok (hj : j.toNat < s.cfg.nDec) (h : (s.ctx j).act = true) {v : Word} {cur : Nat}
    (hget : get (s.ctx j).cur = .ok (v, cur)) :
    s.run none (s.readThrough j get f) =
      .next ((s.setCtx j { s.ctx j with cur := cur }).post .ok (f v) (BitVec.ofNat 64 cur) false) := by
  refine (State.run_ctxWithin_of_lt hj _).trans ((State.run_need_open h _).trans ?_)
  rw [hget]
  rfl

end

/-! ### Bit groups -/

theorem Payload.getBits_truncated {p : Payload} {cur n : Nat} (h : p.vb < cur + n) :
    p.getBits cur n = .error .truncated := if_pos h

theorem Payload.getBits_within {p : Payload} {cur n : Nat} (h : cur + n ≤ p.vb) :
    p.getBits cur n = .ok (p.readBits cur n 0, cur + n) := if_neg (Nat.not_lt.mpr h)

/-- A group of `n` stream bits, gathered into 0, is below `2^n` (41_bitstream.md R421). -/
theorem Payload.readBits_lt (p : Payload) (q n : Nat) : (p.readBits q n 0).toNat < 2 ^ n := by
  refine Nat.lt_pow_two_of_testBit _ fun k hk => ?_
  show (p.readBits q n 0).getLsbD k = false
  by_cases h64 : k < 64
  · rw [p.readBits_getLsbD q n 0 k h64, if_neg (by omega), BitVec.ofNat_eq_ofNat, BitVec.getLsbD_zero]
  · exact BitVec.getLsbD_of_ge _ _ (by omega)

/-- The first stream bit of a group is its most significant (41_bitstream.md R421). -/
theorem Payload.msbBits_readBits (p : Payload) (q : Nat) {n : Nat} (h : n ≤ 64) :
    msbBits (p.readBits q n 0) n = (List.range n).map fun k => p.streamBit (q + k) := by
  refine List.map_congr_left fun k hk => ?_
  have hk' := List.mem_range.mp hk
  rw [p.readBits_getLsbD q n 0 _ (by omega), if_pos (by omega)]
  congr 2
  omega

/-- Settles O32: the three commands run one transaction, on groups of different lengths. -/
theorem rawReadersReturnStreamBits : Obligations.RawReadersReturnStreamBits := by
  intro s j i n nn hj hi
  have hread : n ≤ 64 ∧ exec i s = s.run none (s.readThrough j (s.payload.getBits · n) id) := by
    rcases hi with ⟨rfl, rfl⟩ | ⟨rfl, rfl⟩ | ⟨rfl, rfl, hn⟩
    · exact ⟨by omega, exec_bsRbit j s⟩
    · exact ⟨by omega, exec_bsRbyte j s⟩
    · exact ⟨hn, exec_bsRbits hn j s⟩
  obtain ⟨hn, hexec⟩ := hread
  rw [hexec]
  exact ⟨State.run_readThrough_closed hj,
    fun hopen h => State.run_readThrough_error hj hopen (Payload.getBits_truncated h),
    fun hopen h => ⟨_, s.payload.readBits_lt _ n, s.payload.msbBits_readBits _ hn,
      State.run_readThrough_ok hj hopen (Payload.getBits_within h)⟩⟩

end Sys2Proof.Machine
end

section
/-! What `UV_DEC` reads (42_uvarint.md R462, R463): the bytes of the stream as numbers, and the groups gathered from
them. -/

namespace Sys2Proof.Machine

/-! ### A group of stream bits as a number -/

/-- One step of the shift doubles the value and adds the bit (41_bitstream.md R421). -/
theorem toNat_shiftIn {r : Word} (h : r.toNat * 2 < 2 ^ 64) (b : Bool) :
    ((r <<< 1) ||| (BitVec.ofBool b).setWidth 64).toNat = r.toNat * 2 + b.toNat := by
  have hb : b.toNat < 2 ^ 1 := b.toNat_lt
  rw [BitVec.toNat_or, BitVec.toNat_shiftLeft, BitVec.toNat_setWidth, BitVec.toNat_ofBool, Nat.shiftLeft_eq, pow_one,
    Nat.mod_eq_of_lt h, Nat.mod_eq_of_lt (by omega), Nat.mul_comm]
  exact (Nat.two_pow_add_eq_or_of_lt hb _).symm

/-- The weights of `n + 1` bits, first bit most significant, are the first bit's and those of the rest. -/
theorem sum_weights_succ (bit : Nat → Bool) (n : Nat) :
    ((List.range (n + 1)).map fun k => if bit k then 2 ^ (n - k) else 0).sum =
      (bit 0).toNat * 2 ^ n + ((List.range n).map fun k => if bit (k + 1) then 2 ^ (n - 1 - k) else 0).sum := by
  rw [List.range_succ_eq_map, List.map_cons, List.sum_cons, List.map_map]
  congr 1
  · cases bit 0 <;> simp
  · congr 1
    refine List.map_congr_left fun k _ => ?_
    rw [Function.comp, Nat.succ_eq_add_one, show n - (k + 1) = n - 1 - k by omega]

/-- What `n` steps of the shift gather onto a value with room for them, as a number (41_bitstream.md R421). -/
theorem Payload.readBits_toNat (p : Payload) (q n : Nat) (r : Word) (h : (r.toNat + 1) * 2 ^ n ≤ 2 ^ 64) :
    (p.readBits q n r).toNat =
      r.toNat * 2 ^ n + ((List.range n).map fun k => if p.streamBit (q + k) then 2 ^ (n - 1 - k) else 0).sum := by
  induction n generalizing q r with
  | zero => simp [Payload.readBits]
  | succ n ih =>
    have hpos := Nat.two_pow_pos n
    have hle := (p.streamBit q).toNat_le
    rw [pow_succ] at h
    have hbit := toNat_shiftIn (by nlinarith : r.toNat * 2 < 2 ^ 64) (p.streamBit q)
    rw [Payload.readBits, ih _ _ (by rw [hbit]; nlinarith), hbit, Nat.add_sub_cancel, sum_weights_succ, pow_succ]
    simp only [Nat.add_zero, Nat.add_assoc, Nat.add_comm 1]
    ring

/-- The byte at a stream position is the group of eight bits there. -/
theorem Payload.toNat_readBits_byte (p : Payload) (cur i : Nat) :
    (p.readBits (cur + 8 * i) 8 0).toNat = p.byteAt cur i := by
  rw [p.readBits_toNat _ _ _ (by decide)]
  simp [Payload.byteAt]

/-! ### The groups gathered -/

/-- What the seven-bit groups of the first `l` bytes from stream bit `cur` make, least significant group first
(42_uvarint.md R462). -/
def Payload.groupsAt (p : Payload) (cur l : Nat) : Nat :=
  ((List.range l).map fun i => p.byteAt cur i % 128 * 128 ^ i).sum

theorem Payload.groupsAt_succ (p : Payload) (cur l : Nat) :
    p.groupsAt cur (l + 1) = p.groupsAt cur l + p.byteAt cur l % 128 * 128 ^ l := by
  simp [Payload.groupsAt, List.range_succ]

theorem Payload.groupsAt_lt (p : Payload) (cur l : Nat) : p.groupsAt cur l < 128 ^ l := by
  induction l with
  | zero => exact Nat.one_pos
  | succ l ih =>
    have : p.byteAt cur l % 128 * 128 ^ l ≤ 127 * 128 ^ l := Nat.mul_le_mul_right _ (by omega)
    rw [p.groupsAt_succ, pow_succ]
    omega

/-- A seven-bit group set above the bits of a smaller number adds its multiple of `128^i`. -/
theorem ofNat_or_group {x : Nat} {i : Nat} (h : x < 128 ^ i) (b : Word) :
    BitVec.ofNat 64 x ||| ((b.extractLsb' 0 7).setWidth 64 <<< (7 * i)) =
      BitVec.ofNat 64 (x + b.toNat % 128 * 128 ^ i) := by
  have hpow : 128 ^ i = 2 ^ (7 * i) := (pow_mul 2 7 i).symm
  have hgroup : (b.extractLsb' 0 7).setWidth 64 <<< (7 * i) = BitVec.ofNat 64 (2 ^ (7 * i) * (b.toNat % 128)) := by
    apply BitVec.eq_of_toNat_eq
    simp [Nat.shiftLeft_eq, Nat.mul_comm]
  rw [hpow] at h
  rw [hgroup, hpow, ← BitVec.ofNat_or, Nat.or_comm, ← Nat.two_pow_add_eq_or_of_lt h, Nat.add_comm, Nat.mul_comm]

/-- One turn of the loop, on the byte after the `i` already gathered: `Overflow` at a tenth byte above 1, another turn
after a continuation bit, else the value (42_uvarint.md R462, R463). -/
theorem uvarintGetFuel_turn {p : Payload} {cur i : Nat} (h : cur + 8 * (i + 1) ≤ p.vb) (fuel : Nat) :
    uvarintGetFuel p (fuel + 1) i (BitVec.ofNat 64 (p.groupsAt cur i)) (cur + 8 * i) =
      if i = 9 ∧ 1 < p.byteAt cur i then .error .overflow
      else if 128 ≤ p.byteAt cur i then
        uvarintGetFuel p fuel (i + 1) (BitVec.ofNat 64 (p.groupsAt cur (i + 1))) (cur + 8 * (i + 1))
      else .ok (BitVec.ofNat 64 (p.groupsAt cur (i + 1)), cur + 8 * (i + 1)) := by
  have hb := p.toNat_readBits_byte cur i
  have hlt := p.readBits_lt (cur + 8 * i) 8
  have hover : (p.readBits (cur + 8 * i) 8 0 > 1) = (1 < p.byteAt cur i) := by
    rw [← hb, gt_iff_lt, BitVec.lt_def]
    rfl
  have hmore : (p.readBits (cur + 8 * i) 8 0).getLsbD 7 = decide (128 ≤ p.byteAt cur i) := by
    rw [← hb, BitVec.getLsbD, Nat.testBit_eq_decide_div_mod_eq, decide_eq_decide]
    omega
  rw [uvarintGetFuel, Payload.getBits_within (by omega), except_ok_bind]
  simp only [hover, hmore, ofNat_or_group (p.groupsAt_lt cur i), hb, ← p.groupsAt_succ, decide_eq_true_eq, Nat.mul_succ,
    Nat.add_assoc]

theorem uvarintGetFuel_truncated {p : Payload} {cur : Nat} (h : p.vb < cur + 8) (fuel i : Nat) (r : Word) :
    uvarintGetFuel p (fuel + 1) i r cur = .error .truncated := by
  rw [uvarintGetFuel, Payload.getBits_truncated h, except_error_bind]

/-! ### The loop up to a byte -/

section
variable {p : Payload} {cur l : Nat}

/-- After `l` bytes with a continuation bit the loop stands at byte `l`. -/
theorem uvarintGet_continued (hl : l < 10) (hmore : ∀ i < l, 128 ≤ p.byteAt cur i) (hroom : l = 0 ∨ cur + 8 * l ≤ p.vb) :
    uvarintGet p cur = uvarintGetFuel p (9 - l + 1) l (BitVec.ofNat 64 (p.groupsAt cur l)) (cur + 8 * l) := by
  induction l with
  | zero => rfl
  | succ l ih =>
    have hfuel : 9 - l = 9 - (l + 1) + 1 := by omega
    rw [ih (by omega) (fun i hi => hmore i (by omega)) (by omega), uvarintGetFuel_turn (by omega), if_neg (by omega),
      if_pos (hmore l (by omega)), hfuel]

theorem uvarintGet_truncated (hl : l < 10) (hmore : ∀ i < l, 128 ≤ p.byteAt cur i) (h : p.vb < cur + 8 * (l + 1)) :
    uvarintGet p cur = .error .truncated := by
  induction l with
  | zero => exact uvarintGetFuel_truncated h _ _ _
  | succ l ih =>
    by_cases hroom : cur + 8 * (l + 1) ≤ p.vb
    · rw [uvarintGet_continued hl hmore (.inr hroom), uvarintGetFuel_truncated (by omega)]
    · exact ih (by omega) (fun i hi => hmore i (by omega)) (by omega)

/-- The value, once the last byte is reached within ten (42_uvarint.md R462). -/
theorem uvarintGet_value (hl : l < 10) (hmore : ∀ i < l, 128 ≤ p.byteAt cur i) (hroom : cur + 8 * (l + 1) ≤ p.vb)
    (hlast : p.byteAt cur l < 128) (htenth : l = 9 → p.byteAt cur l ≤ 1) :
    uvarintGet p cur = .ok (BitVec.ofNat 64 (p.groupsAt cur (l + 1)), cur + 8 * (l + 1)) := by
  rw [uvarintGet_continued hl hmore (by omega), uvarintGetFuel_turn hroom, if_neg (by omega), if_neg (by omega)]

theorem uvarintGet_overflow (hmore : ∀ i < 9, 128 ≤ p.byteAt cur i) (hroom : cur + 8 * 10 ≤ p.vb)
    (htenth : 1 < p.byteAt cur 9) : uvarintGet p cur = .error .overflow := by
  rw [uvarintGet_continued (by omega) hmore (by omega), uvarintGetFuel_turn hroom, if_pos ⟨rfl, htenth⟩]

end

/-- Settles O34: how the loop ends at byte `l` is how the command ends. -/
theorem uvarintDecoderReadsBytes : Obligations.UvarintDecoderReadsBytes := by
  intro s j hj
  rw [exec_uvDec]
  refine ⟨State.run_readThrough_closed hj, fun hopen l hl hmore => ⟨fun h => ?_, fun hroom hlast htenth => ?_, ?_⟩⟩
  · exact State.run_readThrough_error hj hopen (uvarintGet_truncated hl hmore h)
  · exact State.run_readThrough_ok hj hopen (uvarintGet_value hl hmore hroom hlast htenth)
  · rintro hroom rfl htenth
    exact State.run_readThrough_error hj hopen (uvarintGet_overflow hmore hroom htenth)

end Sys2Proof.Machine
end

section
/-! What `VB_DEC_U` and `VB_DEC_S` read (43_varbit.md R487, R488): codes in the stream, the loop that finds the
bucket, and the sign of the magnitude. -/

namespace Sys2Proof.Machine

/-! ### Codes in the stream -/

/-- A code that is two, one after the other, stands where the first does and the second right after it. -/
theorem Payload.codeAt_append {p : Payload} {cur : Nat} {a b : List Bool} :
    p.codeAt cur (a ++ b) ↔ p.codeAt cur a ∧ p.codeAt (cur + a.length) b := by
  have hsplit : (List.range (a ++ b).length).map (fun k => p.streamBit (cur + k)) =
      (List.range a.length).map (fun k => p.streamBit (cur + k)) ++
        (List.range b.length).map fun k => p.streamBit (cur + a.length + k) := by
    rw [List.length_append, List.range_add, List.map_append, List.map_map]
    simp only [Function.comp_def, Nat.add_assoc]
  rw [Payload.codeAt, Payload.codeAt, Payload.codeAt, hsplit, List.length_append]
  constructor
  · rintro ⟨hroom, hbits⟩
    obtain ⟨ha, hb⟩ := List.append_inj hbits (by rw [List.length_map, List.length_range])
    exact ⟨⟨by omega, ha⟩, by omega, hb⟩
  · rintro ⟨⟨-, ha⟩, hroom, hb⟩
    exact ⟨by omega, by rw [← ha, ← hb]⟩

/-- The low `n` bits of a value below `2^n` determine it. -/
theorem eq_of_msbBits_eq {v w : Word} {n : Nat} (hv : v.toNat < 2 ^ n) (hw : w.toNat < 2 ^ n)
    (h : msbBits v n = msbBits w n) : v = w := by
  have hbit (k : Nat) (hk : k < n) : v.getLsbD k = w.getLsbD k := by
    have := List.map_inj_left.mp h (n - 1 - k) (List.mem_range.mpr (by omega))
    rwa [show n - 1 - (n - 1 - k) = k by omega] at this
  refine BitVec.eq_of_getLsbD_eq fun k _ => ?_
  by_cases hk : k < n
  · exact hbit k hk
  · have hpow : 2 ^ n ≤ 2 ^ k := Nat.pow_le_pow_right (by omega) (by omega)
    rw [BitVec.getLsbD, BitVec.getLsbD, Nat.testBit_lt_two_pow (by omega), Nat.testBit_lt_two_pow (by omega)]

@[simp] theorem msbBits_length (v : Word) (n : Nat) : (msbBits v n).length = n := by simp [msbBits]

/-- A value whose bits stand in the stream is the one a bit group reads there (41_bitstream.md R421). -/
theorem Payload.getBits_of_codeAt {p : Payload} {cur n : Nat} {m : Word} (hn : n ≤ 64) (hm : m.toNat < 2 ^ n)
    (h : p.codeAt cur (msbBits m n)) : p.getBits cur n = .ok (m, cur + n) := by
  obtain ⟨hroom, hbits⟩ := h
  rw [msbBits_length] at hroom hbits
  rw [Payload.getBits_within hroom,
    eq_of_msbBits_eq (p.readBits_lt cur n) hm ((p.msbBits_readBits cur hn).trans hbits.symm)]

/-! ### The loop that finds the bucket -/

section
variable {p : Payload}

/-- A 1 in the bucket code passes one bucket over (43_varbit.md R487). -/
theorem varbitBucket_one {cur : Nat} (h : p.codeAt cur [true]) (fuel k : Nat) :
    varbitBucket p (fuel + 1) k cur = varbitBucket p fuel (k + 1) (cur + 1) := by
  have hbit : p.getBits cur 1 = .ok (1, cur + 1) := Payload.getBits_of_codeAt (by omega) (by decide) h
  rw [varbitBucket, hbit, except_ok_bind]
  rfl

/-- A 0 ends the bucket code (43_varbit.md R487). -/
theorem varbitBucket_zero {cur : Nat} (h : p.codeAt cur [false]) (fuel k : Nat) :
    varbitBucket p (fuel + 1) k cur = .ok (k, cur + 1) := by
  have hbit : p.getBits cur 1 = .ok (0, cur + 1) := Payload.getBits_of_codeAt (by omega) (by decide) h
  rw [varbitBucket, hbit, except_ok_bind]
  rfl

theorem varbitBucket_truncated {cur : Nat} (h : p.vb < cur + 1) (fuel k : Nat) :
    varbitBucket p (fuel + 1) k cur = .error .truncated := by
  rw [varbitBucket, Payload.getBits_truncated h, except_error_bind]

/-- `n` ones in the bucket code pass `n` buckets over. -/
theorem varbitBucket_ones {cur n : Nat} (h : p.codeAt cur (List.replicate n true)) (fuel k : Nat) :
    varbitBucket p (fuel + n) k cur = varbitBucket p fuel (k + n) (cur + n) := by
  induction n generalizing cur k with
  | zero => rfl
  | succ n ih =>
    obtain ⟨hfirst, hrest⟩ := (Payload.codeAt_append (a := [true])).mp h
    rw [← Nat.add_assoc, varbitBucket_one hfirst]
    exact (ih hrest (k + 1)).trans (by simp only [List.length_singleton, Nat.add_assoc, Nat.add_comm 1])

/-- Below the escape bucket the loop has a bit to come after `k` of them. -/
theorem esc_eq_add {c : Config} {k : Nat} (h : k < c.k - 1) : ∃ fuel, c.esc = fuel + 1 + k :=
  ⟨c.k - 1 - k - 1, by unfold Config.esc; omega⟩

/-- The loop answers the bucket whose code stands in the stream (43_varbit.md R482, R487). -/
theorem varbitBucket_of_codeAt {c : Config} {cur k : Nat} (hk : k < c.k) (h : p.codeAt cur (bucketCode c k)) :
    varbitBucket p c.esc 0 cur = .ok (k, cur + (bucketCode c k).length) := by
  rw [bucketCode] at h ⊢
  split at h
  next hlt =>
    obtain ⟨hones, hzero⟩ := Payload.codeAt_append.mp h
    obtain ⟨fuel, hfuel⟩ := esc_eq_add hlt
    rw [List.length_replicate] at hzero
    rw [if_pos hlt, hfuel, varbitBucket_ones hones, varbitBucket_zero hzero]
    simp [Nat.add_assoc]
  next hesc =>
    have hfuel : c.esc = 0 + (c.k - 1) := by rw [Config.esc, Nat.zero_add]
    rw [if_neg hesc, hfuel, varbitBucket_ones h, varbitBucket, List.length_replicate, Nat.zero_add,
      show c.k - 1 = k by omega]

/-- A stream that ends within the ones of a bucket code is truncated (43_varbit.md R488). -/
theorem varbitGet_truncated_bucket {c : Config} {cur k : Nat} (hk : k < c.k - 1) (hend : cur + k = p.vb)
    (h : p.codeAt cur (List.replicate k true)) : varbitGet c p cur = .error .truncated := by
  obtain ⟨fuel, hfuel⟩ := esc_eq_add hk
  rw [varbitGet, hfuel, varbitBucket_ones h, varbitBucket_truncated (by omega), except_error_bind]

/-- A stream that ends in a value is truncated (43_varbit.md R488). -/
theorem varbitGet_truncated_value {c : Config} {cur k : Nat} (hk : k < c.k) (h : p.codeAt cur (bucketCode c k))
    (hend : p.vb < cur + (bucketCode c k).length + c.width k) : varbitGet c p cur = .error .truncated := by
  rw [varbitGet, varbitBucket_of_codeAt hk h, except_ok_bind]
  exact Payload.getBits_truncated hend

theorem width_le {c : Config} (h : c.wf) {k : Nat} (hk : k < c.k) : c.width k ≤ 64 := by
  have hk' : k < c.widths.length := hk
  have := getD_widths_le h k
  simp only [Config.width, List.getD_eq_getElem _ _ hk'] at this ⊢
  exact this

/-- A magnitude in any bucket that holds it is read back, be the bucket the smallest or not (43_varbit.md R487). -/
theorem varbitGet_of_codeAt {c : Config} (hc : c.wf) {cur k : Nat} {m : Word} (hk : k < c.k)
    (hm : m.toNat < 2 ^ c.width k) (h : p.codeAt cur (varbitCode c k m)) :
    varbitGet c p cur = .ok (m, cur + (varbitCode c k m).length) := by
  obtain ⟨hbucket, hvalue⟩ := Payload.codeAt_append.mp h
  rw [varbitGet, varbitBucket_of_codeAt hk hbucket, except_ok_bind, varbitCode, List.length_append, msbBits_length,
    ← Nat.add_assoc]
  exact Payload.getBits_of_codeAt (width_le hc hk) hm hvalue

end

/-! ### The sign -/

/-- `unzz` gives the integer whose zig-zag magnitude is its operand (43_varbit.md R481). -/
theorem zigzag_toInt_unzz (m : Word) : zigzag (unzz m).toInt = m.toNat := by
  have hm := m.isLt
  have hlow : (m &&& 1).toNat = m.toNat % 2 := by
    rw [BitVec.toNat_and]
    exact Nat.and_one_is_mod _
  have hhalf : (m >>> 1).toNat = m.toNat / 2 := by rw [BitVec.toNat_ushiftRight, Nat.shiftRight_one]
  rcases Nat.mod_two_eq_zero_or_one m.toNat with heven | hodd
  · have hbit : m &&& 1 = 0 := BitVec.eq_of_toNat_eq (hlow.trans heven)
    have hval : unzz m = m >>> 1 := by rw [unzz, hbit]; simp
    rw [hval, zigzag, BitVec.toInt_eq_toNat_cond, hhalf]
    split <;> split <;> omega
  · have hbit : m &&& 1 = 1 := BitVec.eq_of_toNat_eq (hlow.trans hodd)
    have hval : unzz m = ~~~(m >>> 1) := by rw [unzz, hbit, ← BitVec.xor_allOnes]; rfl
    rw [hval, zigzag, BitVec.toInt_eq_toNat_cond, BitVec.toNat_not, hhalf]
    split <;> split <;> omega

/-! ### The commands -/

/-- Settles O38: the two commands run one transaction, and differ in what they make of the magnitude. -/
theorem varbitDecodersReadNamedBucket : Obligations.VarbitDecodersReadNamedBucket := by
  intro s j hc hj
  rw [exec_vbDecU, exec_vbDecS]
  refine ⟨fun h => ⟨State.run_readThrough_closed hj h, State.run_readThrough_closed hj h⟩, fun hopen => ?_⟩
  have truncated (h : varbitGet s.cfg s.payload (s.ctx j).cur = .error .truncated) (f : Word → Word) :
      s.run none (s.readThrough j (varbitGet s.cfg s.payload) f) = .next (s.post .truncated 0 0 false) :=
    State.run_readThrough_error hj hopen h
  refine ⟨fun k m hk hm h => ?_, fun k hk hend h => ?_, fun k hk h hend => ?_⟩
  · have hget := varbitGet_of_codeAt hc hk hm h
    exact ⟨State.run_readThrough_ok hj hopen hget, unzz m, zigzag_toInt_unzz m,
      State.run_readThrough_ok hj hopen hget⟩
  · have hget := varbitGet_truncated_bucket hk hend h
    exact ⟨truncated hget id, truncated hget unzz⟩
  · have hget := varbitGet_truncated_value hk h hend
    exact ⟨truncated hget id, truncated hget unzz⟩

end Sys2Proof.Machine
end

section
/-! What `UV_ENC` writes (42_uvarint.md R460, R461): the length and the bytes of a value's varint, and the loop that
puts them one by one. -/

namespace Sys2Proof.Machine

/-! ### The bytes of a varint -/

/-- The rest of a value, past its low seven bits. -/
theorem toNat_ushiftRight_seven (m : Word) : (m >>> 7).toNat = m.toNat / 128 := by
  rw [BitVec.toNat_ushiftRight, Nat.shiftRight_eq_div_pow]

/-- A varint has a byte for each base-128 digit of its value, and one for 0 (42_uvarint.md R461). -/
theorem uvarintLen_eq_log (m : Word) : uvarintLen m = Nat.log 128 m.toNat + 1 := by
  unfold uvarintLen
  split
  next hlt => rw [Nat.log_of_lt hlt]
  next => rw [Nat.log2_eq_log_two, show 128 = 2 ^ 7 from rfl, Nat.log_pow_left]; omega

/-- A varint goes on after byte `i` exactly when its value has a digit there. -/
theorem succ_lt_uvarintLen_iff (m : Word) (i : Nat) : i + 1 < uvarintLen m ↔ 128 ^ (i + 1) ≤ m.toNat := by
  rw [uvarintLen_eq_log, Nat.add_lt_add_iff_right, ← Nat.succ_le_iff]
  by_cases hm : m.toNat = 0
  · simp [hm]
  · exact Nat.le_log_iff_pow_le (by decide) hm

theorem uvarintLen_le_ten (m : Word) : uvarintLen m ≤ 10 := by
  have hm := m.isLt
  by_contra h
  have := (succ_lt_uvarintLen_iff m 9).mp (by omega)
  omega

theorem uvarintLen_of_lt {m : Word} (h : m.toNat < 128) : uvarintLen m = 1 := if_pos h

/-- The rest of a value of two digits or more has one digit less. -/
theorem uvarintLen_of_ge {m : Word} (h : 128 ≤ m.toNat) : uvarintLen m = uvarintLen (m >>> 7) + 1 := by
  rw [uvarintLen_eq_log, uvarintLen_eq_log, toNat_ushiftRight_seven, Nat.log_of_one_lt_of_le (by decide) h]

/-- The first byte carries the low seven bits, and the continuation bit when there are more (42_uvarint.md R460). -/
theorem uvarintByte_zero (m : Word) : uvarintByte m 0 = m.toNat % 128 + if m.toNat < 128 then 0 else 128 := by
  simp only [uvarintByte, succ_lt_uvarintLen_iff, pow_zero, Nat.div_one, Nat.zero_add, pow_one]
  split <;> split <;> omega

/-- The later bytes are those of the rest of the value (42_uvarint.md R460). -/
theorem uvarintByte_succ (m : Word) (i : Nat) : uvarintByte m (i + 1) = uvarintByte (m >>> 7) i := by
  have hmore : 128 ^ (i + 1 + 1) ≤ m.toNat ↔ 128 ^ (i + 1) ≤ m.toNat / 128 := by
    rw [pow_succ, Nat.le_div_iff_mul_le (by decide)]
  simp only [uvarintByte, succ_lt_uvarintLen_iff, toNat_ushiftRight_seven, hmore, Nat.div_div_eq_div_mul,
    pow_succ' 128 i]

theorem uvarintByte_lt (m : Word) (i : Nat) : uvarintByte m i < 256 := by
  unfold uvarintByte
  split <;> omega

/-- The varint of a value is its first byte and then, if there is more, the varint of the rest. -/
theorem uvarintCode_eq (m : Word) :
    uvarintCode m =
      msbBits (BitVec.ofNat 64 (uvarintByte m 0)) 8 ++ if m.toNat < 128 then [] else uvarintCode (m >>> 7) := by
  split
  next hlt => simp [uvarintCode, uvarintLen_of_lt hlt]
  next hge =>
    rw [uvarintCode, uvarintLen_of_ge (Nat.le_of_not_lt hge), List.range_succ_eq_map, List.flatMap_cons,
      List.flatMap_map]
    simp only [uvarintByte_succ, uvarintCode]

@[simp] theorem uvarintCode_length (m : Word) : (uvarintCode m).length = 8 * uvarintLen m := by
  simp [uvarintCode, List.length_flatMap, Nat.mul_comm]

/-! ### The loop that puts them -/

/-- The byte of a value's low seven bits is the first one of its varint, with the bit that says more follow. -/
theorem uvarintPut_byte (m : Word) :
    (if m.toNat < 128 then (m.extractLsb' 0 7).setWidth 8 else (m.extractLsb' 0 7).setWidth 8 ||| 0x80#8).setWidth 64 =
      BitVec.ofNat 64 (uvarintByte m 0) := by
  have hlow : ((m.extractLsb' 0 7).setWidth 8).toNat = m.toNat % 128 := by
    simp only [BitVec.toNat_setWidth, BitVec.extractLsb'_toNat, Nat.shiftRight_zero]
    omega
  apply BitVec.eq_of_toNat_eq
  rw [uvarintByte_zero, BitVec.toNat_setWidth, BitVec.toNat_ofNat]
  split
  next => rw [hlow]; omega
  next =>
    have hor : m.toNat % 128 ||| 128 = m.toNat % 128 + 128 := by
      rw [Nat.or_comm, Nat.add_comm]
      exact (Nat.two_pow_add_eq_or_of_lt (i := 7) (Nat.mod_lt _ (by decide)) 1).symm
    rw [BitVec.toNat_or, hlow, BitVec.toNat_ofNat, Nat.mod_eq_of_lt (show 0x80 < 2 ^ 8 by decide), hor]

/-- One turn of the loop puts the first byte, and is the last for a value below 128 (42_uvarint.md R460). -/
theorem uvarintPutFuel_succ (fuel : Nat) (m : Word) :
    uvarintPutFuel (fuel + 1) m =
      msbBits (BitVec.ofNat 64 (uvarintByte m 0)) 8 ++
        if m.toNat < 128 then [] else uvarintPutFuel fuel (m >>> 7) := by
  have hrest : m >>> 7 = 0 ↔ m.toNat < 128 := by
    rw [← BitVec.toNat_inj, toNat_ushiftRight_seven]
    simp
  rw [uvarintPutFuel, ← uvarintPut_byte, ← putBits_eq_msbBits]
  simp only [hrest]
  split
  next => rw [List.append_nil]
  next => rfl

/-- With a turn for each digit, the loop puts the whole varint. -/
theorem uvarintPutFuel_eq_code {fuel : Nat} {m : Word} (h : m.toNat < 128 ^ (fuel + 1)) :
    uvarintPutFuel (fuel + 1) m = uvarintCode m := by
  induction fuel generalizing m with
  | zero => rw [uvarintPutFuel_succ, uvarintCode_eq, if_pos (by simpa using h), if_pos (by simpa using h)]
  | succ fuel ih =>
    have hrest : (m >>> 7).toNat < 128 ^ (fuel + 1) := by
      rw [toNat_ushiftRight_seven]
      exact Nat.div_lt_of_lt_mul (pow_succ' 128 (fuel + 1) ▸ h)
    rw [uvarintPutFuel_succ, uvarintCode_eq, ih hrest]

theorem uvarintPut_eq_code (m : Word) : uvarintPut m = uvarintCode m :=
  uvarintPutFuel_eq_code (Nat.lt_of_lt_of_le m.isLt (by decide))

theorem exec_uvEnc (s : State) : exec .uvEnc s = s.run none (written s (uvarintCode s.latA)) :=
  congrArg (fun out => s.run none (written s out)) (uvarintPut_eq_code s.latA)

/-- Settles O33. -/
theorem uvarintEncoderWritesMinimalCode : Obligations.UvarintEncoderWritesMinimalCode := by
  refine ⟨by decide, fun s h => ⟨?_, uvarintCode_length s.latA⟩⟩
  rw [exec_uvEnc]
  exact s.appends_written h rfl rfl _

end Sys2Proof.Machine
end

section
/-! A written code read back (42_uvarint.md R460 to R465, 43_varbit.md R481 to R493): what stands in the stream once a
code is committed, what each decoder makes of its encoder's code, and the run of both commands. -/

namespace Sys2Proof.Machine

/-! ### The code in the stream -/

/-- The stream holds its own bits. -/
theorem Payload.codeAt_bits (p : Payload) : p.codeAt 0 p.bits := by
  simp [Payload.codeAt, Payload.bits]

/-- A committed code stands where the stream ended (20_memory.md R202). -/
theorem Payload.codeAt_append_vb {p : Payload} (h : p.wf) (code : List Bool) : (p.append code).codeAt p.vb code := by
  have hall := (p.append code).codeAt_bits
  rw [Payload.append_bits h, Payload.codeAt_append] at hall
  obtain ⟨-, hnew⟩ := hall
  simpa [Payload.bits] using hnew

/-- Of codes of one length, one after the other, each stands in its place. -/
theorem Payload.codeAt_of_flatMap {p : Payload} {cur len n : Nat} {code : Nat → List Bool}
    (hlen : ∀ i, (code i).length = len) (h : p.codeAt cur ((List.range n).flatMap code)) {i : Nat} (hi : i < n) :
    p.codeAt (cur + len * i) (code i) := by
  induction n with
  | zero => omega
  | succ n ih =>
    rw [List.range_succ, List.flatMap_append, List.flatMap_singleton, Payload.codeAt_append] at h
    obtain ⟨hfirst, hlast⟩ := h
    have hbefore : ((List.range n).flatMap code).length = len * n := by
      simp [List.length_flatMap, hlen, Nat.mul_comm]
    rcases Nat.lt_succ_iff_lt_or_eq.mp hi with hlt | rfl
    · exact ih hfirst hlt
    · exact hbefore ▸ hlast

/-! ### Varints -/

/-- The bytes of a varint in the stream are the varint's. -/
theorem Payload.byteAt_of_uvarintCode {p : Payload} {cur : Nat} {m : Word} (h : p.codeAt cur (uvarintCode m)) {i : Nat}
    (hi : i < uvarintLen m) : p.byteAt cur i = uvarintByte m i := by
  have hbyte := uvarintByte_lt m i
  have hval : (BitVec.ofNat 64 (uvarintByte m i)).toNat = uvarintByte m i := Nat.mod_eq_of_lt (by omega)
  have hcode := Payload.codeAt_of_flatMap (fun _ => msbBits_length _ 8) h hi
  have hget := Payload.getBits_of_codeAt (by decide) (by rw [hval]; exact hbyte) hcode
  obtain ⟨-, -, hread⟩ := Payload.getBits_ok hget
  rw [← p.toNat_readBits_byte, ← hread, hval]

/-- The groups of the first bytes of a varint are the low digits of its value (42_uvarint.md R460, R462). -/
theorem Payload.groupsAt_of_uvarintCode {p : Payload} {cur : Nat} {m : Word} (h : p.codeAt cur (uvarintCode m))
    {l : Nat} (hl : l ≤ uvarintLen m) : p.groupsAt cur l = m.toNat % 128 ^ l := by
  induction l with
  | zero => simp [Payload.groupsAt, Nat.mod_one]
  | succ l ih =>
    have hdigit : uvarintByte m l % 128 = m.toNat / 128 ^ l % 128 := by
      unfold uvarintByte
      split <;> omega
    rw [p.groupsAt_succ, ih (by omega), p.byteAt_of_uvarintCode h hl, hdigit, pow_succ, Nat.mod_mul, Nat.mul_comm]

/-- The decoder reads a varint's value back and ends past it (42_uvarint.md R462). -/
theorem uvarintGet_of_codeAt {p : Payload} {cur : Nat} {m : Word} (h : p.codeAt cur (uvarintCode m)) :
    uvarintGet p cur = .ok (m, cur + (uvarintCode m).length) := by
  have hten := uvarintLen_le_ten m
  obtain ⟨l, hl⟩ : ∃ l, uvarintLen m = l + 1 := ⟨_, uvarintLen_eq_log m⟩
  have hbyte (i : Nat) (hi : i ≤ l) : p.byteAt cur i = uvarintByte m i := p.byteAt_of_uvarintCode h (by omega)
  have hmore (i : Nat) (hi : i < l) : 128 ≤ p.byteAt cur i := by
    rw [hbyte i hi.le, uvarintByte, if_pos (by omega)]
    omega
  have hlast : p.byteAt cur l = m.toNat / 128 ^ l % 128 := by
    rw [hbyte l le_rfl, uvarintByte, if_neg (by omega), Nat.add_zero]
  have hval : m.toNat < 128 ^ (l + 1) := by
    have := (succ_lt_uvarintLen_iff m l).not.mp (by omega)
    omega
  have htenth (h9 : l = 9) : p.byteAt cur l ≤ 1 := by
    have := m.isLt
    rw [hlast, h9]
    omega
  have ⟨hroom, _⟩ := h
  rw [uvarintCode_length, hl] at hroom
  rw [uvarintGet_value (by omega) hmore hroom (by omega) htenth, p.groupsAt_of_uvarintCode h (by omega),
    Nat.mod_eq_of_lt hval, BitVec.ofNat_toNat, BitVec.setWidth_eq, uvarintCode_length, hl]

/-! ### Varbits -/

/-- The selected bucket is the smallest that holds the magnitude; a well-formed table has one (43_varbit.md R483). -/
theorem isBucketOf_sel {c : Config} (h : c.wf) (m : Word) : isBucketOf c (sel c m) m := by
  obtain ⟨-, -, -, -, -, hlast, -⟩ := h
  have hfound : sel c m < c.k :=
    List.findIdx_lt_length.mpr ⟨64, List.mem_of_getLast? hlast, decide_eq_true m.isLt⟩
  have hwidth {k : Nat} (hk : k < c.k) : c.width k = c.widths[k] := List.getD_eq_getElem _ _ hk
  refine ⟨hfound, ?_, fun k hk => ?_⟩
  · rw [hwidth hfound]
    exact of_decide_eq_true (List.findIdx_getElem (w := hfound))
  · rw [hwidth (hk.trans hfound)]
    exact Nat.le_of_not_lt (of_decide_eq_false (List.not_of_lt_findIdx hk))

theorem msbBits_ones {n : Nat} (h : n ≤ 64) : msbBits (BitVec.ofNat 64 (2 ^ n - 1)) n = List.replicate n true := by
  refine List.eq_replicate_iff.mpr ⟨msbBits_length _ n, fun b hb => ?_⟩
  obtain ⟨k, hk, rfl⟩ := List.mem_map.mp hb
  have hk := List.mem_range.mp hk
  rw [BitVec.getLsbD_ofNat, Nat.testBit_two_pow_sub_one, ← Bool.decide_and, decide_eq_true_eq]
  omega

/-- The pattern of `k` ones and a zero, written (43_varbit.md R482, R485). -/
theorem putBits_ones_zero {k : Nat} (h : k < 63) :
    putBits (BitVec.ofNat 64 (2 ^ (k + 1) - 2)) (k + 1) = List.replicate k true ++ [false] := by
  have hpow : 2 ^ k * 2 ≤ 2 ^ 63 := pow_succ 2 k ▸ Nat.pow_le_pow_right (by decide) h
  have hval : (BitVec.ofNat 64 (2 ^ (k + 1) - 2)).toNat = 2 ^ k * 2 - 2 := by
    rw [BitVec.toNat_ofNat, pow_succ]
    omega
  have hones : BitVec.ofNat 64 (2 ^ (k + 1) - 2) >>> 1 = BitVec.ofNat 64 (2 ^ k - 1) := by
    apply BitVec.eq_of_toNat_eq
    rw [BitVec.toNat_ushiftRight, hval, BitVec.toNat_ofNat, Nat.shiftRight_one]
    omega
  have hzero : (BitVec.ofNat 64 (2 ^ (k + 1) - 2)).getLsbD 0 = false := by
    rw [BitVec.getLsbD, hval, Nat.testBit_zero, decide_eq_false_iff_not]
    omega
  rw [putBits_add, hones, putBits_eq_msbBits, msbBits_ones (by omega), putBits, hzero, putBits]

/-- The bits that the encoder puts before a value are its bucket's code (43_varbit.md R482, R485). -/
theorem prefixBits_eq_bucketCode {c : Config} (h : c.wf) (k : Nat) : prefixBits c k = bucketCode c k := by
  obtain ⟨-, -, -, ⟨-, hk⟩, -⟩ := h
  unfold prefixBits bucketCode Config.esc
  split
  next => exact putBits_ones_zero (by omega)
  next => rw [putBits_eq_msbBits, msbBits_ones (by omega)]

theorem varbitPutSel_eq_code {c : Config} (h : c.wf) (m : Word) : varbitPutSel c m = varbitCode c (sel c m) m := by
  rw [varbitPutSel, varbitPut, varbitCode, prefixBits_eq_bucketCode h, putBits_eq_msbBits]

/-! ### The zig-zag -/

/-- A non-negative operand is doubled (43_varbit.md R481). -/
theorem zz_of_msb_false {n : Word} (h : n.msb = false) : zz n = n <<< 1 := by
  have hsign : n.sshiftRight 63 = 0 := by
    have hsmall := BitVec.msb_eq_false_iff_two_mul_lt.mp h
    rw [BitVec.sshiftRight_eq_of_msb_false h]
    apply BitVec.eq_of_toNat_eq
    rw [BitVec.toNat_ushiftRight, Nat.shiftRight_eq_div_pow]
    exact Nat.div_eq_of_lt (by omega)
  rw [zz, hsign]
  exact BitVec.xor_zero

/-- A negative operand is doubled and complemented (43_varbit.md R481). -/
theorem zz_of_msb_true {n : Word} (h : n.msb = true) : zz n = ~~~(n <<< 1) := by
  have hsign : n.sshiftRight 63 = BitVec.allOnes 64 := by
    have hlarge := BitVec.msb_eq_true_iff_two_mul_ge.mp h
    rw [BitVec.sshiftRight_eq_of_msb_true h]
    apply BitVec.eq_of_toNat_eq
    rw [BitVec.toNat_not, BitVec.toNat_ushiftRight, BitVec.toNat_not, Nat.shiftRight_eq_div_pow, BitVec.toNat_allOnes]
    omega
  rw [zz, hsign, BitVec.xor_allOnes]

/-- `zz` gives the zig-zag magnitude of its operand (43_varbit.md R481). -/
theorem toNat_zz (n : Word) : ((zz n).toNat : Int) = zigzag n.toInt := by
  have hn := n.isLt
  have hdouble : (n <<< 1).toNat = n.toNat * 2 % 2 ^ 64 := by
    rw [BitVec.toNat_shiftLeft, Nat.shiftLeft_eq, pow_one]
  cases hsign : n.msb with
  | false =>
    have hsmall := BitVec.msb_eq_false_iff_two_mul_lt.mp hsign
    rw [zz_of_msb_false hsign, hdouble, zigzag, BitVec.toInt_eq_toNat_cond, if_pos hsmall, if_pos (by omega)]
    omega
  | true =>
    have hlarge := BitVec.msb_eq_true_iff_two_mul_ge.mp hsign
    rw [zz_of_msb_true hsign, BitVec.toNat_not, hdouble, zigzag, BitVec.toInt_eq_toNat_cond,
      if_neg (Nat.not_lt.mpr hlarge), if_neg (by omega)]
    omega

theorem zigzag_injective : Function.Injective zigzag := by
  intro a b h
  unfold zigzag at h
  split at h <;> split at h <;> omega

/-- `unzz` undoes `zz` (43_varbit.md R481). -/
theorem unzz_zz (n : Word) : unzz (zz n) = n :=
  BitVec.toInt_inj.mp (zigzag_injective ((zigzag_toInt_unzz (zz n)).trans (toNat_zz n)))

/-! ### The commands -/

/-- Under configuration `c`, `enc` appends some code of its operand, and `dec` on a context that stands at
that code returns the operand and moves the cursor past it. -/
def ReadsBack (c : Config) (enc : Instr) (dec : BitVec 4 → Instr) : Prop :=
  ∀ s : State, s.cfg = c → ∃ code : List Bool, exec enc s = s.run none (written s code) ∧
    ∀ (u : State) (j : BitVec 4), u.cfg = c → j.toNat < c.nDec → (u.ctx j).act = true →
      u.payload.codeAt (u.ctx j).cur code →
      exec (dec j) u = .next ((u.setCtx j { u.ctx j with cur := (u.ctx j).cur + code.length }).post .ok s.latA
        (BitVec.ofNat 64 ((u.ctx j).cur + code.length)) false)

theorem uvarint_readsBack (c : Config) : ReadsBack c .uvEnc .uvDec := by
  intro s _
  refine ⟨_, exec_uvEnc s, fun u j hu hj hopen h => ?_⟩
  rw [exec_uvDec]
  exact State.run_readThrough_ok (hu ▸ hj) hopen (uvarintGet_of_codeAt h)

/-- A selected varbit in the stream is read back (43_varbit.md R485, R487). -/
theorem varbitGet_of_codeAt_putSel {c : Config} (hc : c.wf) {p : Payload} {cur : Nat} {m : Word}
    (h : p.codeAt cur (varbitPutSel c m)) : varbitGet c p cur = .ok (m, cur + (varbitPutSel c m).length) := by
  obtain ⟨hk, hm, -⟩ := isBucketOf_sel hc m
  rw [varbitPutSel_eq_code hc] at h ⊢
  exact varbitGet_of_codeAt hc hk hm h

theorem varbitUnsigned_readsBack {c : Config} (hc : c.wf) : ReadsBack c .vbEncU .vbDecU := by
  rintro s rfl
  refine ⟨varbitPutSel s.cfg s.latA, rfl, fun u j hu hj hopen h => ?_⟩
  rw [exec_vbDecU, hu]
  exact State.run_readThrough_ok (hu ▸ hj) hopen (varbitGet_of_codeAt_putSel hc h)

theorem varbitSigned_readsBack {c : Config} (hc : c.wf) : ReadsBack c .vbEncS .vbDecS := by
  rintro s rfl
  refine ⟨varbitPutSel s.cfg (zz s.latA), rfl, fun u j hu hj hopen h => ?_⟩
  rw [exec_vbDecS, hu, State.run_readThrough_ok (hu ▸ hj) hopen (varbitGet_of_codeAt_putSel hc h), unzz_zz]

/-- A transaction that appends and ends with `OK` has committed its bits (20_memory.md R203). -/
theorem State.run_written_ok {s p t : State} {out : List Bool} (h : s.run none (written p out) = .next t)
    (hok : t.st = .ok) :
    t = { p with payload := p.payload.append out }.post .ok (BitVec.ofNat 64 out.length)
      (BitVec.ofNat 64 (p.payload.append out).vb) false := by
  rw [State.run, State.complete_written] at h
  split at h
  · cases h
    rfl
  · cases h
    cases hok

/-- A reader opened at a code stands there, over an unchanged store (41_bitstream.md R430). -/
theorem exec_rdOpen_stands {s u : State} {j : BitVec 4} (h : exec (.rdOpen j) s = .next u)
    (hlen : s.dec.length = s.cfg.nDec) (hj : j.toNat < s.cfg.nDec) (hle : s.latA.toNat ≤ s.payload.vb) :
    u.ctx j = DecCtx.openRaw s.latA.toNat ∧ u.cfg = s.cfg ∧ u.payload = s.payload ∧ u.dec.length = s.dec.length := by
  obtain ⟨hopen, -⟩ := readersOpenAndReport s j hj
  rw [hopen hle] at h
  cases h
  exact ⟨State.ctx_setCtx_self (hlen ▸ hj) _, rfl, rfl, List.length_set⟩

/-- Settles O39: each pair of commands reads back, and `RD_OPEN` at the old `VB` stands at the code. -/
theorem codecsRoundTrip : Obligations.CodecsRoundTrip := by
  intro enc dec s t u j hs hj hcodec henc hok hvb hopen
  have ⟨hcfg, ⟨hwf, _⟩, _, _, hlen, _⟩ := hs
  have hback : ReadsBack s.cfg enc dec := by
    rcases hcodec with ⟨rfl, rfl⟩ | ⟨rfl, rfl⟩ | ⟨rfl, rfl⟩
    · exact uvarint_readsBack s.cfg
    · exact varbitUnsigned_readsBack hcfg
    · exact varbitSigned_readsBack hcfg
  obtain ⟨code, hrun, hread⟩ := hback s rfl
  rw [hrun] at henc
  obtain rfl := State.run_written_ok henc hok
  have hend : (s.payload.append code).vb = s.payload.vb + code.length := (Payload.append_wf hwf code).2
  have hstart : (BitVec.ofNat 64 s.payload.vb).toNat = s.payload.vb :=
    Nat.mod_eq_of_lt (Nat.lt_of_le_of_lt (hend ▸ Nat.le_add_right _ _) hvb)
  obtain ⟨hctx, hucfg, hupay, hulen⟩ := exec_rdOpen_stands hopen hlen hj
    (hstart.trans_le (hend ▸ Nat.le_add_right _ _))
  have hcur : (u.ctx j).cur = s.payload.vb := hctx ▸ hstart
  have hcode : u.payload.codeAt (u.ctx j).cur code := by
    rw [hupay, hcur]
    exact Payload.codeAt_append_vb hwf code
  refine ⟨_, hread u j hucfg hj (hctx ▸ rfl) hcode, rfl, rfl, ?_, ?_⟩
  · rw [hcur]
    exact congrArg (BitVec.ofNat 64) hend.symm
  · rw [hcur, ← hend]
    exact congrArg DecCtx.cur (State.ctx_setCtx_self (hulen.trans hlen ▸ hj) _)

end Sys2Proof.Machine
end

section
/-! The varbit unit apart from its readers (43_varbit.md R481 to R497): what the zig-zag commands, the selectors and the
encoders do, each in one equation. -/

namespace Sys2Proof.Machine

/-! ### The zig-zag commands -/

theorem exec_zzMap (s : State) : exec .zzMap s = .next (s.post .ok (zz s.latA) 0 false) :=
  congrArg Host.Outcome.next (State.complete_returns s s none _ _)

theorem exec_zzUnmap (s : State) : exec .zzUnmap s = .next (s.post .ok (unzz s.latA) 0 false) :=
  congrArg Host.Outcome.next (State.complete_returns s s none _ _)

/-- Settles O35: each command answers its function, and both functions are the integer zig-zag. -/
theorem zigzagCommandsComputeBijection : Obligations.ZigzagCommandsComputeBijection :=
  ⟨rfl, rfl, fun s => ⟨⟨zz s.latA, toNat_zz s.latA, exec_zzMap s⟩,
    ⟨unzz s.latA, zigzag_toInt_unzz s.latA, exec_zzUnmap s⟩⟩⟩

/-! ### The selectors -/

/-- `EncLen(k)` (43_varbit.md R484): the bucket code, of `k+1` bits below the escape bucket and `K-1` in it, and the
value's width. -/
theorem encLen_eq (c : Config) (k : Nat) :
    encLen c k = (if k < c.k - 1 then k + 1 else c.k - 1) + c.width k := rfl

/-- A selector reports the selected bucket of its magnitude and that bucket's code length (43_varbit.md R494, R495). -/
theorem State.run_selection (s : State) (m : Word) :
    s.run none (s.selection m) =
      .next (s.post .ok (BitVec.ofNat 64 (sel s.cfg m)) (BitVec.ofNat 64 (encLen s.cfg (sel s.cfg m))) false) :=
  congrArg Host.Outcome.next (State.complete_returns s s none _ _)

theorem exec_vbSelU (s : State) : exec .vbSelU s = s.run none (s.selection s.latA) := rfl

theorem exec_vbSelS (s : State) : exec .vbSelS s = s.run none (s.selection (zz s.latA)) := rfl

/-- Settles O36: both selectors answer the selected bucket, which is the smallest that holds the magnitude. -/
theorem selectorsReportSmallestBucket : Obligations.SelectorsReportSmallestBucket := by
  intro s hc
  simp only [← encLen_eq]
  refine ⟨⟨sel s.cfg s.latA, isBucketOf_sel hc _, ?_⟩,
    sel s.cfg (zz s.latA), zz s.latA, toNat_zz s.latA, isBucketOf_sel hc _, ?_⟩
  · rw [exec_vbSelU, State.run_selection]
  · rw [exec_vbSelS, State.run_selection]

/-! ### The encoders -/

theorem exec_vbEncU (s : State) : exec .vbEncU s = s.run none (written s (varbitPutSel s.cfg s.latA)) := rfl

theorem exec_vbEncS (s : State) : exec .vbEncS s = s.run none (written s (varbitPutSel s.cfg (zz s.latA))) := rfl

/-- A transaction that writes a selected varbit appends the code of the selected bucket (43_varbit.md R485). -/
theorem State.appends_varbitPutSel {s : State} (hc : s.cfg.wf) (h : s.storeWf) (m : Word) :
    Appends (s.run none (written s (varbitPutSel s.cfg m))) s s (varbitCode s.cfg (sel s.cfg m) m) :=
  varbitPutSel_eq_code hc m ▸ s.appends_written h rfl rfl _

/-- Settles O37: both encoders append the code of the selected bucket, which is the smallest that holds the
magnitude. -/
theorem varbitEncodersUseSmallestBucket : Obligations.VarbitEncodersUseSmallestBucket := by
  refine ⟨rfl, rfl, fun s hc h => ?_⟩
  rw [exec_vbEncU, exec_vbEncS]
  exact ⟨⟨sel s.cfg s.latA, isBucketOf_sel hc _, s.appends_varbitPutSel hc h _⟩,
    sel s.cfg (zz s.latA), zz s.latA, toNat_zz s.latA, isBucketOf_sel hc _, s.appends_varbitPutSel hc h _⟩

end Sys2Proof.Machine
end

section
/-! The compressor's chunk (44_appender.md R520 to R525): what `APP_INIT` begins, when `APP_APPEND` takes a sample, and
which command sets or clears `A.VALID`. -/

namespace Sys2Proof.Machine

/-! ### The new chunk -/

theorem exec_appInit (s : State) : exec .appInit s = .next (s.newChunk.post .ok 0 0 false) :=
  congrArg Host.Outcome.next (s.complete_returns s.newChunk none 0 0)

/-- Settles O42: the new chunk is the record the statement writes out. -/
theorem appInitBeginsEmptyChunk : Obligations.AppInitBeginsEmptyChunk := ⟨rfl, exec_appInit⟩

/-! ### The checks of a sample -/

theorem State.appendable_noChunk {s : State} (hvalid : s.app.valid = false) (t : Word) :
    s.appendable t = .error .noChunk := by
  simp [State.appendable, hvalid]

theorem State.appendable_limitExceeded {s : State} (hvalid : s.app.valid = true)
    (hlimit : s.app.cnt.toNat = s.cfg.maxSamples) (t : Word) : s.appendable t = .error .limitExceeded := by
  simp [State.appendable, hvalid, hlimit]

theorem State.appendable_outOfOrder {s : State} {t : Word} (hvalid : s.app.valid = true)
    (hlimit : s.app.cnt.toNat ≠ s.cfg.maxSamples) (hcnt : s.app.cnt ≠ 0) (hle : t.toInt ≤ s.app.pt.toInt) :
    s.appendable t = .error .outOfOrder := by
  have hsle : t.sle s.app.pt = true := BitVec.sle_iff_toInt_le.mpr hle
  rw [State.appendable, hvalid, if_neg (by decide), if_neg hlimit, if_pos ⟨hcnt, hsle⟩]

/-- A sample is taken when there is a chunk with room in its count and the timestamp, unless it is the first, is later
than the one before (44_appender.md R524, R525). -/
theorem State.appendable_of {s : State} {t : Word} (hvalid : s.app.valid = true)
    (hlimit : s.app.cnt.toNat ≠ s.cfg.maxSamples) (hlater : s.app.cnt ≠ 0 → s.app.pt.toInt < t.toInt) :
    s.appendable t = .ok () := by
  have horder : ¬(s.app.cnt ≠ 0 ∧ t.sle s.app.pt = true) := fun ⟨hcnt, hsle⟩ =>
    Int.not_le.mpr (hlater hcnt) (BitVec.sle_iff_toInt_le.mp hsle)
  rw [State.appendable, hvalid, if_neg (by decide), if_neg hlimit, if_neg horder]

theorem State.appendable_cases (s : State) (t : Word) :
    s.appendable t = .ok () ∨ ∃ e : Status, e ≠ .ok ∧ s.appendable t = .error e := by
  unfold State.appendable
  split
  · exact .inr ⟨_, by decide, rfl⟩
  · split
    · exact .inr ⟨_, by decide, rfl⟩
    · split
      · exact .inr ⟨_, by decide, rfl⟩
      · exact .inl rfl

/-- A sample that is not taken changes nothing but the results (60_exceptions.md R710). -/
theorem exec_appAppend_refused {s : State} {e : Status} (h : s.appendable s.latA = .error e) :
    exec .appAppend s = .next (s.post e 0 0 false) :=
  congrArg (fun x => s.run none (x >>= fun _ => written s.counted s.encoded.1)) h

/-- A sample that is taken is counted and its bits are written. -/
theorem exec_appAppend_taken {s : State} (h : s.appendable s.latA = .ok ()) :
    exec .appAppend s = s.run none (written s.counted s.encoded.1) :=
  congrArg (fun x => s.run none (x >>= fun _ => written s.counted s.encoded.1)) h

/-- Settles O43: the checks refuse in this order, and a refused sample changes nothing. -/
theorem appendRefusalsInOrder : Obligations.AppendRefusalsInOrder := by
  refine fun s => ⟨fun hvalid => ?_, fun hvalid => ⟨fun hlimit => ?_, fun hlimit hcnt hle => ?_⟩⟩
  · exact exec_appAppend_refused (State.appendable_noChunk hvalid _)
  · exact exec_appAppend_refused (State.appendable_limitExceeded hvalid hlimit _)
  · have hcnt' : s.app.cnt ≠ 0 := fun e => hcnt (congrArg BitVec.toNat e)
    exact exec_appAppend_refused (State.appendable_outOfOrder hvalid hlimit hcnt' hle)

/-- All that `APP_APPEND` can leave: an error and nothing changed, or the sample counted and its bits committed. -/
theorem exec_appAppend_cases {s t : State} (h : exec .appAppend s = .next t) :
    (∃ e : Status, e ≠ .ok ∧ t = s.post e 0 0 false) ∨
      s.appendable s.latA = .ok () ∧
        t = { s.counted with payload := s.payload.append s.encoded.1 }.post .ok (BitVec.ofNat 64 s.encoded.1.length)
          (BitVec.ofNat 64 (s.payload.append s.encoded.1).vb) false := by
  rcases s.appendable_cases s.latA with hok | ⟨e, he, hrefused⟩
  · rw [exec_appAppend_taken hok, State.run, State.complete_written] at h
    split at h
    · cases h
      exact .inr ⟨hok, rfl⟩
    · cases h
      exact .inl ⟨_, by decide, rfl⟩
  · rw [exec_appAppend_refused hrefused] at h
    cases h
    exact .inl ⟨e, he, rfl⟩

/-! ### The owner of the chunk -/

/-- Encoding a sample keeps `A.VALID`, whatever the window (44_appender.md R521, R526 to R530). -/
theorem encodeSample_valid (c : Config) (a : Appender) (t v : Word) : (encodeSample c a t v).2.valid = a.valid := by
  unfold encodeSample
  split
  · rfl
  · show (valuePut c a v).2.valid = a.valid
    rcases valuePut_cases c a v with e | ⟨lz, tz, -, -, e⟩ <;> rw [e]

theorem State.counted_valid (s : State) : s.counted.app.valid = s.app.valid := encodeSample_valid _ _ _ _

/-- What a command that ends in `t` has done to the chunk of `s`, as far as `HDR` and `A.VALID` tell
(44_appender.md R521, R523; 46_chunk_image.md R600). -/
inductive State.ChunkChange (s t : State) : Instr → Prop
  | kept {i : Instr} (hheader : t.header = s.header) (happ : t.app = s.app) : s.ChunkChange t i
  | counted (hbefore : s.app.valid = true) (hafter : t.app.valid = true) : s.ChunkChange t .appAppend
  | begun (hafter : t.app.valid = true) : s.ChunkChange t .appInit
  | cleared (hafter : t.app.valid = false) : s.ChunkChange t .clear
  | disowned (hafter : t.app.valid = false) : s.ChunkChange t .chLoadb

theorem State.ChunkChange.raise (s : State) (i : Instr) (closes : Option (BitVec 4)) (e : Status) :
    s.ChunkChange (s.raise closes e) i := by
  cases closes with
  | none => exact .kept rfl rfl
  | some j =>
    rw [State.raise_some]
    split <;> exact .kept rfl rfl

/-- A command that appends leaves the chunk of its pending state, or, where the bits do not fit, the one it found. -/
theorem State.ChunkChange.complete_written {s p : State} {i : Instr}
    (h : ∀ (q : Payload) (r0 r1 : Word), s.ChunkChange ({ p with payload := q }.post .ok r0 r1 false) i)
    (closes : Option (BitVec 4)) (out : List Bool) : s.ChunkChange (s.complete closes (written p out)) i := by
  rw [State.complete_written]
  split
  · exact h _ _ _
  · exact .raise s i _ _

theorem State.Answers.complete_chunkChange {s : State} {i : Instr} {r : Except Status Done} (h : s.Answers i r)
    (closes : Option (BitVec 4)) : s.ChunkChange (s.complete closes r) i := by
  cases h with
  | error e => exact .raise s i _ e
  | report | read | openRaw | openIter | ended | sample => exact .kept rfl rfl
  | put => exact .complete_written (fun _ _ _ => .kept rfl rfl) _ _
  | cleared => exact .cleared rfl
  | newChunk => exact .begun rfl
  | append hok =>
    obtain ⟨hvalid, -⟩ := State.appendable_ok hok
    exact .complete_written (p := s.counted) (fun _ _ _ => .counted hvalid (s.counted_valid.trans hvalid)) _ _
  | loadHeader | loadPayload => exact .complete_written (fun _ _ _ => .disowned rfl) _ _

theorem exec_chunkChange {i : Instr} {s t : State} (h : exec i s = .next t) : s.ChunkChange t i := by
  obtain ⟨r, hr, ha⟩ := exec_answers i s
  rw [hr] at h
  cases h
  exact ha.complete_chunkChange _

/-- Settles O26: by the change a command makes to the chunk, and for the count by what `APP_APPEND` commits. -/
theorem compressorOwnsItsChunk : Obligations.CompressorOwnsItsChunk := by
  intro i s t h
  refine ⟨fun hbefore hafter => ?_, fun hbefore hafter => ?_, ?_, fun hother => ?_⟩
  · cases exec_chunkChange h with
    | kept _ happ =>
      rw [happ, hbefore] at hafter
      cases hafter
    | begun => rfl
    | counted hvalid => exact absurd (hbefore.symm.trans hvalid) nofun
    | cleared hvalid | disowned hvalid => exact absurd (hvalid.symm.trans hafter) nofun
  · cases exec_chunkChange h with
    | kept _ happ =>
      rw [happ, hbefore] at hafter
      cases hafter
    | cleared => exact .inl rfl
    | disowned => exact .inr rfl
    | counted _ hvalid | begun hvalid => exact absurd (hvalid.symm.trans hafter) nofun
  · rintro rfl hok
    rcases exec_appAppend_cases h with ⟨e, he, rfl⟩ | ⟨-, rfl⟩
    · exact absurd hok he
    · exact ⟨rfl, rfl⟩
  · cases exec_chunkChange h with
    | kept hheader happ => exact ⟨hheader, happ⟩
    | counted | begun | cleared | disowned => simp at hother

end Sys2Proof.Machine
end

section
/-! The samples of a chunk (44_appender.md R525 to R534): the value field by the size and the divisors of its XOR, the
code of a timestamp, what an append commits, and how long a sample can be. -/

namespace Sys2Proof.Machine

/-! ### Zero counts as size and divisors -/

/-- A word has `n` leading zeros when it is below `2^(64-n)` (00_scope.md R21). -/
theorem le_clz64_iff (x : Word) {n : Nat} (hn : n ≤ 64) : n ≤ clz64 x ↔ x.toNat < 2 ^ (64 - n) := by
  obtain ⟨hzero, hone⟩ := leadingZerosFrom_spec x 64
  constructor
  · intro h
    refine Nat.lt_pow_two_of_testBit _ fun k hk => ?_
    by_cases hlt : k < 64
    · exact hzero k hlt (show 64 ≤ k + clz64 x by omega)
    · exact BitVec.getLsbD_of_ge x k (by omega)
  · intro h
    by_contra hlt
    have hbit : x.getLsbD (63 - clz64 x) = true := hone (show clz64 x < 64 by omega)
    have hle : 2 ^ (64 - n) ≤ 2 ^ (63 - clz64 x) := Nat.pow_le_pow_right (by decide) (by omega)
    exact absurd (Nat.ge_two_pow_of_testBit hbit) (by omega)

theorem two_pow_dvd_iff_testBit (x n : Nat) : 2 ^ n ∣ x ↔ ∀ k < n, x.testBit k = false := by
  rw [Nat.dvd_iff_mod_eq_zero]
  constructor
  · intro h k hk
    have := Nat.testBit_mod_two_pow x n k
    simpa [h, hk] using this
  · intro h
    refine Nat.zero_of_testBit_eq_false fun k => ?_
    rw [Nat.testBit_mod_two_pow]
    by_cases hk : k < n
    · rw [h k hk, Bool.and_false]
    · rw [decide_eq_false hk, Bool.false_and]

/-- A word has `n` trailing zeros when `2^n` divides it (00_scope.md R21). -/
theorem le_ctz64_iff (x : Word) {n : Nat} (hn : n ≤ 64) : n ≤ ctz64 x ↔ 2 ^ n ∣ x.toNat := by
  obtain ⟨-, hzero, hone⟩ := trailingZerosFrom_spec x 64 0
  rw [two_pow_dvd_iff_testBit]
  constructor
  · intro h k hk
    exact hzero k k.zero_le (show k < 0 + ctz64 x by omega)
  · intro h
    by_contra hlt
    have hbit : x.getLsbD (0 + ctz64 x) = true := hone (show ctz64 x < 64 by omega)
    rw [Nat.zero_add] at hbit
    exact absurd (hbit.symm.trans (h _ (Nat.lt_of_not_le hlt))) nofun

/-! ### The value field -/

/-- The window of `A` covers an XOR that is small enough and divisible enough (44_appender.md R530). -/
theorem Appender.covers_iff (a : Appender) (x : Word) :
    a.covers x = true ↔ a.wv = true ∧ x.toNat < 2 ^ (64 - a.lz.toNat) ∧ 2 ^ a.tz.toNat ∣ x.toNat := by
  have hlz := a.lz.isLt
  have htz := a.tz.isLt
  rw [Appender.covers, Bool.and_eq_true, Bool.and_eq_true, decide_eq_true_iff, decide_eq_true_iff,
    le_clz64_iff x (by omega), le_ctz64_iff x (by omega), and_assoc]

/-- What `ValuePut` writes and leaves is the value field as the spec gives it (44_appender.md R530, R532). -/
theorem valuePut_encodes (c : Config) (a : Appender) (v : Word) :
    EncodedValue c a v (valuePut c a v).1 (valuePut c a v).2 := by
  have hxor : v ^^^ a.pv = 0 ↔ v = a.pv := BitVec.xor_eq_zero_iff
  unfold valuePut
  simp only [putBits_eq_msbBits]
  split
  next hsame => exact .unchanged (hxor.mp hsame)
  next hdiff =>
    have hne : v ≠ a.pv := hdiff ∘ hxor.mpr
    split
    next hcovers =>
      obtain ⟨hwv, hlt, hdvd⟩ := (a.covers_iff _).mp hcovers
      exact .reuse hne hwv hlt hdvd
    next hcovers =>
      have hsum := clz64_add_ctz64_lt hdiff
      refine .window (clz64 (v ^^^ a.pv)) (ctz64 (v ^^^ a.pv)) _ hne ((a.covers_iff _).not.mp hcovers) (by omega)
        ?_ ((le_clz64_iff _ (by omega)).mp (Nat.le_refl _)) ((le_ctz64_iff _ (by omega)).mp (Nat.le_refl _)) ?_ rfl
      · have := (le_clz64_iff (v ^^^ a.pv) (n := clz64 (v ^^^ a.pv) + 1) (by omega)).not.mp (by omega)
        rwa [Nat.not_lt, Nat.add_comm, ← Nat.sub_sub] at this
      · exact (le_ctz64_iff _ (by omega)).not.mp (by omega)

/-- A value field is at most its two control bits, the two fields of a new window and 64 value bits
(44_appender.md R531). -/
theorem EncodedValue.length_le {c : Config} {a a' : Appender} {v : Word} {field : List Bool}
    (h : EncodedValue c a v field a') : field.length ≤ 66 + c.lzBits + c.mbBits := by
  cases h with
  | unchanged => rw [List.length_singleton]; omega
  | reuse | window => simp only [List.length_append, msbBits_length, List.length_cons, List.length_nil]; omega

/-! ### The code of a timestamp -/

theorem zz_zero : zz 0 = 0 := by decide

/-- The smallest bucket holds 0 (43_varbit.md R483). -/
theorem sel_zero {c : Config} (h : c.wf) : sel c 0 = 0 := by
  obtain ⟨-, -, hsmallest⟩ := isBucketOf_sel h 0
  by_contra hne
  exact absurd (hsmallest 0 (Nat.pos_of_ne_zero hne)) (Nat.not_le.mpr (Nat.two_pow_pos _))

/-- Where the smallest bucket has width 0 its code of 0 is one bit (44_appender.md R534). -/
theorem varbitCode_zero {c : Config} (h : c.wf) (hwidth : c.width 0 = 0) : varbitCode c 0 0 = [false] := by
  obtain ⟨-, -, -, ⟨hk, -⟩, -⟩ := h
  rw [varbitCode, bucketCode, if_pos (by omega), hwidth]
  rfl

/-- The bucket that the first timestamp is written in (44_appender.md R526). -/
def firstBucket (c : Config) (m : Word) : Nat :=
  match c.firstTs with
  | .select => sel c m
  | .escape => c.esc

theorem firstTsBits_eq_put (c : Config) (t : Word) : firstTsBits c t = varbitPut c (zz t) (firstBucket c (zz t)) := by
  unfold firstTsBits firstBucket
  cases c.firstTs <;> rfl

theorem varbitPut_eq_code {c : Config} (h : c.wf) (m : Word) (k : Nat) : varbitPut c m k = varbitCode c k m := by
  rw [varbitPut, varbitCode, prefixBits_eq_bucketCode h, putBits_eq_msbBits]

/-! ### What an append commits -/

/-- What the timestamp of a later sample is coded as: the delta for the second one, the double-delta after
(44_appender.md R527 to R529). -/
def State.timestampChange (s : State) : Word :=
  if s.app.cnt = 1 then s.latA - s.app.pt else s.latA - s.app.pt - s.app.pd

/-- The state that a later sample pends, its value field leaving the compressor `a` (44_appender.md R525). -/
def State.laterSample (s : State) (a : Appender) : State :=
  { s with
    app := { a with cnt := s.app.cnt + 1, pt := s.latA, pd := s.latA - s.app.pt }
    header := { s.header with hdr := s.app.cnt + 1 } }

theorem State.encoded_first {s : State} (h : s.app.cnt = 0) :
    s.encoded = (firstTsBits s.cfg s.latA ++ putBits s.latB 64,
      { s.app with pt := s.latA, pd := 0, pv := s.latB, wv := false }) := if_pos h

theorem State.encoded_later {s : State} (h : s.app.cnt ≠ 0) :
    s.encoded = (varbitPutSel s.cfg (zz s.timestampChange) ++ (valuePut s.cfg s.app s.latB).1,
      { (valuePut s.cfg s.app s.latB).2 with pd := s.latA - s.app.pt, pt := s.latA }) := if_neg h

/-- A sample that is taken appends its bits to the counted chunk. -/
theorem State.appends_encoded {s : State} (hstore : s.storeWf) (h : s.appendable s.latA = .ok ()) :
    Appends (exec .appAppend s) s s.counted s.encoded.1 :=
  exec_appAppend_taken h ▸ s.appends_written (p := s.counted) hstore rfl rfl _

/-- Settles O44. -/
theorem firstSampleIsRaw : Obligations.FirstSampleIsRaw := by
  intro s hc hstore hvalid hcnt
  have hlimit : s.app.cnt.toNat ≠ s.cfg.maxSamples := by
    obtain ⟨-, ⟨hpos, -⟩, -⟩ := hc
    rw [hcnt]
    exact (Nat.ne_of_gt hpos).symm
  have happends := State.appends_encoded hstore (State.appendable_of hvalid hlimit (absurd hcnt))
  have hpending : s.counted =
      { s with
        app := { s.app with cnt := 1, pt := s.latA, pd := 0, pv := s.latB, wv := false }
        header := { s.header with hdr := 1 } } := by
    rw [State.counted, State.encoded_first hcnt, hcnt]
    rfl
  rw [hpending, State.encoded_first hcnt, firstTsBits_eq_put, varbitPut_eq_code hc, putBits_eq_msbBits] at happends
  refine ⟨firstBucket s.cfg (zz s.latA), zz s.latA, toNat_zz _, fun hselect => ?_, fun hescape => ?_, happends⟩
  · rw [firstBucket, hselect]
    exact isBucketOf_sel hc _
  · rw [firstBucket, hescape]
    rfl

section
variable {s : State} (hc : s.cfg.wf) (hstore : s.storeWf) (hvalid : s.app.valid = true) (hcnt : s.app.cnt ≠ 0)
  (hlimit : s.app.cnt.toNat ≠ s.cfg.maxSamples) (hlater : s.app.pt.toInt < s.latA.toInt)
include hc hstore hvalid hcnt hlimit hlater

/-- A later sample appends the timestamp's code in its smallest bucket and the value field
(44_appender.md R527 to R530). -/
theorem State.appends_laterSample :
    Appends (exec .appAppend s) s (s.laterSample (valuePut s.cfg s.app s.latB).2)
      (varbitCode s.cfg (sel s.cfg (zz s.timestampChange)) (zz s.timestampChange) ++
        (valuePut s.cfg s.app s.latB).1) := by
  have happends := State.appends_encoded hstore (State.appendable_of hvalid hlimit fun _ => hlater)
  have hpending : s.counted = s.laterSample (valuePut s.cfg s.app s.latB).2 := by
    rw [State.counted, State.encoded_later hcnt]
    rfl
  rwa [hpending, State.encoded_later hcnt, varbitPutSel_eq_code hc] at happends

/-- A repeated value leaves the compressor's window and costs one bit (44_appender.md R534). -/
theorem State.appends_repeatedValue (hvalue : s.latB = s.app.pv) :
    Appends (exec .appAppend s) s (s.laterSample s.app)
      (varbitCode s.cfg (sel s.cfg (zz s.timestampChange)) (zz s.timestampChange) ++ [false]) := by
  have happends := State.appends_laterSample hc hstore hvalid hcnt hlimit hlater
  rwa [hvalue, valuePut_same] at happends

end

/-- Settles O45. -/
theorem laterSamplesAreDeltas : Obligations.LaterSamplesAreDeltas :=
  fun s hc hstore hvalid hcnt hlimit hlater =>
    ⟨_, zz s.timestampChange, _, _, toNat_zz _, isBucketOf_sel hc _, valuePut_encodes _ _ _,
      State.appends_laterSample hc hstore hvalid hcnt hlimit hlater⟩

/-- Settles O46: a repeated value writes the field `[false]`, and a repeated step has the double-delta 0, which the
smallest bucket holds. -/
theorem steadySeriesIsNearlyFree : Obligations.SteadySeriesIsNearlyFree := by
  intro s hc hstore hvalid hcnt hlimit hlater
  have happends := State.appends_laterSample hc hstore hvalid hcnt hlimit hlater
  have hrepeated := State.appends_repeatedValue hc hstore hvalid hcnt hlimit hlater
  refine ⟨fun hvalue => ⟨_, zz s.timestampChange, toNat_zz _, isBucketOf_sel hc _, hrepeated hvalue⟩,
    fun hthird hstep => ?_⟩
  have hzero : zz s.timestampChange = 0 := by
    rw [State.timestampChange, if_neg hthird, hstep, BitVec.sub_self]
    exact zz_zero
  rw [hzero, sel_zero hc] at happends hrepeated
  exact ⟨varbitCode_zero hc, ⟨_, _, valuePut_encodes _ _ _, happends⟩, hrepeated⟩

/-! ### The length of a sample -/

@[simp] theorem prefixBits_length (c : Config) (k : Nat) : (prefixBits c k).length = prefixLen c k := by
  unfold prefixBits prefixLen
  split <;> exact putBits_length _ _

/-- The code of bucket `k` is `EncLen(k)` bits long (43_varbit.md R484, R485). -/
@[simp] theorem varbitPut_length (c : Config) (m : Word) (k : Nat) : (varbitPut c m k).length = encLen c k := by
  rw [varbitPut, List.length_append, prefixBits_length, putBits_length, encLen]

/-- A table with a bucket of 64 bits has a bucket for every magnitude (43_varbit.md R483). -/
theorem sel_lt {c : Config} (h : 64 ∈ c.widths) (m : Word) : sel c m < c.k :=
  List.findIdx_lt_length.mpr ⟨64, h, decide_eq_true m.isLt⟩

theorem firstBucket_lt {c : Config} (h : 64 ∈ c.widths) (m : Word) : firstBucket c m < c.k := by
  have hsel := sel_lt h m
  unfold firstBucket
  split
  · exact hsel
  · exact Nat.sub_lt (Nat.zero_lt_of_lt hsel) Nat.one_pos

theorem encLen_congr {c d : Config} (h : c.widths = d.widths) (k : Nat) : encLen c k = encLen d k := by
  unfold encLen prefixLen Config.width Config.esc Config.k
  rw [h]

/-- With the spec's widths no bucket's code is longer than the escape bucket's, of 8 and 64 bits (43_varbit.md R484). -/
theorem encLen_le_of_standard {c : Config} (h : c.widths = Config.standard.widths) {k : Nat} (hk : k < c.k) :
    encLen c k ≤ 72 := by
  have hstandard : ∀ k < Config.standard.k, encLen Config.standard k ≤ 72 := by decide
  rw [encLen_congr h]
  exact hstandard k (by rwa [Config.k, h] at hk)

/-- The first sample is a timestamp's code and 64 bits, a later one a timestamp's code and a value field
(44_appender.md R531). -/
theorem State.encoded_length_le {s : State} (hwidths : s.cfg.widths = Config.standard.widths) (hlz : s.cfg.lzBits = 5)
    (hmb : s.cfg.mbBits = 6) : s.encoded.1.length ≤ if s.app.cnt = 0 then 136 else 149 := by
  have hescape : 64 ∈ s.cfg.widths := hwidths ▸ by decide
  split
  next hfirst =>
    have hts := encLen_le_of_standard hwidths (firstBucket_lt hescape (zz s.latA))
    rw [State.encoded_first hfirst, List.length_append, firstTsBits_eq_put, varbitPut_length, putBits_length]
    omega
  next hlater =>
    have hts := encLen_le_of_standard hwidths (sel_lt hescape (zz s.timestampChange))
    have hfield := (valuePut_encodes s.cfg s.app s.latB).length_le
    rw [State.encoded_later hlater, List.length_append, varbitPutSel, varbitPut_length]
    omega

/-- Settles O47: an append that is refused adds nothing, and one that commits adds the sample's bits. -/
theorem sampleLengthIsBounded : Obligations.SampleLengthIsBounded := by
  intro s t hwidths hlz hmb hwf h
  rcases exec_appAppend_cases h with ⟨e, -, rfl⟩ | ⟨-, rfl⟩
  · exact Nat.le_add_right _ _
  · obtain ⟨-, hvb⟩ := Payload.append_wf hwf s.encoded.1
    have hlen := State.encoded_length_le hwidths hlz hmb
    show (s.payload.append s.encoded.1).vb ≤ _
    omega

end Sys2Proof.Machine
end

section
/-! The iterator's commands up to the sample they read (45_iterator.md R560 to R562, R566). -/

namespace Sys2Proof.Machine

/-! ### Transactions that close their context -/

section
variable {α : Type} {s : State} {j : BitVec 4} {closes : Option (BitVec 4)} {x : Except Status α}

/-- A transaction whose first part answers goes on. -/
theorem State.run_ok_bind {a : α} (h : x = .ok a) (f : α → Except Status Done) :
    s.run closes (x >>= f) = s.run closes (f a) := by
  rw [h, except_ok_bind]

/-- An iterator command that raises closes its context, unless the word was illegal (60_exceptions.md R712). -/
theorem State.run_error_closes {e : Status} (he : e ≠ .illegalCommand) :
    s.run (some j) (.error e) = .next ((s.closeCtx j).post e 0 0 false) := by
  rw [State.run, State.complete_error, State.raise_some, if_neg he]

theorem State.run_error_bind_closes {e : Status} (h : x = .error e) (he : e ≠ .illegalCommand)
    (f : α → Except Status Done) : s.run (some j) (x >>= f) = .next ((s.closeCtx j).post e 0 0 false) := by
  rw [h, except_error_bind, State.run_error_closes he]

end

section
variable {s : State} {j : BitVec 4} (hj : j.toNat < s.cfg.nDec)
include hj

/-! ### `ITER_INIT` -/

theorem exec_iterInit_of_complete (h : s.cfg.hdrBytes ≤ s.header.hlen) :
    exec (.iterInit j) s =
      .next ((s.setCtx j (DecCtx.openIter s.header.hdr)).post .ok s.header.hdr 0 false) :=
  (State.run_ok_bind (State.ctxWithin_of_lt hj) _).trans (congrArg (s.run (some j)) (if_neg (Nat.not_lt.mpr h)))

theorem exec_iterInit_of_incomplete (h : s.header.hlen < s.cfg.hdrBytes) :
    exec (.iterInit j) s = .next ((s.closeCtx j).post .truncated 0 0 false) :=
  (State.run_ok_bind (State.ctxWithin_of_lt hj) _).trans
    ((congrArg (s.run (some j)) (if_pos h)).trans (State.run_error_closes (by decide)))

/-! ### `ITER_NEXT` -/

theorem exec_iterNext_closed (h : (s.ctx j).act = false) :
    exec (.iterNext j) s = .next ((s.closeCtx j).post .noContext 0 0 false) :=
  (State.run_ok_bind (State.ctxWithin_of_lt hj) _).trans
    (State.run_error_bind_closes (State.need_closed h) (by decide) _)

/-- On an open context `ITER_NEXT` goes by the context's mode and count (45_iterator.md R561). -/
theorem exec_iterNext_open (h : (s.ctx j).act = true) :
    exec (.iterNext j) s = s.run (some j)
      (if (s.ctx j).mode ≠ .iter then .error .noContext
      else if (s.ctx j).i = (s.ctx j).n then s.endOfSequence
      else decodeSample s.cfg s.payload (s.ctx j) >>= fun d => returns (s.setCtx j d) d.pt d.pv) :=
  (State.run_ok_bind (State.ctxWithin_of_lt hj) _).trans (State.run_ok_bind (State.need_open h) _)

theorem exec_iterNext_raw (hopen : (s.ctx j).act = true) (h : (s.ctx j).mode = .raw) :
    exec (.iterNext j) s = .next ((s.closeCtx j).post .noContext 0 0 false) := by
  rw [exec_iterNext_open hj hopen, if_pos (by rw [h]; decide), State.run_error_closes (by decide)]

variable (hopen : (s.ctx j).act = true) (hmode : (s.ctx j).mode = .iter)
include hopen hmode

theorem exec_iterNext_end (h : (s.ctx j).i = (s.ctx j).n) : exec (.iterNext j) s = .next (s.post .ok 0 0 true) := by
  rw [exec_iterNext_open hj hopen, if_neg (not_not.mpr hmode), if_pos h]
  rfl

variable (hi : (s.ctx j).i ≠ (s.ctx j).n)
include hi

/-- A sample that decodes is returned, and the context stands past it. -/
theorem exec_iterNext_sample {d : DecCtx} (h : decodeSample s.cfg s.payload (s.ctx j) = .ok d) :
    exec (.iterNext j) s = .next ((s.setCtx j d).post .ok d.pt d.pv false) := by
  rw [exec_iterNext_open hj hopen, if_neg (not_not.mpr hmode), if_neg hi, State.run_ok_bind h]
  rfl

/-- A sample that does not decode closes the context. -/
theorem exec_iterNext_error {e : Status} (he : e ≠ .illegalCommand)
    (h : decodeSample s.cfg s.payload (s.ctx j) = .error e) :
    exec (.iterNext j) s = .next ((s.closeCtx j).post e 0 0 false) := by
  rw [exec_iterNext_open hj hopen, if_neg (not_not.mpr hmode), if_neg hi, State.run_error_bind_closes h he]

end

/-- Settles O48: both states are the ones the command's two answers leave. -/
theorem iterInitLatchesCount : Obligations.IterInitLatchesCount :=
  fun _ _ hj => ⟨exec_iterInit_of_complete hj, exec_iterInit_of_incomplete hj⟩

/-- Settles O49. -/
theorem iterNextEndsOrRefuses : Obligations.IterNextEndsOrRefuses := by
  refine fun s j hj => ⟨exec_iterNext_end hj, fun h => ?_⟩
  cases hact : (s.ctx j).act with
  | false => exact exec_iterNext_closed hj hact
  | true => exact exec_iterNext_raw hj hact (h.resolve_left (by rw [hact]; decide))

end Sys2Proof.Machine
end

section
/-! The sample that `ITER_NEXT` reads (45_iterator.md R561 to R571): what stands at the cursor, whole or cut by the
stream's end, and what the decoder makes of it. -/

namespace Sys2Proof.Machine

/-! ### A stream that ends inside a code -/

/-- The stream ends before `code` does, and holds the start of it from position `cur`. -/
def Payload.EndsInside (p : Payload) (cur : Nat) (code : List Bool) : Prop :=
  ∃ n < code.length, cur + n = p.vb ∧ p.codeAt cur (code.take n)

section
variable {c : Config} {p : Payload} {cur : Nat}

theorem Payload.EndsInside.vb_lt {code : List Bool} (h : p.EndsInside cur code) : p.vb < cur + code.length := by
  obtain ⟨n, hn, hend, -⟩ := h
  omega

/-- A stream that ends inside two codes ends inside the first, or holds it and ends inside the second. -/
theorem Payload.EndsInside.append {a b : List Bool} (h : p.EndsInside cur (a ++ b)) :
    p.EndsInside cur a ∨ p.codeAt cur a ∧ p.EndsInside (cur + a.length) b := by
  obtain ⟨n, hn, hend, hcode⟩ := h
  rw [List.take_append] at hcode
  by_cases hlt : n < a.length
  · rw [Nat.sub_eq_zero_of_le hlt.le, List.take_zero, List.append_nil] at hcode
    exact .inl ⟨n, hlt, hend, hcode⟩
  · rw [List.take_of_length_le (Nat.le_of_not_lt hlt), Payload.codeAt_append] at hcode
    obtain ⟨ha, hb⟩ := hcode
    rw [List.length_append] at hn
    exact .inr ⟨ha, n - a.length, by omega, by omega, hb⟩

theorem Payload.getBits_of_endsInside {n : Nat} {v : Word} (h : p.EndsInside cur (msbBits v n)) :
    p.getBits cur n = .error .truncated :=
  Payload.getBits_truncated (by simpa using h.vb_lt)

/-- Short of its last bit, a bucket code is ones (43_varbit.md R482). -/
theorem take_bucketCode {k n : Nat} (hn : n < (bucketCode c k).length) :
    n < c.k - 1 ∧ (bucketCode c k).take n = List.replicate n true := by
  unfold bucketCode at hn ⊢
  split at hn
  next hlt =>
    rw [List.length_append, List.length_replicate, List.length_singleton] at hn
    rw [if_pos hlt, List.take_append_of_le_length (by rw [List.length_replicate]; omega), List.take_replicate,
      Nat.min_eq_left (by omega)]
    exact ⟨by omega, rfl⟩
  next hesc =>
    rw [List.length_replicate] at hn
    rw [if_neg hesc, List.take_replicate, Nat.min_eq_left hn.le]
    exact ⟨hn, rfl⟩

/-- A varbit that the stream's end cuts is truncated, in its bucket code or in its value (43_varbit.md R488). -/
theorem varbitGet_of_endsInside {k : Nat} {m : Word} (hk : k < c.k) (h : p.EndsInside cur (varbitCode c k m)) :
    varbitGet c p cur = .error .truncated := by
  rcases h.append with ⟨n, hn, hend, hcode⟩ | ⟨hbucket, hvalue⟩
  · obtain ⟨hlt, htake⟩ := take_bucketCode hn
    exact varbitGet_truncated_bucket hlt hend (htake ▸ hcode)
  · exact varbitGet_truncated_value hk hbucket (by simpa using hvalue.vb_lt)

/-! ### The control bits of a value -/

theorem Payload.getBits_of_bit {b : Bool} (h : p.codeAt cur [b]) :
    p.getBits cur 1 = .ok ((BitVec.ofBool b).setWidth 64, cur + 1) := by
  cases b with
  | false => exact Payload.getBits_of_codeAt (by omega) (by decide) h
  | true => exact Payload.getBits_of_codeAt (by omega) (by decide) h

variable {d : DecCtx}

theorem xorGet_truncated (h : p.vb < cur + 1) : xorGet c p d cur = .error .truncated := by
  rw [xorGet, Payload.getBits_truncated h, except_error_bind]

/-- Control bit `0`: the value is unchanged (45_iterator.md R570). -/
theorem xorGet_unchanged (h : p.codeAt cur [false]) : xorGet c p d cur = .ok (0, { d with cur := cur + 1 }) := by
  rw [xorGet, Payload.getBits_of_bit h, except_ok_bind]
  rfl

/-- Control bit `1`: the next bit says which window (45_iterator.md R570). -/
theorem xorGet_changed (h : p.codeAt cur [true]) :
    xorGet c p d cur = p.getBits (cur + 1) 1 >>= fun (b, cur) =>
      if b = 0 then reuseGet p d cur else newWindowGet c p d cur := by
  rw [xorGet, Payload.getBits_of_bit h, except_ok_bind]
  rfl

/-- Control bits `1 0` and `1 1`: a window reused, or a new one (45_iterator.md R570). -/
theorem xorGet_of_control {b : Bool} (h : p.codeAt cur [true, b]) :
    xorGet c p d cur = if b then newWindowGet c p d (cur + 2) else reuseGet p d (cur + 2) := by
  obtain ⟨hfirst, hsecond⟩ : p.codeAt cur [true] ∧ p.codeAt (cur + 1) [b] := Payload.codeAt_append.mp h
  rw [xorGet_changed hfirst, Payload.getBits_of_bit hsecond, except_ok_bind]
  cases b <;> rfl

theorem xorGet_of_endsInside_control {b : Bool} (h : p.EndsInside cur [true, b]) :
    xorGet c p d cur = .error .truncated := by
  rcases Payload.EndsInside.append (a := [true]) h with hfirst | ⟨hfirst, hsecond⟩
  · exact xorGet_truncated hfirst.vb_lt
  · have hcut : p.vb < cur + 1 + 1 := hsecond.vb_lt
    rw [xorGet_changed hfirst, Payload.getBits_truncated hcut, except_error_bind]

/-! ### A window reused -/

theorem reuseGet_malformed (h : d.wv = false) : reuseGet p d cur = .error .malformed := by
  rw [reuseGet, h]
  rfl

theorem reuseGet_window (h : d.wv = true) :
    reuseGet p d cur = p.getBits cur (64 - d.lz.toNat - d.tz.toNat) >>= fun (x, cur) =>
      .ok (x <<< d.tz.toNat, { d with cur := cur }) := by
  rw [reuseGet, h]
  rfl

/-! ### A new window -/

theorem toNat_ofNat_of_lt_pow {n w : Nat} (hw : w ≤ 64) (h : n < 2 ^ w) : (BitVec.ofNat 64 n).toNat = n :=
  Nat.mod_eq_of_lt (h.trans_le (Nat.pow_le_pow_right (by decide) hw))

theorem fieldWidths_le (h : c.wf) : c.lzBits ≤ 64 ∧ c.mbBits ≤ 64 := by
  obtain ⟨-, -, -, -, -, -, ⟨-, hlz⟩, ⟨-, hmb⟩, -⟩ := h
  omega

/-- The control bits and the two fields before the meaningful bits of a new window (45_iterator.md R570). -/
def windowCode (c : Config) (lz f : Nat) : List Bool :=
  [true, true] ++ msbBits (BitVec.ofNat 64 lz) c.lzBits ++ msbBits (BitVec.ofNat 64 f) c.mbBits

/-- After the two window fields: `Malformed` for a window wider than 64 bits, else its meaningful bits
(45_iterator.md R570, R571 (c)). -/
theorem xorGet_of_window (hc : c.wf) {lz f mb : Nat} (hlz : lz < 2 ^ c.lzBits) (hf : f < 2 ^ c.mbBits)
    (hmb : mb = if f = 0 then 64 else f) (h : p.codeAt cur (windowCode c lz f)) :
    xorGet c p d cur =
      if lz + mb > 64 then .error .malformed
      else p.getBits (cur + (windowCode c lz f).length) mb >>= fun (x, cur) =>
        .ok (x <<< (64 - lz - mb),
          { d with cur := cur, wv := true, lz := BitVec.ofNat 6 lz, tz := BitVec.ofNat 6 (64 - lz - mb) }) := by
  obtain ⟨hlzw, hmbw⟩ := fieldWidths_le hc
  have hlzval := toNat_ofNat_of_lt_pow hlzw hlz
  have hfval := toNat_ofNat_of_lt_pow hmbw hf
  have hzero : BitVec.ofNat 64 f = 0 ↔ f = 0 := by rw [← BitVec.toNat_inj, hfval]; rfl
  rw [windowCode, Payload.codeAt_append, Payload.codeAt_append] at h
  obtain ⟨⟨hcontrol, hlzcode⟩, hfcode⟩ := h
  have hlzget := Payload.getBits_of_codeAt hlzw (by rwa [hlzval]) hlzcode
  have hfget := Payload.getBits_of_codeAt hmbw (by rwa [hfval]) hfcode
  simp only [List.length_append, List.length_cons, List.length_nil, msbBits_length, Nat.zero_add, Nat.add_assoc,
    Nat.reduceAdd] at hlzget hfget
  rw [xorGet_of_control hcontrol, if_pos rfl, newWindowGet]
  simp only [windowCode, List.length_append, List.length_cons, List.length_nil, msbBits_length, Nat.zero_add,
    Nat.add_assoc, Nat.reduceAdd, hlzget, hfget, except_ok_bind, hlzval, hfval, hzero, hmb]

theorem xorGet_of_endsInside_window {lz f : Nat} (h : p.EndsInside cur (windowCode c lz f)) :
    xorGet c p d cur = .error .truncated := by
  rcases h.append with hhead | ⟨hhead, hf⟩
  · rcases hhead.append with hcontrol | ⟨hcontrol, hlz⟩
    · exact xorGet_of_endsInside_control hcontrol
    · have hlzget := Payload.getBits_of_endsInside hlz
      rw [xorGet_of_control hcontrol, if_pos rfl, newWindowGet]
      exact hlzget ▸ rfl
  · obtain ⟨hcontrol, hroom, -⟩ := Payload.codeAt_append.mp hhead
    have hlzget := Payload.getBits_within (msbBits_length _ c.lzBits ▸ hroom)
    have hfget := Payload.getBits_of_endsInside hf
    simp only [List.length_append, List.length_cons, List.length_nil, msbBits_length, Nat.zero_add, Nat.add_assoc,
      Nat.reduceAdd] at hlzget hfget
    rw [xorGet_of_control hcontrol, if_pos rfl, newWindowGet]
    simp only [hlzget, hfget, except_ok_bind, except_error_bind]

/-! ### A value field -/

theorem valueGet_of_xorGet {x : Word} {e : DecCtx} (h : xorGet c p d cur = .ok (x, e)) :
    valueGet c p d cur = .ok { e with pv := e.pv ^^^ x } := by
  rw [valueGet, h, except_ok_bind]

theorem valueGet_of_xorGet_error {e : Status} (h : xorGet c p d cur = .error e) :
    valueGet c p d cur = .error e := by
  rw [valueGet, h, except_error_bind]

/-- What a value field that the stream holds does to the context (45_iterator.md R570). -/
theorem valueGet_of_codeAt (hc : c.wf) {field : List Bool} {e : DecCtx} (h : DecodedValue c d field e)
    (hcode : p.codeAt cur field) : valueGet c p d cur = .ok { e with cur := cur + field.length } := by
  cases h with
  | unchanged =>
    rw [valueGet_of_xorGet (xorGet_unchanged hcode)]
    simp
  | reuse y hwv hy =>
    obtain ⟨hcontrol, hvalue⟩ : p.codeAt cur [true, false] ∧ p.codeAt (cur + 2) _ := Payload.codeAt_append.mp hcode
    have hread := Payload.getBits_of_codeAt (by omega) hy hvalue
    have hxor := xorGet_of_control (c := c) (d := d) hcontrol
    rw [if_neg (by decide), reuseGet_window hwv, hread, except_ok_bind] at hxor
    rw [valueGet_of_xorGet hxor]
    simp
    omega
  | window lz f mb y hlz hf hmb hsum hy =>
    obtain ⟨hwindow, hvalue⟩ : p.codeAt cur (windowCode c lz f) ∧ p.codeAt _ _ := Payload.codeAt_append.mp hcode
    have hread := Payload.getBits_of_codeAt (by omega) hy hvalue
    have hxor := xorGet_of_window (d := d) hc hlz hf hmb hwindow
    rw [if_neg (Nat.not_lt.mpr hsum), hread, except_ok_bind] at hxor
    have hlen : cur + (windowCode c lz f ++ msbBits y mb).length = cur + (windowCode c lz f).length + mb := by
      rw [List.length_append, msbBits_length, Nat.add_assoc]
    exact (valueGet_of_xorGet hxor).trans (hlen ▸ rfl)

/-- A value field that the stream's end cuts is truncated (45_iterator.md R570). -/
theorem valueGet_of_endsInside (hc : c.wf) {field : List Bool} {e : DecCtx} (h : DecodedValue c d field e)
    (hcut : p.EndsInside cur field) : valueGet c p d cur = .error .truncated := by
  apply valueGet_of_xorGet_error
  cases h with
  | unchanged => exact xorGet_truncated hcut.vb_lt
  | reuse y hwv hy =>
    rcases hcut.append with hcontrol | ⟨hcontrol, hvalue⟩
    · exact xorGet_of_endsInside_control hcontrol
    · have hread := Payload.getBits_of_endsInside hvalue
      rw [xorGet_of_control hcontrol, if_neg (by decide), reuseGet_window hwv]
      exact hread ▸ rfl
  | window lz f mb y hlz hf hmb hsum hy =>
    rcases Payload.EndsInside.append (a := windowCode c lz f) hcut with hwindow | ⟨hwindow, hvalue⟩
    · exact xorGet_of_endsInside_window hwindow
    · rw [xorGet_of_window hc hlz hf hmb hwindow, if_neg (Nat.not_lt.mpr hsum), Payload.getBits_of_endsInside hvalue,
        except_error_bind]

/-! ### A sample -/

/-- The difference that a decoded timestamp stands for: the delta for the second sample, the double-delta after
(45_iterator.md R564, R565). -/
def DecCtx.delta (d : DecCtx) (e : Word) : Word := if d.i = 1 then e else d.pd + e

/-- The bits of a sample that a context may stand at, and the context past them (45_iterator.md R561 to R565). -/
inductive SampleCode (c : Config) (d : DecCtx) : List Bool → DecCtx → Prop where
  | first (k : Nat) (m v : Word) : d.i = 0 → k < c.k → m.toNat < 2 ^ c.width k →
      SampleCode c d (varbitCode c k m ++ msbBits v 64)
        { d with
          cur := d.cur + (varbitCode c k m).length + 64
          i := d.i + 1, pt := unzz m, pd := 0, pv := v, wv := false }
  | later (k : Nat) (m : Word) (field : List Bool) (e : DecCtx) : d.i ≠ 0 → k < c.k → m.toNat < 2 ^ c.width k →
      DecodedValue c d field e →
      SampleCode c d (varbitCode c k m ++ field)
        { e with
          cur := d.cur + (varbitCode c k m ++ field).length
          i := d.i + 1, pd := d.delta (unzz m), pt := d.pt + d.delta (unzz m) }

section
variable {m : Word} (hget : varbitGet c p d.cur = .ok (m, cur))
include hget

theorem decodeSample_first (hi : d.i = 0) :
    decodeSample c p d = p.getBits cur 64 >>= fun (v, cur) =>
      .ok { d with cur := cur, i := d.i + 1, pt := unzz m, pd := 0, pv := v, wv := false } := by
  rw [decodeSample, hget, except_ok_bind]
  exact if_pos hi

theorem decodeSample_later (hi : d.i ≠ 0) :
    decodeSample c p d = valueGet c p d cur >>= fun e =>
      .ok { e with i := d.i + 1, pd := d.delta (unzz m), pt := d.pt + d.delta (unzz m) } := by
  rw [decodeSample, hget, except_ok_bind]
  exact if_neg hi

end

theorem decodeSample_of_varbitGet_error {e : Status} (h : varbitGet c p d.cur = .error e) :
    decodeSample c p d = .error e := by
  rw [decodeSample, h, except_error_bind]

/-- A later sample whose value field raises raises that. -/
theorem decodeSample_of_valueGet_error {m : Word} {e : Status} (hget : varbitGet c p d.cur = .ok (m, cur))
    (hi : d.i ≠ 0) (h : valueGet c p d cur = .error e) : decodeSample c p d = .error e := by
  rw [decodeSample_later hget hi, h, except_error_bind]

/-- A sample that stands in the stream decodes (45_iterator.md R561 to R565). -/
theorem SampleCode.decodes (hc : c.wf) {code : List Bool} {d' : DecCtx} (h : SampleCode c d code d')
    (hcode : p.codeAt d.cur code) : decodeSample c p d = .ok d' := by
  cases h with
  | first k m v hi hk hm =>
    obtain ⟨hts, hvalue⟩ := Payload.codeAt_append.mp hcode
    rw [decodeSample_first (varbitGet_of_codeAt hc hk hm hts) hi, Payload.getBits_of_codeAt le_rfl v.isLt hvalue,
      except_ok_bind]
  | later k m field e hi hk hm hfield =>
    obtain ⟨hts, hvalue⟩ := Payload.codeAt_append.mp hcode
    rw [decodeSample_later (varbitGet_of_codeAt hc hk hm hts) hi, valueGet_of_codeAt hc hfield hvalue, except_ok_bind,
      List.length_append, Nat.add_assoc]

/-- A sample that the stream's end cuts is truncated, wherever the cut is (45_iterator.md R561, R570). -/
theorem SampleCode.truncated (hc : c.wf) {code : List Bool} {d' : DecCtx} (h : SampleCode c d code d')
    (hcut : p.EndsInside d.cur code) : decodeSample c p d = .error .truncated := by
  cases h with
  | first k m v hi hk hm =>
    rcases hcut.append with hts | ⟨hts, hvalue⟩
    · exact decodeSample_of_varbitGet_error (varbitGet_of_endsInside hk hts)
    · rw [decodeSample_first (varbitGet_of_codeAt hc hk hm hts) hi, Payload.getBits_of_endsInside hvalue,
        except_error_bind]
  | later k m field e hi hk hm hfield =>
    rcases hcut.append with hts | ⟨hts, hvalue⟩
    · exact decodeSample_of_varbitGet_error (varbitGet_of_endsInside hk hts)
    · exact decodeSample_of_valueGet_error (varbitGet_of_codeAt hc hk hm hts) hi
        (valueGet_of_endsInside hc hfield hvalue)

end

/-! ### The command -/

/-- Settles O50. -/
theorem iterNextReadsFirstSample : Obligations.IterNextReadsFirstSample := by
  intro s j k m v hc hj hopen hmode hi hn hk hm hcode
  have hd := SampleCode.decodes hc (.first k m v hi hk hm) hcode
  rw [hi] at hd
  exact ⟨unzz m, zigzag_toInt_unzz m, exec_iterNext_sample hj hopen hmode (hi ▸ hn.symm) hd⟩

/-- Settles O51. -/
theorem iterNextReadsLaterSample : Obligations.IterNextReadsLaterSample := by
  intro s j k m field d hc hj hopen hmode hi hn hk hm hfield hcode
  have hd := SampleCode.decodes hc (.later k m field d hi hk hm hfield) hcode
  exact ⟨unzz m, _, zigzag_toInt_unzz m, rfl, exec_iterNext_sample hj hopen hmode hn hd⟩

/-- Settles O52: what the value field raises, or the cut sample, is what the command raises. -/
theorem iterNextFailuresCloseContext : Obligations.IterNextFailuresCloseContext := by
  intro s j k m hc hj hopen hmode hn hk hm closed endsInside
  have raises {e : Status} (he : e ≠ .illegalCommand) (h : decodeSample s.cfg s.payload (s.ctx j) = .error e) :
      exec (.iterNext j) s = .next (closed.post e 0 0 false) := exec_iterNext_error hj hopen hmode hn he h
  refine ⟨fun hi hwv hcode => ?_, fun lz f hi hlz hf hwide hcode => ?_, fun v hi hcut => ?_, fun lz f hi hcut => ?_,
    fun field d hi hfield hcut => ?_⟩
  · obtain ⟨hts, hcontrol⟩ := Payload.codeAt_append.mp hcode
    refine raises (by decide) (decodeSample_of_valueGet_error (varbitGet_of_codeAt hc hk hm hts) hi
      (valueGet_of_xorGet_error ?_))
    rw [xorGet_of_control hcontrol, if_neg (by decide), reuseGet_malformed hwv]
  · rw [List.append_assoc, List.append_assoc, Payload.codeAt_append, ← List.append_assoc] at hcode
    obtain ⟨hts, hwindow⟩ := hcode
    refine raises (by decide) (decodeSample_of_valueGet_error (varbitGet_of_codeAt hc hk hm hts) hi
      (valueGet_of_xorGet_error ?_))
    rw [xorGet_of_window hc hlz hf rfl hwindow, if_pos hwide]
  · exact raises (by decide) (SampleCode.truncated hc (.first k m v hi hk hm) hcut)
  · have hcut : s.payload.EndsInside (s.ctx j).cur (varbitCode s.cfg k m ++ windowCode s.cfg lz f) := by
      rwa [windowCode, ← List.append_assoc, ← List.append_assoc]
    refine raises (by decide) ?_
    rcases hcut.append with hts | ⟨hts, hwindow⟩
    · exact decodeSample_of_varbitGet_error (varbitGet_of_endsInside hk hts)
    · exact decodeSample_of_valueGet_error (varbitGet_of_codeAt hc hk hm hts) hi
        (valueGet_of_xorGet_error (xorGet_of_endsInside_window hwindow))
  · exact raises (by decide) (SampleCode.truncated hc (.later k m field d hi hk hm hfield) hcut)

end Sys2Proof.Machine
end

section
/-! More bits appended change no sample that already decodes (45_iterator.md R567, 20_memory.md R232): what reads from a
stream reads the same from a longer one. -/

namespace Sys2Proof.Machine

/-! ### Answers that a second read repeats -/

/-- Whatever `x` answers, `y` answers too. -/
def Repeats {α : Type} (x y : Except Status α) : Prop := ∀ a, x = .ok a → y = .ok a

section
variable {α β : Type}

theorem Repeats.refl (x : Except Status α) : Repeats x x := fun _ h => h

theorem Repeats.bind {x y : Except Status α} {f g : α → Except Status β} (h : Repeats x y)
    (hfg : ∀ a, Repeats (f a) (g a)) : Repeats (x >>= f) (y >>= g) := fun b hb => by
  obtain ⟨a, ha, hfa⟩ := except_bind_eq_ok.mp hb
  rw [h a ha, except_ok_bind]
  exact hfg a b hfa

theorem Repeats.ite {c : Prop} [Decidable c] {x y x' y' : Except Status α} (hx : Repeats x x') (hy : Repeats y y') :
    Repeats (if c then x else y) (if c then x' else y') := by
  split
  · exact hx
  · exact hy

end

/-! ### The longer stream -/

/-- `q` goes on where `p` ends: the same stream bits up to the end of `p`. -/
def Payload.Extends (q p : Payload) : Prop := p.vb ≤ q.vb ∧ ∀ k < p.vb, q.streamBit k = p.streamBit k

/-- Appended bits extend the stream (20_memory.md R202). -/
theorem Payload.append_extends {p : Payload} (h : p.wf) (out : List Bool) : (p.append out).Extends p := by
  induction out generalizing p with
  | nil => exact ⟨le_rfl, fun _ _ => rfl⟩
  | cons b out ih =>
    obtain ⟨hwf, hvb, hbit, -⟩ := Payload.appendBit_spec h b
    obtain ⟨hle, hsame⟩ := ih hwf
    rw [hvb] at hle hsame
    refine ⟨by rw [Payload.append_cons]; omega, fun k hk => ?_⟩
    rw [Payload.append_cons, hsame k (by omega), hbit, if_neg hk.ne]

section
variable {p q : Payload} (h : q.Extends p)
include h

theorem Payload.Extends.readBits {cur n : Nat} (hroom : cur + n ≤ p.vb) (r : Word) :
    q.readBits cur n r = p.readBits cur n r := by
  obtain ⟨-, hsame⟩ := h
  induction n generalizing cur r with
  | zero => rfl
  | succ n ih => rw [Payload.readBits, Payload.readBits, hsame cur (by omega), ih (by omega)]

theorem Payload.Extends.getBits (cur n : Nat) : Repeats (p.getBits cur n) (q.getBits cur n) := by
  rintro ⟨v, cur'⟩ hget
  obtain ⟨rfl, hroom, rfl⟩ := Payload.getBits_ok hget
  have ⟨hle, _⟩ := h
  rw [Payload.getBits_within (hroom.trans hle), h.readBits hroom]

theorem Payload.Extends.varbitBucket (fuel k cur : Nat) :
    Repeats (varbitBucket p fuel k cur) (varbitBucket q fuel k cur) := by
  induction fuel generalizing k cur with
  | zero => exact .refl _
  | succ fuel ih => exact (h.getBits cur 1).bind fun _ => .ite (.refl _) (ih _ _)

theorem Payload.Extends.varbitGet (c : Config) (cur : Nat) : Repeats (varbitGet c p cur) (varbitGet c q cur) :=
  (h.varbitBucket c.esc 0 cur).bind fun _ => h.getBits _ _

theorem Payload.Extends.reuseGet (d : DecCtx) (cur : Nat) : Repeats (reuseGet p d cur) (reuseGet q d cur) :=
  .ite (.refl _) ((h.getBits _ _).bind fun _ => .refl _)

theorem Payload.Extends.newWindowGet (c : Config) (d : DecCtx) (cur : Nat) :
    Repeats (newWindowGet c p d cur) (newWindowGet c q d cur) :=
  (h.getBits _ _).bind fun _ => (h.getBits _ _).bind fun _ =>
    .ite (.refl _) ((h.getBits _ _).bind fun _ => .refl _)

theorem Payload.Extends.xorGet (c : Config) (d : DecCtx) (cur : Nat) :
    Repeats (xorGet c p d cur) (xorGet c q d cur) :=
  (h.getBits _ _).bind fun _ => .ite (.refl _) <|
    (h.getBits _ _).bind fun _ => .ite (h.reuseGet _ _) (h.newWindowGet _ _ _)

theorem Payload.Extends.decodeSample (c : Config) (d : DecCtx) :
    Repeats (decodeSample c p d) (decodeSample c q d) :=
  (h.varbitGet c _).bind fun _ => .ite ((h.getBits _ _).bind fun _ => .refl _) <|
    .bind ((h.xorGet c d _).bind fun _ => .refl _) fun _ => .refl _

end

/-- Settles O53: each read of the decoder repeats over the longer stream. -/
theorem appendsKeepDecodedSamples : Obligations.AppendsKeepDecodedSamples :=
  fun c _ out d d' hwf h => (Payload.append_extends hwf out).decodeSample c d d' h

end Sys2Proof.Machine
end

section
/-! The decompressor follows the compressor (45_iterator.md R572): the bits that `APP_APPEND` writes for a sample are a
sample that a context in step with the compressor reads, and leave the two in step again. -/

namespace Sys2Proof.Machine

/-! ### A context in step with the compressor -/

/-- The context has the compressor's value and window; a window that is not set has no counts to agree on. -/
structure DecCtx.FollowsValue (d : DecCtx) (a : Appender) : Prop where
  pv : d.pv = a.pv
  wv : d.wv = a.wv
  window : a.wv = true → d.lz = a.lz ∧ d.tz = a.tz

/-- The context has read the samples that the compressor has written. -/
structure DecCtx.Follows (d : DecCtx) (a : Appender) : Prop extends d.FollowsValue a where
  i : d.i = a.cnt
  pt : d.pt = a.pt
  pd : d.pd = a.pd

theorem DecCtx.follows_begun (n : Word) : (DecCtx.openIter n).Follows Appender.begun where
  pv := rfl
  wv := rfl
  window := nofun
  i := rfl
  pt := rfl
  pd := rfl

/-! ### The value field -/

section
variable {x : Word} {tz : Nat}

/-- A word shifted down past zeros and up again is itself. -/
theorem shiftLeft_ushiftRight_of_dvd (h : 2 ^ tz ∣ x.toNat) : (x >>> tz) <<< tz = x := by
  apply BitVec.eq_of_toNat_eq
  rw [BitVec.toNat_shiftLeft, BitVec.toNat_ushiftRight, Nat.shiftRight_eq_div_pow, Nat.shiftLeft_eq,
    Nat.div_mul_cancel h, Nat.mod_eq_of_lt x.isLt]

theorem toNat_ushiftRight_lt {w : Nat} (h : x.toNat < 2 ^ (tz + w)) : (x >>> tz).toNat < 2 ^ w := by
  rw [BitVec.toNat_ushiftRight, Nat.shiftRight_eq_div_pow]
  exact Nat.div_lt_of_lt_mul (pow_add 2 tz w ▸ h)

end

theorem xor_xor_cancel (v w : Word) : w ^^^ (v ^^^ w) = v := by
  rw [BitVec.xor_comm v, ← BitVec.xor_assoc, BitVec.xor_self, BitVec.zero_xor]

/-- A window of 64 bits is written as 0 where its field is too narrow, and read back (45_iterator.md R570). -/
theorem windowWidth_field {c : Config} (h : c.wf) {mb : Nat} (hpos : 0 < mb) (hle : mb ≤ 64) :
    mb = if mb % 2 ^ c.mbBits = 0 then 64 else mb % 2 ^ c.mbBits := by
  obtain ⟨-, -, -, -, -, -, -, ⟨hsix, hseven⟩, -⟩ := h
  rcases (show c.mbBits = 6 ∨ c.mbBits = 7 by omega) with e | e
  · rw [e]
    split <;> omega
  · rw [e]
    split <;> omega

/-- The value field that the compressor writes is one that a context in step accepts, and leaves it in step
(44_appender.md R530, 45_iterator.md R570). -/
theorem EncodedValue.decoded {c : Config} (hc : c.wf) {a a' : Appender} {v : Word} {field : List Bool} {d : DecCtx}
    (h : EncodedValue c a v field a') (hd : d.FollowsValue a) :
    ∃ e, DecodedValue c d field e ∧ e.FollowsValue a' := by
  obtain ⟨hpv, hwv, hwindow⟩ := hd
  cases h with
  | unchanged hv => exact ⟨d, .unchanged, hpv.trans hv.symm, hwv, hwindow⟩
  | reuse hne hset hlt hdvd =>
    obtain ⟨hlz, htz⟩ := hwindow hset
    have hle : 2 ^ (64 - a.lz.toNat) ≤ 2 ^ (a.tz.toNat + (64 - a.lz.toNat - a.tz.toNat)) :=
      Nat.pow_le_pow_right (by decide) (by omega)
    have hfield := DecodedValue.reuse (c := c) (d := d) ((v ^^^ a.pv) >>> a.tz.toNat) (hwv.trans hset)
      (by rw [hlz, htz]; exact toNat_ushiftRight_lt (hlt.trans_le hle))
    rw [hlz, htz] at hfield
    refine ⟨_, hfield, ?_, hwv, fun _ => ⟨rfl, rfl⟩⟩
    rw [shiftLeft_ushiftRight_of_dvd hdvd, hpv, xor_xor_cancel]
  | window lz tz lzc hne hcovers hlz hge hlt hdvd hodd hlzc =>
    have htz : tz < 64 - lz := by
      have hpos : 0 < (v ^^^ a.pv).toNat := (Nat.two_pow_pos _).trans_le hge
      exact (Nat.pow_lt_pow_iff_right (by decide)).mp ((Nat.le_of_dvd hpos hdvd).trans_lt hlt)
    have hlzmax : lzc < 2 ^ c.lzBits := by
      have := Nat.two_pow_pos c.lzBits
      unfold Config.lzMax at hlzc
      omega
    have hle : 2 ^ (64 - lz) ≤ 2 ^ (tz + (64 - lzc - tz)) := Nat.pow_le_pow_right (by decide) (by omega)
    have hfield := DecodedValue.window (c := c) (d := d) lzc ((64 - lzc - tz) % 2 ^ c.mbBits) (64 - lzc - tz)
      ((v ^^^ a.pv) >>> tz) hlzmax (Nat.mod_lt _ (Nat.two_pow_pos _)) (windowWidth_field hc (by omega) (by omega))
      (by omega) (toNat_ushiftRight_lt (hlt.trans_le hle))
    have hshift : 64 - lzc - (64 - lzc - tz) = tz := by omega
    rw [hshift] at hfield
    refine ⟨_, hfield, ?_, rfl, fun _ => ⟨rfl, rfl⟩⟩
    rw [shiftLeft_ushiftRight_of_dvd hdvd, hpv, xor_xor_cancel]

/-! ### The sample -/

/-- The compressor after a sample (44_appender.md R523, R526 to R530). -/
def Appender.after (c : Config) (a : Appender) (t v : Word) : Appender :=
  { (encodeSample c a t v).2 with cnt := a.cnt + 1 }

/-- What the timestamp of a later sample is coded as (44_appender.md R527 to R529). -/
def Appender.change (a : Appender) (t : Word) : Word := if a.cnt = 1 then t - a.pt else t - a.pt - a.pd

section
variable {c : Config} {a : Appender}

theorem encodeSample_first (h : a.cnt = 0) (t v : Word) :
    encodeSample c a t v =
      (firstTsBits c t ++ putBits v 64, { a with pt := t, pd := 0, pv := v, wv := false }) := if_pos h

theorem encodeSample_later (h : a.cnt ≠ 0) (t v : Word) :
    encodeSample c a t v =
      (varbitPutSel c (zz (a.change t)) ++ (valuePut c a v).1,
        { (valuePut c a v).2 with pd := t - a.pt, pt := t }) := if_neg h

/-- The bucket of the first timestamp is one of the table, and holds the magnitude (44_appender.md R526). -/
theorem firstBucket_holds (hc : c.wf) (m : Word) :
    firstBucket c m < c.k ∧ m.toNat < 2 ^ c.width (firstBucket c m) := by
  unfold firstBucket
  split
  · obtain ⟨hk, hm, -⟩ := isBucketOf_sel hc m
    exact ⟨hk, hm⟩
  · obtain ⟨-, -, -, ⟨hk, -⟩, -, hlast, -⟩ := hc
    have hwidth : c.width c.esc = 64 := by
      rw [List.getLast?_eq_getElem?] at hlast
      rw [Config.width, List.getD_eq_getElem?_getD, Config.esc, Config.k, hlast, Option.getD_some]
    exact ⟨by unfold Config.esc; omega, by rw [hwidth]; exact m.isLt⟩

theorem DecCtx.Follows.delta_change {d : DecCtx} (h : d.Follows a) (t : Word) : d.delta (a.change t) = t - a.pt := by
  rw [DecCtx.delta, Appender.change, h.i, h.pd]
  split
  · rfl
  · exact add_sub_cancel _ _

/-- The bits that the compressor writes for a sample are one that a context in step may stand at, and past them the
two are in step again. -/
theorem encodeSample_code (hc : c.wf) {d : DecCtx} (hd : d.Follows a) (t v : Word) :
    ∃ d', SampleCode c d (encodeSample c a t v).1 d' ∧ d'.Follows (a.after c t v) := by
  unfold Appender.after
  by_cases hcnt : a.cnt = 0
  · obtain ⟨hk, hm⟩ := firstBucket_holds hc (zz t)
    rw [encodeSample_first hcnt, firstTsBits_eq_put, varbitPut_eq_code hc, putBits_eq_msbBits]
    exact ⟨_, .first _ _ v (hd.i.trans hcnt) hk hm, ⟨rfl, rfl, nofun⟩, congrArg (· + 1) hd.i, unzz_zz t, rfl⟩
  · obtain ⟨hk, hm, -⟩ := isBucketOf_sel hc (zz (a.change t))
    obtain ⟨e, hfield, hvalue, hwv, hwindow⟩ := (valuePut_encodes c a v).decoded hc hd.toFollowsValue
    rw [encodeSample_later hcnt, varbitPutSel_eq_code hc]
    refine ⟨_, .later _ _ _ e (hd.i ▸ hcnt) hk hm hfield, ⟨hvalue, hwv, hwindow⟩, congrArg (· + 1) hd.i, ?_, ?_⟩
    · rw [unzz_zz, hd.delta_change, hd.pt]
      exact add_sub_cancel _ _
    · rw [unzz_zz, hd.delta_change]

theorem valuePut_pv (a : Appender) (v : Word) : (valuePut c a v).2.pv = v := by
  rcases valuePut_cases c a v with e | ⟨lz, tz, -, -, e⟩ <;> rw [e]

/-- The compressor's history after a sample is that sample (44_appender.md R526, R530). -/
theorem Appender.after_sample (a : Appender) (t v : Word) : (a.after c t v).pt = t ∧ (a.after c t v).pv = v := by
  unfold Appender.after
  by_cases hcnt : a.cnt = 0
  · rw [encodeSample_first hcnt]
    exact ⟨rfl, rfl⟩
  · rw [encodeSample_later hcnt]
    exact ⟨rfl, valuePut_pv a v⟩

end

/-! ### The chunk -/

/-- The bits of a run of samples, from the compressor `a` on. -/
def chunkBits (c : Config) : Appender → List (Word × Word) → List Bool
  | _, [] => []
  | a, (t, v) :: xs => (encodeSample c a t v).1 ++ chunkBits c (a.after c t v) xs

theorem Payload.append_append (p : Payload) (a b : List Bool) : p.append (a ++ b) = (p.append a).append b :=
  List.foldl_append

/-- What a run of successful appends from `s` to `t` has done. -/
structure State.Appended (s t : State) (xs : List (Word × Word)) : Prop where
  inv : t.Inv
  cfg : t.cfg = s.cfg
  valid : t.app.valid = true
  payload : t.payload = s.payload.append (chunkBits s.cfg s.app xs)
  cnt : t.app.cnt.toNat = s.app.cnt.toNat + xs.length

/-- An append that succeeds counts its sample and commits its bits (44_appender.md R525). -/
theorem State.appended_one {s u : State} {t v : Word} (hs : s.Inv) (h : exec .appAppend (s.withOperands t v) = .next u)
    (hok : u.st = .ok) : s.Appended u [(t, v)] ∧ u.app = s.app.after s.cfg t v := by
  have hinv : u.Inv := exec_inv (s := s.withOperands t v) hs h
  rcases exec_appAppend_cases h with ⟨e, he, rfl⟩ | ⟨htaken, rfl⟩
  · exact absurd hok he
  · obtain ⟨hvalid, hlimit, -⟩ := State.appendable_ok htaken
    have hcnt : (s.app.cnt + 1).toNat = s.app.cnt.toNat + 1 := by
      obtain ⟨hcfg, -, -, ⟨hle, -⟩, -⟩ := hs
      have := maxSamples_lt hcfg
      have hlimit : s.app.cnt.toNat ≠ s.cfg.maxSamples := hlimit
      bv_omega
    refine ⟨⟨hinv, rfl, (State.counted_valid _).trans hvalid, ?_, hcnt⟩, rfl⟩
    rw [chunkBits, chunkBits, List.append_nil]
    rfl

theorem AppendsAll.appended {s t : State} {xs : List (Word × Word)} (hs : s.Inv) (hvalid : s.app.valid = true)
    (h : AppendsAll s xs t) : s.Appended t xs := by
  induction xs generalizing s with
  | nil =>
    obtain rfl := h
    exact ⟨hs, rfl, hvalid, rfl, rfl⟩
  | cons x xs ih =>
    obtain ⟨u, hu, hok, hrest⟩ := h
    obtain ⟨hone, happ⟩ := State.appended_one hs hu hok
    have hmore := ih hone.inv hone.valid hrest
    refine ⟨hmore.inv, hmore.cfg.trans hone.cfg, hmore.valid, ?_, ?_⟩
    · rw [hmore.payload, hone.payload, happ, hone.cfg, ← Payload.append_append, chunkBits, chunkBits, chunkBits,
        List.append_nil]
    · rw [hmore.cnt, hone.cnt, List.length_singleton, List.length_cons, Nat.add_assoc, Nat.add_comm 1]

/-- A state whose chunk is the one that successful appends of `xs` make. -/
structure State.HoldsChunk (s : State) (xs : List (Word × Word)) : Prop where
  inv : s.Inv
  hlen : s.header.hlen = s.cfg.hdrBytes
  hdr : s.header.hdr.toNat = xs.length
  bits : s.payload.bits = chunkBits s.cfg Appender.begun xs

/-- `APP_INIT` and successful appends make a chunk of their samples (44_appender.md R520, R523, R525). -/
theorem AppendsAll.holdsChunk {s s₁ s₂ : State} {xs : List (Word × Word)} (hs : s.Inv)
    (hinit : exec .appInit s = .next s₁) (h : AppendsAll s₁ xs s₂) : s₂.HoldsChunk xs ∧ s₂.cfg = s.cfg := by
  have hs₁ : s₁.Inv := exec_inv hs hinit
  rw [exec_appInit] at hinit
  cases hinit
  have happended := h.appended hs₁ rfl
  obtain ⟨-, -, -, ⟨-, hown, -⟩, -⟩ := happended.inv
  obtain ⟨hfull, hhdr⟩ := hown happended.valid
  have hbits := Payload.append_bits Payload.empty_wf (chunkBits s.cfg Appender.begun xs)
  refine ⟨⟨happended.inv, hfull, ?_, ?_⟩, happended.cfg⟩
  · rw [hhdr, happended.cnt]
    exact Nat.zero_add _
  · rw [happended.payload, happended.cfg]
    exact hbits

/-! ### The iterator over a chunk -/

/-- Context `j` is an open iterator in step with the compressor `a`, with `n` samples left to return. -/
structure State.Iterating (s : State) (j : BitVec 4) (a : Appender) (n : Nat) : Prop where
  wf : s.cfg.wf
  lt : j.toNat < s.cfg.nDec
  isOpen : (s.ctx j).act = true
  mode : (s.ctx j).mode = .iter
  follows : (s.ctx j).Follows a
  left : (s.ctx j).n.toNat = a.cnt.toNat + n

theorem SampleCode.cur_eq {c : Config} {d d' : DecCtx} {code : List Bool} (h : SampleCode c d code d') :
    d'.cur = d.cur + code.length := by
  cases h with
  | first => simp [Nat.add_assoc]
  | later => rfl

section
variable {s : State} {j : BitVec 4} {a : Appender} {n : Nat}

theorem State.Iterating.not_ended (h : s.Iterating j a (n + 1)) : (s.ctx j).i ≠ (s.ctx j).n := fun e => by
  have hleft := h.left
  rw [← e, h.follows.i] at hleft
  omega

theorem State.Iterating.ended (h : s.Iterating j a 0) : EndsAt j s :=
  exec_iterNext_end h.lt h.isOpen h.mode (h.follows.i.trans (BitVec.eq_of_toNat_eq h.left.symm))

/-- What an `ITER_NEXT` that returns the sample `(t, v)` at the cursor leaves. -/
structure State.Returned (s u : State) (j : BitVec 4) (a : Appender) (n : Nat) (t v : Word) : Prop where
  exec : exec (.iterNext j) s = .next u
  st : u.st = .ok
  endFlag : u.endFlag = false
  res0 : u.res0 = t
  res1 : u.res1 = v
  cfg : u.cfg = s.cfg
  payload : u.payload = s.payload
  iterating : u.Iterating j (a.after s.cfg t v) n
  cur : (u.ctx j).cur = (s.ctx j).cur + (encodeSample s.cfg a t v).1.length

/-- An iterator in step returns the sample that stands at its cursor, and is in step past it. -/
theorem State.Iterating.returned (h : s.Iterating j a (n + 1)) {t v : Word}
    (hcode : s.payload.codeAt (s.ctx j).cur (encodeSample s.cfg a t v).1) : ∃ u, s.Returned u j a n t v := by
  obtain ⟨d, hsample, hd⟩ := encodeSample_code h.wf h.follows t v
  obtain ⟨ht, hv⟩ := a.after_sample (c := s.cfg) t v
  have hdecode := hsample.decodes h.wf hcode
  have ⟨hroom, _⟩ := hcode
  obtain ⟨hact, hmode, hn, -⟩ := decodeSample_ok (by omega) hdecode
  have hctx : (s.setCtx j d).ctx j = d := State.ctx_setCtx_self (State.lt_of_open h.isOpen) d
  have hleft : d.n.toNat = (a.cnt + 1).toNat + n := by
    have hleft := h.left
    have := (s.ctx j).n.isLt
    rw [hn]
    bv_omega
  exact ⟨(s.setCtx j d).post .ok d.pt d.pv false,
    exec_iterNext_sample h.lt h.isOpen h.mode h.not_ended hdecode, rfl, rfl, hd.pt.trans ht, hd.pv.trans hv, rfl, rfl,
    ⟨h.wf, h.lt, (congrArg DecCtx.act hctx).trans (hact.trans h.isOpen),
      (congrArg DecCtx.mode hctx).trans (hmode.trans h.mode), hctx.symm ▸ hd, hctx.symm ▸ hleft⟩,
    (congrArg DecCtx.cur hctx).trans hsample.cur_eq⟩

/-- An iterator in step raises `Truncated` on a sample that the stream's end cuts. -/
theorem State.Iterating.truncated (h : s.Iterating j a (n + 1)) {t v : Word}
    (hcut : s.payload.EndsInside (s.ctx j).cur (encodeSample s.cfg a t v).1) :
    exec (.iterNext j) s = .next ((s.closeCtx j).post .truncated 0 0 false) := by
  obtain ⟨d, hsample, -⟩ := encodeSample_code h.wf h.follows t v
  exact exec_iterNext_error h.lt h.isOpen h.mode h.not_ended (by decide) (hsample.truncated h.wf hcut)

end

/-- Over a stream that holds the bits of `xs`, an iterator in step returns `xs` and then ends. -/
theorem State.Iterating.yieldsAll {s : State} {j : BitVec 4} {a : Appender} {xs : List (Word × Word)}
    (h : s.Iterating j a xs.length) (hcode : s.payload.codeAt (s.ctx j).cur (chunkBits s.cfg a xs)) :
    ∃ t, YieldsAll j s xs t ∧ EndsAt j t := by
  induction xs generalizing s a with
  | nil => exact ⟨s, rfl, h.ended⟩
  | cons x xs ih =>
    obtain ⟨hfirst, hrest⟩ := Payload.codeAt_append.mp hcode
    obtain ⟨u, hu⟩ := h.returned hfirst
    obtain ⟨t, hyields, hends⟩ := ih hu.iterating (by rw [hu.payload, hu.cur, hu.cfg]; exact hrest)
    exact ⟨t, ⟨u, hu.exec, hu.st, hu.endFlag, hu.res0, hu.res1, hyields⟩, hends⟩

/-- `ITER_INIT` over a complete header opens an iterator in step with a compressor that has begun
(45_iterator.md R560). -/
theorem State.iterating_of_iterInit {s : State} (hs : s.Inv) {j : BitVec 4} (hj : j.toNat < s.cfg.nDec)
    (hfull : s.cfg.hdrBytes ≤ s.header.hlen) :
    ∃ u, exec (.iterInit j) s = .next u ∧ u.st = .ok ∧ u.res0 = s.header.hdr ∧ u.cfg = s.cfg ∧
      u.payload = s.payload ∧ (u.ctx j).cur = 0 ∧ u.Iterating j Appender.begun s.header.hdr.toNat := by
  have ⟨hc, _, _, _, hlen, _⟩ := hs
  have hctx : (s.setCtx j (DecCtx.openIter s.header.hdr)).ctx j = DecCtx.openIter s.header.hdr :=
    State.ctx_setCtx_self (hlen ▸ hj) _
  refine ⟨_, exec_iterInit_of_complete hj hfull, rfl, rfl, rfl, rfl, congrArg DecCtx.cur hctx, hc, hj,
    congrArg DecCtx.act hctx, congrArg DecCtx.mode hctx, hctx.symm ▸ DecCtx.follows_begun _, ?_⟩
  exact (congrArg (fun d : DecCtx => d.n.toNat) hctx).trans (Nat.zero_add _).symm

/-- A chunk iterates to its samples (45_iterator.md R572). -/
theorem State.HoldsChunk.iteratesTo {s : State} {xs : List (Word × Word)} (h : s.HoldsChunk xs) {j : BitVec 4}
    (hj : j.toNat < s.cfg.nDec) : IteratesTo s j xs := by
  obtain ⟨u, hu, hst, hres, hcfg, hpay, hcur, hiter⟩ := State.iterating_of_iterInit h.inv hj h.hlen.ge
  have hcode : u.payload.codeAt (u.ctx j).cur (chunkBits u.cfg Appender.begun xs) := by
    rw [hpay, hcur, hcfg, ← h.bits]
    exact s.payload.codeAt_bits
  obtain ⟨t, hyields, hends⟩ := State.Iterating.yieldsAll (h.hdr ▸ hiter) hcode
  exact ⟨u, t, hu, hst, hres ▸ h.hdr, hyields, hends⟩

/-- Settles O57: the appends make a chunk of their samples, and a chunk iterates to its samples. -/
theorem chunkRoundTrip : Obligations.ChunkRoundTrip := by
  intro s s₁ s₂ j xs hs hj hinit happends
  obtain ⟨hchunk, hcfg⟩ := happends.holdsChunk hs hinit
  exact hchunk.iteratesTo (hcfg ▸ hj)

end Sys2Proof.Machine
end

section
/-! A chunk image loaded byte by byte (20_memory.md R210, 46_chunk_image.md R600), and the iterator over a chunk whose
image lost its last bytes (45_iterator.md R573). -/

namespace Sys2Proof.Machine

/-! ### Bytes of the stream -/

/-- A store in its form has just the bytes that its bits need (10_state.md R110). -/
theorem Payload.wlen_eq {p : Payload} (h : p.wf) : p.wlen = (p.vb + 7) / 8 := by
  obtain ⟨-, hzero, hfill, -⟩ := h
  unfold Payload.vb
  split <;> omega

/-- Bit `k` of byte `a` is a stream bit, the most significant first (10_state.md R111). -/
theorem Payload.streamBit_of_byte (p : Payload) (a : Nat) {k : Nat} (hk : k < 8) :
    p.streamBit (8 * a + k) = (p.byte a).getLsbD (7 - k) := by
  rw [Payload.streamBit, Payload.byte, show (8 * a + k) / 8 = a by omega, show (8 * a + k) % 8 = k by omega]

/-- The commit of one byte (46_chunk_image.md R600). -/
def Payload.appendByte (p : Payload) (b : Byte) : Payload := p.append (putBits (b.setWidth 64) 8)

section
variable {p : Payload} (hwf : p.wf) (hvb : p.vb = 8 * p.wlen) (b : Byte)
include hwf hvb

/-- Eight bits after whole bytes make one byte more. -/
theorem Payload.appendByte_length :
    (p.appendByte b).wlen = p.wlen + 1 ∧ (p.appendByte b).vb = 8 * (p.wlen + 1) := by
  obtain ⟨hwf', hvb'⟩ := Payload.append_wf hwf (putBits (b.setWidth 64) 8)
  have hlen : (p.appendByte b).wlen = ((p.appendByte b).vb + 7) / 8 := Payload.wlen_eq hwf'
  have hadd : (p.appendByte b).vb = p.vb + 8 := hvb'
  omega

/-- Eight bits after whole bytes are the next byte (20_memory.md R202). -/
theorem Payload.appendByte_last : (p.appendByte b).byte p.wlen = b := by
  have hcode : (p.appendByte b).codeAt p.vb (putBits (b.setWidth 64) 8) := Payload.codeAt_append_vb hwf _
  obtain ⟨-, hbits⟩ := hcode
  rw [putBits_length, putBits_eq_msbBits, msbBits, List.map_inj_left] at hbits
  apply BitVec.eq_of_getLsbD_eq
  intro i hi
  have hbit := hbits (7 - i) (List.mem_range.mpr (by omega))
  rw [hvb, Payload.streamBit_of_byte _ _ (by omega), show 7 - (7 - i) = i by omega, BitVec.getLsbD_setWidth] at hbit
  rw [← hbit, decide_eq_true (show i < 64 by omega), Bool.true_and]

/-- The bytes listed after a byte is committed are those before and that byte. -/
theorem Payload.appendByte_bytes :
    (List.range (p.appendByte b).wlen).map (p.appendByte b).byte = (List.range p.wlen).map p.byte ++ [b] := by
  obtain ⟨hlen, -⟩ := Payload.appendByte_length hwf hvb b
  have hold : ∀ k ∈ List.range p.wlen, (p.appendByte b).byte k = p.byte k := fun k hk =>
    Payload.append_read hwf _ (.inl (by have := List.mem_range.mp hk; omega))
  rw [hlen, List.range_succ, List.map_append, List.map_singleton, Payload.appendByte_last hwf hvb,
    List.map_congr_left hold]

end

/-! ### A byte loaded -/

/-- The payload is whole bytes and the header is complete under any of them, as `CH_LOADB` leaves a chunk
(46_chunk_image.md R600). -/
structure State.WholeBytes (s : State) : Prop where
  inv : s.Inv
  vb : s.payload.vb = 8 * s.payload.wlen
  header : s.payload.wlen ≠ 0 → s.header.hlen = s.cfg.hdrBytes

/-- `u` holds the image of `s` with the bytes `bs` after it. -/
structure State.Loaded (s u : State) (bs : List Byte) : Prop where
  wholeBytes : u.WholeBytes
  cfg : u.cfg = s.cfg
  image : u.image = s.image ++ bs

theorem exec_chLoadb_header {s : State} (h : s.payload.wlen = 0 ∧ s.header.hlen < s.cfg.hdrBytes) :
    exec .chLoadb s = s.run none (written s.headerLoaded []) :=
  congrArg (s.run none) (if_pos h)

theorem exec_chLoadb_payload {s : State} (h : ¬(s.payload.wlen = 0 ∧ s.header.hlen < s.cfg.hdrBytes)) :
    exec .chLoadb s = s.run none (written s.disowned (putBits (s.operandByte.setWidth 64) 8)) :=
  congrArg (s.run none) (if_neg h)

theorem State.operandByte_withOperands (s : State) (b : Byte) (v : Word) :
    (s.withOperands (b.setWidth 64) v).operandByte = b := by
  apply BitVec.eq_of_getLsbD_eq
  intro i hi
  simp [State.operandByte, State.withOperands, hi, show i < 64 by omega]

/-- The header bytes listed after one is set behind them are those before and that byte. -/
theorem setHeaderByte_bytes {c : Config} (hc : c.hdrBytes ≤ 8) (hdr : Word) {h : Nat} (hh : h < c.hdrBytes) (b : Byte) :
    (List.range (h + 1)).map (headerByte c (setHeaderByte c hdr h b)) =
      (List.range h).map (headerByte c hdr) ++ [b] := by
  have hbyte (k : Nat) (hk : k ≤ h) := headerByte_setHeaderByte hc hdr b hh (hk.trans_lt hh)
  have hold : ∀ k ∈ List.range h, headerByte c (setHeaderByte c hdr h b) k = headerByte c hdr k := fun k hk => by
    have hlt := List.mem_range.mp hk
    rw [hbyte k hlt.le, if_neg hlt.ne]
  rw [List.range_succ, List.map_append, List.map_singleton, hbyte h le_rfl, if_pos rfl, List.map_congr_left hold]

section
variable {s u : State} {b : Byte} (hs : s.WholeBytes)
  (hload : exec .chLoadb (s.withOperands (b.setWidth 64) 0) = .next u) (hok : u.st = .ok)
include hs hload hok

theorem State.WholeBytes.loaded_header (h : s.payload.wlen = 0 ∧ s.header.hlen < s.cfg.hdrBytes) :
    s.Loaded u [b] := by
  have hinv : u.Inv := exec_inv (s := s.withOperands (b.setWidth 64) 0) hs.inv hload
  rw [exec_chLoadb_header (s := s.withOperands (b.setWidth 64) 0) h] at hload
  obtain rfl := State.run_written_ok hload hok
  obtain ⟨hwlen, hlt⟩ := h
  refine ⟨⟨hinv, hs.vb, fun hne => absurd hwlen hne⟩, rfl, ?_⟩
  obtain ⟨⟨⟨-, hle⟩, -⟩, -⟩ := hs.inv
  have himage : (List.range (s.header.hlen + 1)).map (headerByte s.cfg (setHeaderByte s.cfg s.header.hdr s.header.hlen
      (s.withOperands (b.setWidth 64) 0).operandByte)) ++ (List.range s.payload.wlen).map s.payload.byte =
      s.image ++ [b] := by
    rw [State.operandByte_withOperands, setHeaderByte_bytes hle _ hlt, State.image, hwlen]
    simp
  exact himage

theorem State.WholeBytes.loaded_payload (h : ¬(s.payload.wlen = 0 ∧ s.header.hlen < s.cfg.hdrBytes)) :
    s.Loaded u [b] := by
  have hinv : u.Inv := exec_inv (s := s.withOperands (b.setWidth 64) 0) hs.inv hload
  rw [exec_chLoadb_payload (s := s.withOperands (b.setWidth 64) 0) h, State.operandByte_withOperands] at hload
  obtain rfl := State.run_written_ok hload hok
  have ⟨_, ⟨hwf, _⟩, ⟨hle, _⟩, _⟩ := hs.inv
  obtain ⟨hlen, hvb⟩ := Payload.appendByte_length hwf hs.vb b
  refine ⟨⟨hinv, hvb.trans (by rw [← hlen]; rfl), fun _ => ?_⟩, rfl, ?_⟩
  · show s.header.hlen = s.cfg.hdrBytes
    have := hs.header
    omega
  · have himage := Payload.appendByte_bytes hwf hs.vb b
    rw [State.image, State.image, List.append_assoc, ← himage]
    rfl

/-- A byte loaded is the next one of the image (46_chunk_image.md R600). -/
theorem State.WholeBytes.loaded : s.Loaded u [b] := by
  by_cases h : s.payload.wlen = 0 ∧ s.header.hlen < s.cfg.hdrBytes
  · exact hs.loaded_header hload hok h
  · exact hs.loaded_payload hload hok h

end

/-- Bytes loaded are the next ones of the image. -/
theorem LoadsAll.loaded {s t : State} {bs : List Byte} (hs : s.WholeBytes) (h : LoadsAll s bs t) :
    s.Loaded t bs := by
  induction bs generalizing s with
  | nil =>
    obtain rfl := h
    exact ⟨hs, rfl, (List.append_nil _).symm⟩
  | cons b bs ih =>
    obtain ⟨u, hu, hok, hrest⟩ := h
    have hone := hs.loaded hu hok
    have hmore := ih hone.wholeBytes hrest
    refine ⟨hmore.wholeBytes, hmore.cfg.trans hone.cfg, ?_⟩
    rw [hmore.image, hone.image, List.append_assoc, List.singleton_append]

/-- After `CLEAR` the image is the bytes loaded. -/
theorem LoadsAll.image_after_clear {s t u : State} {bs : List Byte} (hs : s.Inv) (hclear : exec .clear s = .next t)
    (h : LoadsAll t bs u) : u.WholeBytes ∧ u.cfg = s.cfg ∧ u.image = bs := by
  have ht : t.Inv := exec_inv hs hclear
  rw [exec_clear] at hclear
  cases hclear
  obtain ⟨hwhole, hcfg, himage⟩ := h.loaded ⟨ht, rfl, fun hne => absurd rfl hne⟩
  exact ⟨hwhole, hcfg, himage⟩

/-! ### Images compared -/

/-- The bytes of a header are all of it (20_memory.md R211). -/
theorem hdr_eq_of_headerBytes {c : Config} {h h' : Word} (hle : h.toNat ≤ c.hdrMax) (hle' : h'.toNat ≤ c.hdrMax)
    (hbytes : ∀ k < c.hdrBytes, headerByte c h k = headerByte c h' k) : h = h' := by
  rw [toNat_le_hdrMax_iff] at hle hle'
  apply BitVec.eq_of_getLsbD_eq
  intro q _
  by_cases hq : q < 8 * c.hdrBytes
  · obtain ⟨k, hk, hbit⟩ : ∃ k < c.hdrBytes, headerBit c k = 8 * (q / 8) := by
      unfold headerBit
      cases c.hdrOrder with
      | le => exact ⟨q / 8, by omega, rfl⟩
      | be => exact ⟨c.hdrBytes - 1 - q / 8, by omega, by dsimp only; omega⟩
    have hsame := congrArg (·.getLsbD (q % 8)) (hbytes k hk)
    simpa only [headerByte, BitVec.getLsbD_extractLsb', hbit, Nat.mod_lt _ (show 8 > 0 by decide), decide_true,
      Bool.true_and, Nat.div_add_mod] using hsame
  · rw [hle q (by omega), hle' q (by omega)]

/-- An image cut short in its payload: the count is whole, and the stream is the start of the other's, some bits
shorter (45_iterator.md R573). -/
theorem State.WholeBytes.of_cut_image {s u : State} (hu : u.WholeBytes) (hs : s.Inv) (hcfg : u.cfg = s.cfg)
    (hfull : s.header.hlen = s.cfg.hdrBytes) (hufull : u.header.hlen = u.cfg.hdrBytes) {n : Nat}
    (hn : n < s.image.length) (himage : u.image = s.image.take n) :
    u.header.hdr = s.header.hdr ∧ s.payload.Extends u.payload ∧ u.payload.vb < s.payload.vb := by
  have ⟨_, ⟨hwf, _⟩, ⟨_, hmax, _⟩, _⟩ := hs
  have ⟨_, _, ⟨_, humax, _⟩, _⟩ := hu.inv
  have hhlen : u.header.hlen = s.header.hlen := by rw [hufull, hfull, hcfg]
  have hlen := congrArg List.length himage
  rw [List.length_take, Nat.min_eq_left hn.le, State.image_length] at hlen
  rw [State.image_length] at hn
  have hbyte (k : Nat) (hk : k < n) : u.image[k]? = s.image[k]? := by rw [himage, List.getElem?_take_of_lt hk]
  have hwlen := Payload.wlen_eq hwf
  have huvb := hu.vb
  refine ⟨hdr_eq_of_headerBytes (c := s.cfg) (hcfg ▸ humax) hmax fun k hk => ?_, ⟨by omega, fun q hq => ?_⟩,
    by omega⟩
  · have hsame := hbyte k (by omega)
    rw [State.image_header _ (by omega), State.image_header _ (by omega), hcfg] at hsame
    exact Option.some.inj hsame
  · have hsame := hbyte (u.header.hlen + q / 8) (by omega)
    rw [State.image_payload _ (by omega), hhlen, State.image_payload _ (by omega)] at hsame
    rw [Payload.streamBit, Payload.streamBit]
    exact congrArg (fun b : Byte => b.getLsbD (7 - q % 8)) (Option.some.inj hsame).symm

/-- A stream that stops short of another ends inside the other's bits. -/
theorem Payload.Extends.endsInside {p q : Payload} (h : q.Extends p) (hlt : p.vb < q.vb) : p.EndsInside 0 q.bits := by
  obtain ⟨-, hsame⟩ := h
  have htake : q.bits.take p.vb = p.bits := by
    rw [Payload.bits, ← List.map_take, List.take_range, Nat.min_eq_left hlt.le]
    exact List.map_congr_left fun k hk => hsame k (List.mem_range.mp hk)
  exact ⟨p.vb, by simpa [Payload.bits] using hlt, Nat.zero_add _, htake ▸ p.codeAt_bits⟩

/-! ### The iterator over a cut chunk -/

/-- Over a stream that ends inside the bits of `xs`, an iterator in step returns the samples before the cut one and
then raises `Truncated` (45_iterator.md R573). -/
theorem State.Iterating.truncates {s : State} {j : BitVec 4} {a : Appender} {xs : List (Word × Word)}
    (h : s.Iterating j a xs.length) (hcut : s.payload.EndsInside (s.ctx j).cur (chunkBits s.cfg a xs)) :
    ∃ (ys zs : List (Word × Word)) (t u : State), xs = ys ++ zs ∧ zs ≠ [] ∧ YieldsAll j s ys t ∧
      exec (.iterNext j) t = .next u ∧ u.st = .truncated := by
  induction xs generalizing s a with
  | nil =>
    obtain ⟨n, hn, -⟩ := hcut
    exact absurd hn (Nat.not_lt_zero n)
  | cons x xs ih =>
    rcases hcut.append with hfirst | ⟨hfirst, hrest⟩
    · exact ⟨[], x :: xs, s, _, rfl, List.cons_ne_nil _ _, rfl, h.truncated hfirst, rfl⟩
    · obtain ⟨u, hu⟩ := h.returned hfirst
      obtain ⟨ys, zs, t, w, rfl, hzs, hyields, hw, hst⟩ :=
        ih hu.iterating (by rw [hu.payload, hu.cur, hu.cfg]; exact hrest)
      exact ⟨x :: ys, zs, t, w, rfl, hzs, ⟨u, hu.exec, hu.st, hu.endFlag, hu.res0, hu.res1, hyields⟩, hw, hst⟩

/-- Settles O59: a cut in the header is found by `ITER_INIT`, a cut in the payload by the iterator at the sample
it is in. -/
theorem truncatedImageNeverMisleads : Obligations.TruncatedImageNeverMisleads := by
  intro s s₁ s₂ s₃ s₄ s₅ j xs cut hs hj hinit happends hclear hpos hle hloads hiter
  obtain ⟨hchunk, hcfg₂⟩ := happends.holdsChunk hs hinit
  obtain ⟨hwhole, hcfg₄, himage⟩ := hloads.image_after_clear hchunk.inv hclear
  have hj₄ : j.toNat < s₄.cfg.nDec := by rwa [hcfg₄, hcfg₂]
  by_cases hcomplete : s₄.header.hlen < s₄.cfg.hdrBytes
  · rw [exec_iterInit_of_incomplete hj₄ hcomplete] at hiter
    cases hiter
    exact .inl rfl
  · have hfull : s₄.header.hlen = s₄.cfg.hdrBytes := by
      obtain ⟨-, -, ⟨hmost, -⟩, -⟩ := hwhole.inv
      omega
    obtain ⟨hhdr, hextends, hshort⟩ :=
      hwhole.of_cut_image hchunk.inv hcfg₄ hchunk.hlen hfull (by omega) himage
    obtain ⟨u, hu, hst, -, hcfg, hpay, hcur, hiterating⟩ := State.iterating_of_iterInit hwhole.inv hj₄ hfull.ge
    cases hiter.symm.trans hu
    rw [hhdr, hchunk.hdr] at hiterating
    refine .inr ⟨hst, hiterating.truncates ?_⟩
    rw [hpay, hcur, hcfg, hcfg₄, ← hchunk.bits]
    exact hextends.endsInside hshort

end Sys2Proof.Machine
end

section
/-! `CH_LOADB` byte by byte (46_chunk_image.md R600), and a whole chunk image loaded again: its stream may end in the
padding of the last byte, which the iterator never reaches (46_chunk_image.md R603). -/

namespace Sys2Proof.Machine

/-! ### One byte -/

/-- A header byte appends no bit, and the payload stays empty: both results are 0 (46_chunk_image.md R600). -/
theorem exec_chLoadb_headerLoaded {s : State} (h : s.payload.wlen = 0 ∧ s.header.hlen < s.cfg.hdrBytes) :
    exec .chLoadb s = .next (s.headerLoaded.post .ok 0 0 false) := by
  have ⟨hempty, _⟩ := h
  have hvb : BitVec.ofNat 64 s.payload.vb = 0 := congrArg (BitVec.ofNat 64) (if_pos hempty)
  have hrun : exec .chLoadb s = .next (s.headerLoaded.post .ok 0 (BitVec.ofNat 64 s.payload.vb) false) :=
    exec_chLoadb_header h
  rw [hrun, hvb]

/-- The low eight bits of the operand are its low byte. -/
theorem State.operandByte_bits (s : State) : putBits (s.operandByte.setWidth 64) 8 = msbBits s.latA 8 := by
  rw [State.operandByte, putBits_byte, BitVec.ushiftRight_zero, putBits_eq_msbBits]

/-- Settles O54: a header byte is set and the others kept, and any other byte is an append of its eight bits. -/
theorem loadFillsHeaderThenPayload : Obligations.LoadFillsHeaderThenPayload := by
  refine ⟨rfl, fun s hc hstore => ⟨fun h => ?_, fun h => ?_⟩⟩
  · obtain ⟨⟨-, hbytes⟩, -⟩ := hc
    have ⟨_, hlt⟩ := h
    have hset (k : Nat) (hk : k < s.cfg.hdrBytes) :=
      headerByte_setHeaderByte hbytes s.header.hdr s.operandByte hlt hk
    refine ⟨s.headerLoaded.header, exec_chLoadb_headerLoaded h, rfl, ?_, fun k hk hne => ?_⟩
    · exact (hset _ hlt).trans ((if_pos rfl).trans (BitVec.setWidth_eq_extractLsb' (by decide)).symm)
    · exact (hset k hk).trans (if_neg hne)
  · rw [exec_chLoadb_payload h, State.operandByte_bits]
    exact State.appends_written (p := s.disowned) hstore rfl rfl _

/-! ### Equal images -/

/-- Images equal under headers of one length agree byte by byte (20_memory.md R210). -/
theorem State.bytes_eq_of_image {s u : State} (hhlen : u.header.hlen = s.header.hlen) (himage : u.image = s.image) :
    (∀ k < s.header.hlen, headerByte u.cfg u.header.hdr k = headerByte s.cfg s.header.hdr k) ∧
      u.payload.wlen = s.payload.wlen ∧ ∀ k < s.payload.wlen, u.payload.byte k = s.payload.byte k := by
  obtain ⟨hheader, hpayload⟩ := List.append_inj himage (by simp [hhlen])
  have hwlen : u.payload.wlen = s.payload.wlen := by simpa using congrArg List.length hpayload
  rw [hhlen] at hheader
  rw [hwlen] at hpayload
  exact ⟨fun k hk => List.map_inj_left.mp hheader k (List.mem_range.mpr hk), hwlen,
    fun k hk => List.map_inj_left.mp hpayload k (List.mem_range.mpr hk)⟩

/-- An image with a whole header in it was loaded with its header whole: `CH_LOADB` puts no byte into the payload before
(46_chunk_image.md R600). -/
theorem State.WholeBytes.header_complete {u : State} (hu : u.WholeBytes) (hlen : u.cfg.hdrBytes ≤ u.image.length) :
    u.header.hlen = u.cfg.hdrBytes := by
  obtain ⟨-, -, ⟨hmost, -⟩, -⟩ := hu.inv
  have hfull := hu.header
  rw [State.image_length] at hlen
  omega

/-- A chunk loaded from an image has the image's header, and its stream goes on where the image's ends
(46_chunk_image.md R603). -/
theorem State.WholeBytes.of_image {s u : State} (hu : u.WholeBytes) (hs : s.Inv) (hcfg : u.cfg = s.cfg)
    (hfull : s.header.hlen = s.cfg.hdrBytes) (himage : u.image = s.image) :
    u.header = s.header ∧ u.payload.Extends s.payload := by
  have hhlen : u.header.hlen = s.header.hlen := by
    rw [hu.header_complete (by rw [himage, State.image_length, hfull, hcfg]; omega), hcfg, hfull]
  obtain ⟨hheader, hwlen, hpayload⟩ := State.bytes_eq_of_image hhlen himage
  have ⟨_, ⟨hwf, _⟩, ⟨_, hmax, _⟩, _⟩ := hs
  have ⟨_, _, ⟨_, humax, _⟩, _⟩ := hu.inv
  rw [hcfg] at humax hheader
  have hhdr : u.header.hdr = s.header.hdr :=
    hdr_eq_of_headerBytes humax hmax fun k hk => hheader k (by omega)
  have hbytes := Payload.wlen_eq hwf
  have huvb := hu.vb
  refine ⟨?_, by omega, fun q hq => ?_⟩
  · show Header.mk u.header.hdr u.header.hlen = s.header
    rw [hhdr, hhlen]
  · exact congrArg (·.getLsbD (7 - q % 8)) (hpayload (q / 8) (by omega))

/-! ### The iterator over a loaded chunk -/

/-- A code that stands in a stream stands in every longer one. -/
theorem Payload.Extends.codeAt {p q : Payload} (h : q.Extends p) {cur : Nat} {code : List Bool}
    (hcode : p.codeAt cur code) : q.codeAt cur code := by
  obtain ⟨hle, hsame⟩ := h
  obtain ⟨hroom, hbits⟩ := hcode
  refine ⟨hroom.trans hle, hbits.trans (List.map_congr_left fun k hk => ?_)⟩
  have := List.mem_range.mp hk
  rw [hsame _ (by omega)]

/-- A complete header that counts `xs` over a stream that begins with their bits iterates to `xs`, whatever bits
follow. -/
theorem State.iteratesTo_of_codeAt {s : State} (hs : s.Inv) {j : BitVec 4} (hj : j.toNat < s.cfg.nDec)
    {xs : List (Word × Word)} (hfull : s.header.hlen = s.cfg.hdrBytes) (hcount : s.header.hdr.toNat = xs.length)
    (hcode : s.payload.codeAt 0 (chunkBits s.cfg Appender.begun xs)) : IteratesTo s j xs := by
  obtain ⟨u, hu, hst, hres, hcfg, hpay, hcur, hiter⟩ := State.iterating_of_iterInit hs hj hfull.ge
  rw [← hpay, ← hcur, ← hcfg] at hcode
  obtain ⟨t, hyields, hends⟩ := State.Iterating.yieldsAll (hcount ▸ hiter) hcode
  exact ⟨u, t, hu, hst, hres ▸ hcount, hyields, hends⟩

/-- Settles O58: the loaded chunk has the image's header and a stream that begins with the bits of the samples. -/
theorem reloadedImageIterates : Obligations.ReloadedImageIterates := by
  intro s s₁ s₂ s₃ s₄ j xs hs hj hinit happends hclear hloads
  obtain ⟨hchunk, hcfg₂⟩ := happends.holdsChunk hs hinit
  obtain ⟨hwhole, hcfg₄, himage⟩ := hloads.image_after_clear hchunk.inv hclear
  obtain ⟨hheader, hextends⟩ := hwhole.of_image hchunk.inv hcfg₄ hchunk.hlen himage
  refine ⟨himage, State.iteratesTo_of_codeAt hwhole.inv (by rwa [hcfg₄, hcfg₂]) ?_ ?_ ?_⟩
  · rw [hheader, hchunk.hlen, hcfg₄]
  · rw [hheader, hchunk.hdr]
  · rw [hcfg₄, ← hchunk.bits]
    exact hextends.codeAt s₂.payload.codeAt_bits

end Sys2Proof.Machine
end

section
/-! Errors and reset (60_exceptions.md R710 to R712, 70_reset_and_hazards.md R800, R801): what a raised error rolls
back, what asserted reset masks, and the state that a reset pulse and `CLEAR` leave. -/

namespace Sys2Proof.Machine

/-! ### Errors -/

/-- Settles O22: a completion that does not post `Ok` is a roll-back, and that closes the context of an iterator command
alone. -/
theorem errorsRollBack : Obligations.ErrorsRollBack := by
  intro i s t h herr
  obtain ⟨r, hr, -⟩ := exec_eq_run i s
  rw [hr] at h
  cases h
  rcases s.complete_cases (errorCloses i) r with ⟨e, -, hraise⟩ | ⟨d, -, -, hcommit⟩
  · rw [hraise]
    cases i with
    | iterInit j | iterNext j => exact s.raise_some j e
    | _ => exact s.raise_none e
  · exact absurd (congrArg State.st hcommit) herr

/-! ### Reset asserted -/

theorem State.writeReg_inReset {s : State} (h : s.inReset = true) (index : BitVec 4) (v : Word) :
    s.writeReg index v = s := if_pos h

theorem State.readReg_inReset {s : State} (h : s.inReset = true) (index : BitVec 4) : s.readReg index = 0 := if_pos h

/-- Waiting while no command runs takes the wait off the host's list and does nothing else (notes/assumptions/1.md). -/
theorem step_await_idle {s : State} {rest : List HostEvent} (hwf : s.cfg.wf) (hhost : s.host = .await :: rest)
    (hidle : (s.busy && !s.inReset) = false) : step s = .next { s with host := rest } := by
  simp [step, hwf, State.advance, hhost, hidle]

/-- Settles O13, by the host's event: a write, a read, or a wait. -/
theorem assertedResetMasksHost : Obligations.AssertedResetMasksHost := by
  intro s index v rest hwf hreset
  refine ⟨fun hhost => ?_, fun hhost => ?_, fun hhost => ?_⟩
  · rw [step_hostEvent hwf hhost nofun, State.hostAct, State.writeReg_inReset (s := { s with host := rest }) hreset]
  · rw [step_hostEvent hwf hhost nofun, State.hostAct, State.readReg_inReset (s := { s with host := rest }) hreset]
  · exact step_await_idle hwf hhost (by rw [hreset, Bool.not_true, Bool.and_false])

/-! ### The reset state -/

/-- Settles O14: asserting reset gives the reset values, and releasing it changes the reset line alone. -/
theorem resetPulseGivesResetState : Obligations.ResetPulseGivesResetState := by
  intro s rest hwf hhost
  have hon : step s = .next ({ s with host := .resetOff :: rest } : State).assertReset := step_hostEvent hwf hhost nofun
  have hoff : step ({ s with host := .resetOff :: rest } : State).assertReset =
      .next { State.resetFor s.cfg with host := rest, hostData := s.hostData } :=
    step_hostEvent (s := State.assertReset _) (e := .resetOff) hwf rfl nofun
  exact (run_succ (M := core) hon 1).trans ((run_one core _).trans hoff)

theorem State.ctx_closeAll (s : State) (j : BitVec 4) : s.closeAll.ctx j = { s.ctx j with act := false } := by
  rw [State.ctx, State.ctx, State.closeAll_dec]
  exact List.getD_map (f := fun d : DecCtx => { d with act := false }) (d := DecCtx.initial) ..

/-- With every context closed, the `ACT` flags are those of the reset state (10_state.md R130). -/
theorem State.closeAll_act {s : State} (h : s.dec.length = s.cfg.nDec) :
    s.closeAll.dec.map DecCtx.act = (State.resetFor s.cfg).dec.map DecCtx.act := by
  calc s.closeAll.dec.map DecCtx.act = s.dec.map (Function.const DecCtx false) := List.map_map
    _ = List.replicate s.cfg.nDec false := by rw [List.map_const, h]
    _ = (State.resetFor s.cfg).dec.map DecCtx.act :=
      (List.map_replicate (f := DecCtx.act) (a := DecCtx.initial)).symm

/-- Settles O41. -/
theorem clearMatchesReset : Obligations.ClearMatchesReset := fun s h =>
  ⟨_, exec_clear s, rfl, rfl, rfl, State.closeAll_act h, rfl, rfl, rfl, s.ctx_closeAll⟩

end Sys2Proof.Machine
end

section
/-! The end of an accepted command (70_reset_and_hazards.md R800, R820): whatever the host does in the meantime, the
command completes or is abandoned by a reset. -/

namespace Sys2Proof.Machine

/-! ### Accesses while a command runs -/

/-- `u` is `s` but for what register accesses reach while a command runs: the operand registers, `OVR` and the host's
side (10_state.md R101, R102). -/
def State.AccessedTo (s u : State) : Prop :=
  u = { s with opa := u.opa, opb := u.opb, ovr := u.ovr, host := u.host, hostData := u.hostData }

theorem State.AccessedTo.refl (s : State) : s.AccessedTo s := rfl

theorem State.AccessedTo.trans {s u v : State} (hu : s.AccessedTo u) (hv : u.AccessedTo v) : s.AccessedTo v := by
  refine Eq.trans hv ?_
  rw [hu]

theorem State.accessedTo_withHost (s : State) (rest : List HostEvent) : s.AccessedTo { s with host := rest } := rfl

section
variable {s u : State} (h : s.AccessedTo u)
include h

theorem State.AccessedTo.cfg : u.cfg = s.cfg := by rw [h]
theorem State.AccessedTo.cmd : u.cmd = s.cmd := by rw [h]
theorem State.AccessedTo.busy : u.busy = s.busy := by rw [h]
theorem State.AccessedTo.inReset : u.inReset = s.inReset := by rw [h]

end

/-- A write reaches no more, since a busy block drops a write of `CMD` (70_reset_and_hazards.md R811). -/
theorem State.accessedTo_writeReg {s : State} (hbusy : s.busy = true) (index : BitVec 4) (v : Word) :
    s.AccessedTo (s.writeReg index v) ∧ (s.writeReg index v).host = s.host := by
  unfold State.writeReg State.writeCmd
  rw [if_pos hbusy]
  split
  · exact ⟨rfl, rfl⟩
  · split <;> exact ⟨rfl, rfl⟩

/-- No host event but the assertion of reset ends a running command. -/
theorem State.accessedTo_hostAct {s : State} {e : HostEvent} (hbusy : s.busy = true) (hreset : s.inReset = false)
    (he : e ≠ .resetOn) : s.AccessedTo (s.hostAct e) ∧ (s.hostAct e).host = s.host := by
  cases e with
  | write index v => exact s.accessedTo_writeReg hbusy index v
  | read index => exact ⟨rfl, rfl⟩
  | await => exact ⟨rfl, rfl⟩
  | resetOn => exact absurd rfl he
  | resetOff =>
    have hs : s.releaseReset = s := by rw [State.releaseReset, ← hreset]
    exact ⟨hs, rfl⟩

/-- A step in which the host neither waits nor asserts reset leaves the command running. -/
theorem step_access {s : State} {e : HostEvent} {rest : List HostEvent} (hwf : s.cfg.wf) (hbusy : s.busy = true)
    (hreset : s.inReset = false) (hhost : s.host = e :: rest) (hawait : e ≠ .await) (hon : e ≠ .resetOn) :
    ∃ u, step s = .next u ∧ s.AccessedTo u ∧ u.host = rest := by
  obtain ⟨hact, hrest⟩ := State.accessedTo_hostAct (s := { s with host := rest }) hbusy hreset hon
  exact ⟨_, step_hostEvent hwf hhost hawait, (s.accessedTo_withHost rest).trans hact, hrest⟩

/-! ### The run up to the command's end -/

/-- A run taken one step further. -/
theorem run_succ_of_run {M : Host.Core} {k : Nat} {s u : M.State} (h : M.run k s = .next u) :
    M.run (k + 1) s = M.step u := by
  induction k generalizing s with
  | zero =>
    cases h
    exact run_one M _
  | succ k ih =>
    cases hstep : M.step s with
    | next s' =>
      rw [run_succ hstep] at h ⊢
      exact ih h
    | fault | refused => simp [Host.Core.run, hstep] at h

/-- A running command comes, within the host's events, to its completion or to a reset that the host asserts; until then
the host only accesses registers. -/
theorem run_reaches_completion_or_reset {s : State} (hwf : s.cfg.wf) (hbusy : s.busy = true)
    (hreset : s.inReset = false) :
    ∃ (k : Nat) (u : State), k ≤ s.host.length ∧ core.run k s = .next u ∧ s.AccessedTo u ∧
      ((∃ rest, u.completing rest) ∨ .resetOn ∈ s.host ∧ ∃ rest, u.host = .resetOn :: rest) := by
  induction hhost : s.host generalizing s with
  | nil => exact ⟨0, s, Nat.le_refl _, rfl, .refl s, .inl ⟨[], hbusy, hreset, .inr ⟨hhost, rfl⟩⟩⟩
  | cons e rest ih =>
    by_cases hawait : e = .await
    · subst hawait
      exact ⟨0, s, Nat.zero_le _, rfl, .refl s, .inl ⟨rest, hbusy, hreset, .inl hhost⟩⟩
    by_cases hon : e = .resetOn
    · subst hon
      exact ⟨0, s, Nat.zero_le _, rfl, .refl s, .inr ⟨List.mem_cons_self, rest, hhost⟩⟩
    obtain ⟨u₁, hstep, haccess, hrest⟩ := step_access hwf hbusy hreset hhost hawait hon
    obtain ⟨k, u, hk, hrun, hu, hend⟩ :=
      ih (haccess.cfg ▸ hwf) (haccess.busy.trans hbusy) (haccess.inReset.trans hreset) hrest
    exact ⟨k + 1, u, Nat.succ_le_succ hk, (run_succ (M := core) hstep k).trans hrun, haccess.trans hu,
      hend.imp_right fun ⟨hmem, hnext⟩ => ⟨List.mem_cons_of_mem e hmem, hnext⟩⟩

/-! ### The end -/

/-- The run of an accepted word, legal or not, ends with `BUSY` clear (30_encoding.md R306). -/
theorem State.runCommand_posts (s : State) : ∃ t, s.runCommand = .next t ∧ t.busy = false := by
  unfold State.runCommand
  split
  · obtain ⟨t, ht, hbusy, -⟩ := commandsLeaveHostSideAlone _ s
    exact ⟨t, ht, hbusy⟩
  · exact ⟨_, rfl, s.raise_busy none _⟩

theorem step_completing_posts {u : State} {rest : List HostEvent} (hwf : u.cfg.wf) (h : u.completing rest) :
    ∃ t, step u = .next t ∧ t.busy = false := by
  rw [step_completing hwf h]
  exact State.runCommand_posts _

/-- Settles O16: the step at which the run arrives clears `BUSY`, and with no reset asserted it runs the accepted
word. -/
theorem acceptedCommandCompletes : Obligations.AcceptedCommandCompletes := by
  intro s hwf hbusy hreset
  obtain ⟨k, u, hk, hrun, haccess, hend⟩ := run_reaches_completion_or_reset hwf hbusy hreset
  have hwf' : u.cfg.wf := haccess.cfg ▸ hwf
  refine ⟨?_, fun hnone => ?_⟩
  · obtain ⟨t, hstep, ht⟩ : ∃ t, step u = .next t ∧ t.busy = false := by
      rcases hend with ⟨rest, hcompleting⟩ | ⟨-, rest, hhost⟩
      · exact step_completing_posts hwf' hcompleting
      · exact ⟨_, step_hostEvent hwf' hhost nofun, rfl⟩
    exact ⟨k + 1, t, Nat.succ_le_succ hk, (run_succ_of_run hrun).trans hstep, ht⟩
  · obtain ⟨rest, hcompleting⟩ := hend.resolve_right fun ⟨hmem, _⟩ => hnone hmem
    obtain ⟨t, hstep, ht⟩ := step_completing_posts hwf' hcompleting
    refine ⟨k, u, t, rest, hk, hrun, haccess, hcompleting, hstep, ht, fun i hi => ?_, fun hill => ?_⟩
    · rw [← haccess.cfg, ← haccess.cmd] at hi
      exact (stepRunsDecodedCommand u rest i hwf' hcompleting hi).symm.trans hstep
    · rw [← haccess.cfg, ← haccess.cmd] at hill
      exact Host.Outcome.next.inj (hstep.symm.trans (illegalWordChangesOnlyResults u rest hwf' hcompleting hill))

end Sys2Proof.Machine
end
